-- ==== Sys2Proof/Word.lean ====
section
/-! DEFINITION. The word types of the CORE (R10, R11): 32-bit words, bytes and 5-bit register
numbers. -/

namespace Sys2Proof

/-- A 32-bit value (R10): register contents, addresses while they are computed, instruction words. -/
abbrev Word := BitVec 32

/-- One byte of the flat memory (R43). -/
abbrev Byte := BitVec 8

/-- A 5-bit register field (R141): it numbers the 32 registers x0 to x31 (R30). -/
abbrev RegIdx := BitVec 5

end Sys2Proof
end

