-- ==== Sys2Proof/Config.lean ====
section
/-! DEFINITION. The implementation parameters of R8. They are fixed for a run and no instruction
reads or writes them (R36). A `Config` is plain data; every state carries the one it runs under
(log entry 1), so a statement about every state is a statement about every configuration. -/

namespace Sys2Proof

/-- `POLICY` (R8, R100): which line of a full set is the victim. -/
inductive Policy where
  /-- least recently used -/
  | lru
  /-- least frequently used, recency as the tie-break -/
  | lfu
  deriving DecidableEq, Repr

/-- The parameters of R8 that a run is given. `XLEN` and `NREG` are 32 in the types. `REG_INIT` and
`MEM_INIT` are the launch input (`Machine.Launch`). -/
structure Config where
  /-- `MEM_SIZE`: bytes in the flat memory, addresses 0..MEM_SIZE-1 (OPEN) -/
  memSize : Nat
  /-- `RESET_PC`: first fetch address -/
  resetPc : Word
  /-- `GP_INIT`: initial value of x3 -/
  gpInit : Word
  /-- `SP_INIT`: initial value of x2 (OPEN) -/
  spInit : Word
  /-- `EXIT_CODE`: value of x10 that makes a retiring `ecall` end the run (OPEN) -/
  exitCode : Word
  /-- `REQ_PRINT_INT` (OPEN) -/
  reqPrintInt : Word
  /-- `REQ_PRINT_STR` (OPEN) -/
  reqPrintStr : Word
  /-- `REQ_PRINT_CHAR` (OPEN) -/
  reqPrintChar : Word
  /-- `CACHE_ENABLED`: loads and stores access the cache engine (OPEN) -/
  cacheEnabled : Bool
  /-- `SET_INDEX_BITS` = s: the set count is 2^s (OPEN) -/
  setIndexBits : Nat
  /-- `LINES_PER_SET` = w: associativity (OPEN) -/
  linesPerSet : Nat
  /-- `BLOCK_OFFSET_BITS` = b: the block size is 2^b bytes (OPEN) -/
  blockOffsetBits : Nat
  /-- `POLICY` (OPEN) -/
  policy : Policy
  /-- `RF_WRITE_FIRST`: Decode sees the value Writeback writes in the same cycle (default true) -/
  rfWriteFirst : Bool
  deriving DecidableEq, Repr

/-- The configuration `State.reset` carries. `RESET_PC`, `GP_INIT` and `RF_WRITE_FIRST` are the
spec's values (R8). DESIGN CHOICE, unsafe (log entry 2): every OPEN parameter has the example value
of 95_test_vectors.md, the cache disabled as in its common start state. -/
def Config.initial : Config where
  memSize := 0x10000
  resetPc := 0x1000
  gpInit := 0x3000
  spInit := 0xFFFC
  exitCode := 10
  reqPrintInt := 1
  reqPrintStr := 4
  reqPrintChar := 11
  cacheEnabled := false
  setIndexBits := 2
  linesPerSet := 2
  blockOffsetBits := 4
  policy := .lru
  rfWriteFirst := true

end Sys2Proof
end

