-- ==== Sys2Proof/Machine/State.lean ====
section
/-! DEFINITION. The state of the CORE, the tuple `(RF, PC, IFID, IDEX, EXMEM, MEMWB, MEM, CACHE,
STATS, RUN)` of 10_state.md, with the configuration it runs under (log entry 1) and the three
output streams of R62 (log entry 9). Plain data throughout. -/

namespace Sys2Proof.Machine

/-! ### Control signals (R164, R165, R201) -/

/-- ALU selectors (R201). -/
inductive AluSel where
  | add | sub | sll | srl | sra | slt | xor | or | and | mul | mulh | div | rem
  deriving DecidableEq, Repr

/-- `aluA` (R164). -/
inductive AluA where
  | rs1 | pc | zero
  deriving DecidableEq, Repr

/-- `aluB` (R164). -/
inductive AluB where
  | rs2 | imm | zero
  deriving DecidableEq, Repr

/-- `wbSel` (R165). The table's dash is `alu`, never read. -/
inductive WbSel where
  | alu | mem | link
  deriving DecidableEq, Repr

/-- `width` (R165): 1, 2 or 4 bytes; `none` is the table's dash, "false or 0, never read"
(log entry 12). -/
inductive Width where
  | none | byte | half | word
  deriving DecidableEq, Repr

/-- The control record that Decode produces (R165). -/
structure Ctrl where
  regWrite : Bool
  memRead : Bool
  memWrite : Bool
  branch : Bool
  jump : Bool
  trap : Bool
  invalid : Bool
  width : Width
  aluA : AluA
  aluB : AluB
  aluSel : AluSel
  wbSel : WbSel
  deriving DecidableEq, Repr

/-! ### Faults and the run state (R56) -/

/-- The kind of a fault (R56, R500). -/
inductive FaultKind where
  /-- an instruction fetch outside memory (R503) -/
  | fetch
  /-- a load or store outside memory (R502) -/
  | data
  deriving DecidableEq, Repr

/-- A fault a record carries until it retires: `Fetch(addr)` or `Data(addr)` (R38, R42). -/
structure FaultTag where
  kind : FaultKind
  addr : Word
  deriving DecidableEq, Repr

/-- `RUN` (R56). Only `running` takes further cycles. -/
inductive Run where
  | running
  /-- after the exit `ecall` retires (R452) -/
  | exited
  /-- after a faulting record retires (R506) -/
  | faulted (kind : FaultKind) (addr : Word)
  deriving DecidableEq, Repr

/-! ### Pipeline latches (R37 to R42) -/

/-- What the codec made of a fetched word (R38): an admitted instruction with its fields, or
`INVALID`; a fault record's `dec` has no sources, no destination, and is not invalid. -/
inductive Decoded where
  | admitted (i : Instr)
  | invalid
  | faultRecord
  deriving DecidableEq, Repr

/-- A latch value (R37): `Bubble` (R41) or an occupied record. -/
inductive Latch (α : Type) where
  | bubble
  | occupied (r : α)
  deriving DecidableEq, Repr

/-- Whether a latch holds a record. -/
def Latch.isOccupied {α : Type} : Latch α → Bool
  | .bubble => false
  | .occupied _ => true

/-- An occupied IF/ID record (R38). -/
structure IfId where
  pc : Word
  raw : Word
  dec : Decoded
  fault : Option FaultTag
  deriving DecidableEq, Repr

/-- An occupied ID/EX record (R39). -/
structure IdEx where
  pc : Word
  raw : Word
  dec : Decoded
  fault : Option FaultTag
  rd : RegIdx
  rs1 : RegIdx
  rs2 : RegIdx
  use1 : Bool
  use2 : Bool
  v1 : Word
  v2 : Word
  imm : Word
  ctrl : Ctrl
  deriving DecidableEq, Repr

/-- An occupied EX/MEM record (R40). -/
structure ExMem where
  pc : Word
  raw : Word
  dec : Decoded
  fault : Option FaultTag
  rd : RegIdx
  ctrl : Ctrl
  aluResult : Word
  storeData : Word
  link : Word
  deriving DecidableEq, Repr

/-- An occupied MEM/WB record (R42). -/
structure MemWb where
  pc : Word
  raw : Word
  dec : Decoded
  fault : Option FaultTag
  rd : RegIdx
  ctrl : Ctrl
  aluResult : Word
  memData : Word
  link : Word
  deriving DecidableEq, Repr

/-! ### Memory (R43) and the cache engine (R50 to R54, R111) -/

/-- `MEM`: listed bytes by address, in the canonical form `Memory.wf`. -/
abbrev Memory := List Host.Cell

/-- A cache line (R51). It holds no data bytes (R53). -/
structure Line where
  valid : Bool
  tag : Nat
  block : Word
  recency : Nat
  freq : Nat
  deriving DecidableEq, Repr

/-- A set (R50): its lines in way order and its recency clock. -/
structure CacheSet where
  lines : List Line
  clock : Nat
  deriving DecidableEq, Repr

/-- The `Result` of an access (R111). -/
inductive CacheResult where
  | hit
  | miss (inserted : Word)
  | missEvict (evicted inserted : Word)
  deriving DecidableEq, Repr

/-! ### Statistics (R54, R55) and outputs (R62) -/

/-- `STATS` and the cache counters: unbounded natural numbers (R52, R54, R55). -/
structure Stats where
  cycles : Nat
  stalls : Nat
  branchesTaken : Nat
  fwdFromExMem : Nat
  fwdFromMemWb : Nat
  hits : Nat
  misses : Nat
  evictions : Nat
  deriving DecidableEq, Repr

/-- A host request: (x[10], x[11]) (R450). -/
structure HostRequest where
  code : Word
  arg : Word
  deriving DecidableEq, Repr

/-- A diagnostic: (pc, raw) of a retired invalid instruction (R455). -/
structure Diagnostic where
  pc : Word
  raw : Word
  deriving DecidableEq, Repr

/-- The state of the CORE. -/
structure State where
  /-- the configuration (R8); no step changes it -/
  cfg : Config
  /-- `RF` (R30); slot 0 stays 0 and x0 is read as 0 (log entry 15) -/
  rf : Vector Word 32
  /-- `PC`, the address Fetch reads this cycle (R33) -/
  pc : Word
  /-- `IF/ID` -/
  ifid : Latch IfId
  /-- `ID/EX` -/
  idex : Latch IdEx
  /-- `EX/MEM` -/
  exmem : Latch ExMem
  /-- `MEM/WB` -/
  memwb : Latch MemWb
  /-- `MEM` -/
  mem : Memory
  /-- `CACHE`: the sets, indexed 0..2^s-1 -/
  cache : List CacheSet
  /-- `STATS` and the cache counters -/
  stats : Stats
  /-- `RUN` -/
  run : Run
  /-- host-request output, oldest first -/
  hostRequests : List HostRequest
  /-- diagnostic output, oldest first -/
  diagnostics : List Diagnostic
  /-- cache-result output, oldest first -/
  cacheResults : List CacheResult
  deriving DecidableEq, Repr

/-- Why a step stops. -/
inductive Fault where
  /-- Raised by `cycle` (so by `step`) and by `seqStep` when `RUN` is `Exited` or `Faulted`: these are
  terminal and no further cycle is taken (R56, R510; U12 `stuck`). Safe: nothing runs on. -/
  | runEnded
  deriving DecidableEq, Repr

/-- Why a step has no meaning. -/
inductive Refusal where
  /-- An instruction without a meaning yet. No arm of `exec` answers it any more. Safe. -/
  | notModelled (mnemonic : String)
  /-- Raised by `cycle` and `seqStep` when the configuration is not legal: "a model refuses an
  illegal configuration and gives it no behaviour" (R9). Safe. -/
  | illegalConfiguration
  deriving DecidableEq, Repr

/-- The outcome of a meaning or a step. -/
abbrev Result := Host.Outcome State Fault Refusal

/-! ### Reset (R70) -/

/-- A cache line after reset (R70). -/
def Line.empty : Line := { valid := false, tag := 0, block := 0, recency := 0, freq := 0 }

/-- Every counter at 0 (R70). -/
def Stats.zero : Stats where
  cycles := 0
  stalls := 0
  branchesTaken := 0
  fwdFromExMem := 0
  fwdFromMemWb := 0
  hits := 0
  misses := 0
  evictions := 0

/-- The registers after reset (R70): x2 = `SP_INIT`, x3 = `GP_INIT`, every other one 0 (the spec's
default for `REG_INIT`, D15; log entry 3). -/
def resetRegs (cfg : Config) : Vector Word 32 :=
  ((Vector.replicate 32 (0 : Word)).set 2 cfg.spInit).set 3 cfg.gpInit

/-- `2^s` sets of `w` empty lines with clock 0 (R50, R70). -/
def resetCache (cfg : Config) : List CacheSet :=
  List.replicate (2 ^ cfg.setIndexBits)
    { lines := List.replicate cfg.linesPerSet Line.empty, clock := 0 }

/-- The machine right after reset (R70, R630), under `Config.initial` (log entry 2), with no program
loaded (log entry 6). -/
def State.reset : State where
  cfg := Config.initial
  rf := resetRegs Config.initial
  pc := Config.initial.resetPc
  ifid := .bubble
  idex := .bubble
  exmem := .bubble
  memwb := .bubble
  mem := []
  cache := resetCache Config.initial
  stats := Stats.zero
  run := .running
  hostRequests := []
  diagnostics := []
  cacheResults := []

end Sys2Proof.Machine
end

