-- ==== Sys2Proof/Machine/Alu.lean ====
section
/-! DEFINITION. The ArithmeticUnit (R200 to R212): a pure function of two operands and a selector,
which keeps no state, sets no flag and never traps. Operands are read as integers, the exact result
is computed, and it is narrowed to 32 bits at the end. -/

namespace Sys2Proof.Machine

/-- The shift amount, `opB & 0x1F` (R204 to R206). -/
def shiftAmount (b : Word) : Nat := (b &&& 0x1F#32).toNat

/-- `ADD` (R202). -/
def aluAdd (a b : Word) : Word := a + b

/-- `SUB` (R203). -/
def aluSub (a b : Word) : Word := a - b

/-- `SLL` (R204). -/
def aluSll (a b : Word) : Word := a <<< shiftAmount b

/-- `SRL` (R205). -/
def aluSrl (a b : Word) : Word := a >>> shiftAmount b

/-- `SRA` (R206). -/
def aluSra (a b : Word) : Word := a.sshiftRight (shiftAmount b)

/-- `SLT` (R207): the comparison is signed. -/
def aluSlt (a b : Word) : Word := if a.toInt < b.toInt then 1 else 0

/-- `MUL` (R209): the low 32 bits of the product. -/
def aluMul (a b : Word) : Word := BitVec.ofNat 32 (a.toNat * b.toNat)

/-- `MULH` (R210): bits 63:32 of the exact signed product. -/
def aluMulh (a b : Word) : Word := BitVec.ofInt 32 ((a.toInt * b.toInt) / 2 ^ 32)

/-- `DIV` (R211): signed, rounded toward zero; by zero all ones; the overflow case by decision D22. -/
def aluDiv (a b : Word) : Word :=
  if b = 0#32 then 0xFFFFFFFF#32
  else if a = 0x80000000#32 ∧ b = 0xFFFFFFFF#32 then 0x80000000#32
  else BitVec.ofInt 32 (a.toInt.tdiv b.toInt)

/-- `REM` (R212): the sign of the dividend; by zero the dividend; the overflow case by decision D22. -/
def aluRem (a b : Word) : Word :=
  if b = 0#32 then a
  else if a = 0x80000000#32 ∧ b = 0xFFFFFFFF#32 then 0#32
  else BitVec.ofInt 32 (a.toInt - a.toInt.tdiv b.toInt * b.toInt)

/-- `execute(opA, opB, sel)` (R200, R201, R208). -/
def alu (sel : AluSel) (a b : Word) : Word :=
  match sel with
  | .add => aluAdd a b
  | .sub => aluSub a b
  | .sll => aluSll a b
  | .srl => aluSrl a b
  | .sra => aluSra a b
  | .slt => aluSlt a b
  | .xor => a ^^^ b
  | .or => a ||| b
  | .and => a &&& b
  | .mul => aluMul a b
  | .mulh => aluMulh a b
  | .div => aluDiv a b
  | .rem => aluRem a b

end Sys2Proof.Machine
end

