-- ==== Sys2Proof/Machine/Flags.lean ====
section
/-! DEFINITION. The one flag computation of the CORE: Execute's internal `zero` wire (R35, R350).
The ISA has no architectural flag, so nothing here is state. -/

namespace Sys2Proof.Machine

/-- `zero = (aluResult == 0)` (R35, R350, R610). -/
def zeroFlag (r : Word) : Bool := r == 0#32

/-- The branch condition of an instruction, from the zero flag of its ALU result (R350): `beq` and
`bge` are taken when zero, `bne` and `blt` when not zero. No other instruction is a branch. -/
def branchTaken (i : Instr) (zero : Bool) : Bool :=
  match i with
  | .beq _ _ _ | .bge _ _ _ => zero
  | .bne _ _ _ | .blt _ _ _ => !zero
  | _ => false

end Sys2Proof.Machine
end

