-- ==== Sys2Proof/WellFormed.lean ====
section
/-! DEFINITION. Which terms of `Instr` are instructions: a B or J offset is a multiple of 2 (R153,
R155: "the least-significant bit implicitly zero"). Every other field takes every value of its
width (R161). -/

namespace Sys2Proof

/-- The check. It refuses a branch or `jal` whose byte offset is odd: no word encodes one. -/
def Instr.wellFormed : Instr → Bool
  | .add _ _ _ | .sub _ _ _ | .sll _ _ _ | .slt _ _ _ | .xor _ _ _ | .srl _ _ _ | .sra _ _ _
  | .or _ _ _ | .and _ _ _ | .mul _ _ _ | .mulh _ _ _ | .div _ _ _ | .rem _ _ _ => true
  | .addi _ _ _ | .slti _ _ _ | .xori _ _ _ | .ori _ _ _ | .andi _ _ _ => true
  | .slli _ _ _ | .srli _ _ _ | .srai _ _ _ => true
  | .lb _ _ _ | .lh _ _ _ | .lw _ _ _ | .sb _ _ _ | .sh _ _ _ | .sw _ _ _ => true
  | .beq _ _ offset | .bne _ _ offset | .blt _ _ offset | .bge _ _ offset => !offset.getLsbD 0
  | .lui _ _ | .auipc _ _ => true
  | .jal _ offset => !offset.getLsbD 0
  | .jalr _ _ _ => true
  | .ecall => true

end Sys2Proof
end

