-- ==== Sys2Proof/Decode.lean ====
section
/-! DEFINITION. The instruction codec (30_encoding.md): the fields of a word (R141), the
immediates (R150 to R155), the decoder (R148, R156 to R160; total, rejecting every INVALID word
with `none`), the encoder, and the opcode table's match/mask pairs (R162). -/

namespace Sys2Proof

/-! ### Fields (R141) -/

/-- `opcode`, bits [6:0]. -/
def opcodeOf (w : Word) : BitVec 7 := w.extractLsb' 0 7

/-- `rd`, bits [11:7]. -/
def rdOf (w : Word) : RegIdx := w.extractLsb' 7 5

/-- `funct3`, bits [14:12]. -/
def funct3Of (w : Word) : BitVec 3 := w.extractLsb' 12 3

/-- `rs1`, bits [19:15]. -/
def rs1Of (w : Word) : RegIdx := w.extractLsb' 15 5

/-- `rs2`, bits [24:20]; the shift amount of a shift-immediate (R143). -/
def rs2Of (w : Word) : RegIdx := w.extractLsb' 20 5

/-- `funct7`, bits [31:25]. -/
def funct7Of (w : Word) : BitVec 7 := w.extractLsb' 25 7

/-- The I-type immediate field, bits [31:20] (R150). -/
def immIOf (w : Word) : BitVec 12 := w.extractLsb' 20 12

/-- The S-type immediate field (R152): high seven bits [31:25], low five bits [11:7]. -/
def immSOf (w : Word) : BitVec 12 := w.extractLsb' 25 7 ++ w.extractLsb' 7 5

/-- The B-type byte offset (R153): `{word[31], word[7], word[30:25], word[11:8], 0}`. -/
def immBOf (w : Word) : BitVec 13 :=
  w.extractLsb' 31 1 ++ w.extractLsb' 7 1 ++ w.extractLsb' 25 6 ++ w.extractLsb' 8 4 ++ 0#1

/-- The U-type immediate field, bits [31:12] (R154). -/
def immUOf (w : Word) : BitVec 20 := w.extractLsb' 12 20

/-- The J-type byte offset (R155): `{word[31], word[19:12], word[20], word[30:21], 0}`. -/
def immJOf (w : Word) : BitVec 21 :=
  w.extractLsb' 31 1 ++ w.extractLsb' 12 8 ++ w.extractLsb' 20 1 ++ w.extractLsb' 21 10 ++ 0#1

/-! ### The decoder (R148, R156 to R160) -/

/-- Opcode 0x33, selected by (funct3, funct7) (R156). -/
def decodeOp (w : Word) : Option Instr :=
  match funct3Of w, funct7Of w with
  | 0b000#3, 0b0000000#7 => some (.add (rdOf w) (rs1Of w) (rs2Of w))
  | 0b000#3, 0b0100000#7 => some (.sub (rdOf w) (rs1Of w) (rs2Of w))
  | 0b001#3, 0b0000000#7 => some (.sll (rdOf w) (rs1Of w) (rs2Of w))
  | 0b010#3, 0b0000000#7 => some (.slt (rdOf w) (rs1Of w) (rs2Of w))
  | 0b100#3, 0b0000000#7 => some (.xor (rdOf w) (rs1Of w) (rs2Of w))
  | 0b101#3, 0b0000000#7 => some (.srl (rdOf w) (rs1Of w) (rs2Of w))
  | 0b101#3, 0b0100000#7 => some (.sra (rdOf w) (rs1Of w) (rs2Of w))
  | 0b110#3, 0b0000000#7 => some (.or (rdOf w) (rs1Of w) (rs2Of w))
  | 0b111#3, 0b0000000#7 => some (.and (rdOf w) (rs1Of w) (rs2Of w))
  | 0b000#3, 0b0000001#7 => some (.mul (rdOf w) (rs1Of w) (rs2Of w))
  | 0b001#3, 0b0000001#7 => some (.mulh (rdOf w) (rs1Of w) (rs2Of w))
  | 0b100#3, 0b0000001#7 => some (.div (rdOf w) (rs1Of w) (rs2Of w))
  | 0b110#3, 0b0000001#7 => some (.rem (rdOf w) (rs1Of w) (rs2Of w))
  | _, _ => none

/-- Opcode 0x13, selected by funct3, and for the shifts by word[31:25] (R157, R251). -/
def decodeOpImm (w : Word) : Option Instr :=
  match funct3Of w with
  | 0b000#3 => some (.addi (rdOf w) (rs1Of w) (immIOf w))
  | 0b010#3 => some (.slti (rdOf w) (rs1Of w) (immIOf w))
  | 0b100#3 => some (.xori (rdOf w) (rs1Of w) (immIOf w))
  | 0b110#3 => some (.ori (rdOf w) (rs1Of w) (immIOf w))
  | 0b111#3 => some (.andi (rdOf w) (rs1Of w) (immIOf w))
  | 0b001#3 =>
    match funct7Of w with
    | 0b0000000#7 => some (.slli (rdOf w) (rs1Of w) (rs2Of w))
    | _ => none
  | 0b101#3 =>
    match funct7Of w with
    | 0b0000000#7 => some (.srli (rdOf w) (rs1Of w) (rs2Of w))
    | 0b0100000#7 => some (.srai (rdOf w) (rs1Of w) (rs2Of w))
    | _ => none
  | _ => none

/-- Opcode 0x03 (R158). -/
def decodeLoad (w : Word) : Option Instr :=
  match funct3Of w with
  | 0b000#3 => some (.lb (rdOf w) (rs1Of w) (immIOf w))
  | 0b001#3 => some (.lh (rdOf w) (rs1Of w) (immIOf w))
  | 0b010#3 => some (.lw (rdOf w) (rs1Of w) (immIOf w))
  | _ => none

/-- Opcode 0x23 (R158). -/
def decodeStore (w : Word) : Option Instr :=
  match funct3Of w with
  | 0b000#3 => some (.sb (rs1Of w) (rs2Of w) (immSOf w))
  | 0b001#3 => some (.sh (rs1Of w) (rs2Of w) (immSOf w))
  | 0b010#3 => some (.sw (rs1Of w) (rs2Of w) (immSOf w))
  | _ => none

/-- Opcode 0x63 (R158). -/
def decodeBranch (w : Word) : Option Instr :=
  match funct3Of w with
  | 0b000#3 => some (.beq (rs1Of w) (rs2Of w) (immBOf w))
  | 0b001#3 => some (.bne (rs1Of w) (rs2Of w) (immBOf w))
  | 0b100#3 => some (.blt (rs1Of w) (rs2Of w) (immBOf w))
  | 0b101#3 => some (.bge (rs1Of w) (rs2Of w) (immBOf w))
  | _ => none

/-- Opcode 0x67 (R158). -/
def decodeJalr (w : Word) : Option Instr :=
  match funct3Of w with
  | 0b000#3 => some (.jalr (rdOf w) (rs1Of w) (immIOf w))
  | _ => none

/-- Opcode 0x73: only the whole word 0x00000073 (R159). -/
def decodeSystem (w : Word) : Option Instr :=
  if w = 0x00000073#32 then some .ecall else none

/-- The codec's decoder, total on all 2^32 words (R162). The opcode alone selects the format
(R148); `none` is `INVALID` (R160). -/
def decode (w : Word) : Option Instr :=
  match opcodeOf w with
  | 0x33#7 => decodeOp w
  | 0x13#7 => decodeOpImm w
  | 0x03#7 => decodeLoad w
  | 0x23#7 => decodeStore w
  | 0x63#7 => decodeBranch w
  | 0x37#7 => some (.lui (rdOf w) (immUOf w))
  | 0x17#7 => some (.auipc (rdOf w) (immUOf w))
  | 0x6F#7 => some (.jal (rdOf w) (immJOf w))
  | 0x67#7 => decodeJalr w
  | 0x73#7 => decodeSystem w
  | _ => none

/-! ### Bytes (R83, R140) -/

/-- The word whose little-endian bytes are `b0` (lowest address) to `b3` (R83, R86). -/
def wordOfBytes (b0 b1 b2 b3 : Byte) : Word := b3 ++ b2 ++ b1 ++ b0

/-- The four bytes of a word, lowest address first (R83, R86). -/
def bytesOfWord (w : Word) : List Byte :=
  [w.extractLsb' 0 8, w.extractLsb' 8 8, w.extractLsb' 16 8, w.extractLsb' 24 8]

/-- The decoder on bytes: it consumes exactly 4 bytes (R140) and gives the instruction with the
rest, or refuses. -/
def decodeBytes : List Byte → Option (Instr × List Byte)
  | b0 :: b1 :: b2 :: b3 :: rest => (decode (wordOfBytes b0 b1 b2 b3)).map fun i => (i, rest)
  | _ => none

/-- The instruction the decoder reads from a table row's word of `nbits` bits. Every bit above
`nbits` is 0. -/
def decodeTableWord (nbits w : Nat) : Option Instr :=
  (decodeBytes (bytesOfWord (BitVec.ofNat 32 (w % 2 ^ nbits)))).map Prod.fst

/-! ### The encoder (R142 to R147, R156 to R159) -/

/-- R-type (R142). -/
def packR (funct7 : BitVec 7) (rs2 rs1 : RegIdx) (funct3 : BitVec 3) (rd : RegIdx)
    (opcode : BitVec 7) : Word :=
  funct7 ++ rs2 ++ rs1 ++ funct3 ++ rd ++ opcode

/-- I-type (R143). -/
def packI (imm : BitVec 12) (rs1 : RegIdx) (funct3 : BitVec 3) (rd : RegIdx)
    (opcode : BitVec 7) : Word :=
  imm ++ rs1 ++ funct3 ++ rd ++ opcode

/-- S-type (R144). -/
def packS (imm : BitVec 12) (rs2 rs1 : RegIdx) (funct3 : BitVec 3) (opcode : BitVec 7) : Word :=
  imm.extractLsb' 5 7 ++ rs2 ++ rs1 ++ funct3 ++ imm.extractLsb' 0 5 ++ opcode

/-- B-type (R145): `imm[12|10:5] rs2 rs1 funct3 imm[4:1|11] opcode`. -/
def packB (offset : BitVec 13) (rs2 rs1 : RegIdx) (funct3 : BitVec 3) (opcode : BitVec 7) : Word :=
  offset.extractLsb' 12 1 ++ offset.extractLsb' 5 6 ++ rs2 ++ rs1 ++ funct3
    ++ offset.extractLsb' 1 4 ++ offset.extractLsb' 11 1 ++ opcode

/-- U-type (R146). -/
def packU (imm : BitVec 20) (rd : RegIdx) (opcode : BitVec 7) : Word := imm ++ rd ++ opcode

/-- J-type (R147): `imm[20|10:1|11|19:12] rd opcode`. -/
def packJ (offset : BitVec 21) (rd : RegIdx) (opcode : BitVec 7) : Word :=
  offset.extractLsb' 20 1 ++ offset.extractLsb' 1 10 ++ offset.extractLsb' 11 1
    ++ offset.extractLsb' 12 8 ++ rd ++ opcode

/-- The word of an instruction, from the encoding tables R148 and R156 to R159. -/
def encode : Instr → Word
  | .add rd rs1 rs2 => packR 0b0000000 rs2 rs1 0b000 rd 0x33
  | .sub rd rs1 rs2 => packR 0b0100000 rs2 rs1 0b000 rd 0x33
  | .sll rd rs1 rs2 => packR 0b0000000 rs2 rs1 0b001 rd 0x33
  | .slt rd rs1 rs2 => packR 0b0000000 rs2 rs1 0b010 rd 0x33
  | .xor rd rs1 rs2 => packR 0b0000000 rs2 rs1 0b100 rd 0x33
  | .srl rd rs1 rs2 => packR 0b0000000 rs2 rs1 0b101 rd 0x33
  | .sra rd rs1 rs2 => packR 0b0100000 rs2 rs1 0b101 rd 0x33
  | .or rd rs1 rs2 => packR 0b0000000 rs2 rs1 0b110 rd 0x33
  | .and rd rs1 rs2 => packR 0b0000000 rs2 rs1 0b111 rd 0x33
  | .mul rd rs1 rs2 => packR 0b0000001 rs2 rs1 0b000 rd 0x33
  | .mulh rd rs1 rs2 => packR 0b0000001 rs2 rs1 0b001 rd 0x33
  | .div rd rs1 rs2 => packR 0b0000001 rs2 rs1 0b100 rd 0x33
  | .rem rd rs1 rs2 => packR 0b0000001 rs2 rs1 0b110 rd 0x33
  | .addi rd rs1 imm => packI imm rs1 0b000 rd 0x13
  | .slti rd rs1 imm => packI imm rs1 0b010 rd 0x13
  | .xori rd rs1 imm => packI imm rs1 0b100 rd 0x13
  | .ori rd rs1 imm => packI imm rs1 0b110 rd 0x13
  | .andi rd rs1 imm => packI imm rs1 0b111 rd 0x13
  | .slli rd rs1 shamt => packR 0b0000000 shamt rs1 0b001 rd 0x13
  | .srli rd rs1 shamt => packR 0b0000000 shamt rs1 0b101 rd 0x13
  | .srai rd rs1 shamt => packR 0b0100000 shamt rs1 0b101 rd 0x13
  | .lb rd rs1 imm => packI imm rs1 0b000 rd 0x03
  | .lh rd rs1 imm => packI imm rs1 0b001 rd 0x03
  | .lw rd rs1 imm => packI imm rs1 0b010 rd 0x03
  | .sb rs1 rs2 imm => packS imm rs2 rs1 0b000 0x23
  | .sh rs1 rs2 imm => packS imm rs2 rs1 0b001 0x23
  | .sw rs1 rs2 imm => packS imm rs2 rs1 0b010 0x23
  | .beq rs1 rs2 offset => packB offset rs2 rs1 0b000 0x63
  | .bne rs1 rs2 offset => packB offset rs2 rs1 0b001 0x63
  | .blt rs1 rs2 offset => packB offset rs2 rs1 0b100 0x63
  | .bge rs1 rs2 offset => packB offset rs2 rs1 0b101 0x63
  | .lui rd imm => packU imm rd 0x37
  | .auipc rd imm => packU imm rd 0x17
  | .jal rd offset => packJ offset rd 0x6F
  | .jalr rd rs1 imm => packI imm rs1 0b000 rd 0x67
  | .ecall => 0x00000073

/-! ### The opcode table (R162) -/

/-- One row of spec/opcode_table.json: a word `w` is of the row when `w &&& mask = pattern`. -/
structure TableRow where
  mnemonic : String
  pattern : Word
  mask : Word
  deriving DecidableEq, Repr

/-- The row a word falls under. -/
def TableRow.covers (r : TableRow) (w : Word) : Bool := w &&& r.mask == r.pattern

/-- Rows of opcode 0x33 (R156, R220 to R232). -/
def tableRegReg : List TableRow :=
  [⟨"add", 0x00000033, 0xFE00707F⟩, ⟨"sub", 0x40000033, 0xFE00707F⟩,
   ⟨"sll", 0x00001033, 0xFE00707F⟩, ⟨"slt", 0x00002033, 0xFE00707F⟩,
   ⟨"xor", 0x00004033, 0xFE00707F⟩, ⟨"srl", 0x00005033, 0xFE00707F⟩,
   ⟨"sra", 0x40005033, 0xFE00707F⟩, ⟨"or", 0x00006033, 0xFE00707F⟩,
   ⟨"and", 0x00007033, 0xFE00707F⟩, ⟨"mul", 0x02000033, 0xFE00707F⟩,
   ⟨"mulh", 0x02001033, 0xFE00707F⟩, ⟨"div", 0x02004033, 0xFE00707F⟩,
   ⟨"rem", 0x02006033, 0xFE00707F⟩]

/-- Rows of opcode 0x13 (R157, R252 to R259). -/
def tableRegImm : List TableRow :=
  [⟨"addi", 0x00000013, 0x0000707F⟩, ⟨"slti", 0x00002013, 0x0000707F⟩,
   ⟨"xori", 0x00004013, 0x0000707F⟩, ⟨"ori", 0x00006013, 0x0000707F⟩,
   ⟨"andi", 0x00007013, 0x0000707F⟩, ⟨"slli", 0x00001013, 0xFE00707F⟩,
   ⟨"srli", 0x00005013, 0xFE00707F⟩, ⟨"srai", 0x40005013, 0xFE00707F⟩]

/-- Rows of opcodes 0x03, 0x23 and 0x63 (R158, R304 to R309, R354 to R357). -/
def tableMemBranch : List TableRow :=
  [⟨"lb", 0x00000003, 0x0000707F⟩, ⟨"lh", 0x00001003, 0x0000707F⟩,
   ⟨"lw", 0x00002003, 0x0000707F⟩, ⟨"sb", 0x00000023, 0x0000707F⟩,
   ⟨"sh", 0x00001023, 0x0000707F⟩, ⟨"sw", 0x00002023, 0x0000707F⟩,
   ⟨"beq", 0x00000063, 0x0000707F⟩, ⟨"bne", 0x00001063, 0x0000707F⟩,
   ⟨"blt", 0x00004063, 0x0000707F⟩, ⟨"bge", 0x00005063, 0x0000707F⟩]

/-- Rows of the remaining opcodes (R158, R159, R401 to R405, R450). -/
def tableUpperJumpSystem : List TableRow :=
  [⟨"lui", 0x00000037, 0x0000007F⟩, ⟨"auipc", 0x00000017, 0x0000007F⟩,
   ⟨"jal", 0x0000006F, 0x0000007F⟩, ⟨"jalr", 0x00000067, 0x0000707F⟩,
   ⟨"ecall", 0x00000073, 0xFFFFFFFF⟩]

/-- The whole table, in its order. -/
def opcodeTable : List TableRow :=
  tableRegReg ++ tableRegImm ++ tableMemBranch ++ tableUpperJumpSystem

/-- The mnemonic of an instruction's table row. -/
def Instr.mnemonic : Instr → String
  | .add _ _ _ => "add"
  | .sub _ _ _ => "sub"
  | .sll _ _ _ => "sll"
  | .slt _ _ _ => "slt"
  | .xor _ _ _ => "xor"
  | .srl _ _ _ => "srl"
  | .sra _ _ _ => "sra"
  | .or _ _ _ => "or"
  | .and _ _ _ => "and"
  | .mul _ _ _ => "mul"
  | .mulh _ _ _ => "mulh"
  | .div _ _ _ => "div"
  | .rem _ _ _ => "rem"
  | .addi _ _ _ => "addi"
  | .slti _ _ _ => "slti"
  | .xori _ _ _ => "xori"
  | .ori _ _ _ => "ori"
  | .andi _ _ _ => "andi"
  | .slli _ _ _ => "slli"
  | .srli _ _ _ => "srli"
  | .srai _ _ _ => "srai"
  | .lb _ _ _ => "lb"
  | .lh _ _ _ => "lh"
  | .lw _ _ _ => "lw"
  | .sb _ _ _ => "sb"
  | .sh _ _ _ => "sh"
  | .sw _ _ _ => "sw"
  | .beq _ _ _ => "beq"
  | .bne _ _ _ => "bne"
  | .blt _ _ _ => "blt"
  | .bge _ _ _ => "bge"
  | .lui _ _ => "lui"
  | .auipc _ _ => "auipc"
  | .jal _ _ => "jal"
  | .jalr _ _ _ => "jalr"
  | .ecall => "ecall"

end Sys2Proof
end

