-- ==== Sys2Proof/Machine/Operands.lean ====
section
/-! DEFINITION. Operand forms: sign and zero extension (R12), the immediate of each format (R149 to
R155), which register fields are operands (R163), effective addresses (R300) and targets (R350,
R404, R406), and the control record of each instruction (R164, R165). -/

namespace Sys2Proof.Machine

/-! ### Extension (R12) -/

/-- `sext_N(v)`: the low `n` bits of `v`, sign-extended to 32 bits. -/
def sextN (n : Nat) (v : Word) : Word := (v.setWidth n).signExtend 32

/-- `zext_N(v)`: the low `n` bits of `v`, zero-extended to 32 bits. -/
def zextN (n : Nat) (v : Word) : Word := (v.setWidth n).setWidth 32

/-- A 12-bit immediate field, sign-extended (R150, R152). -/
def sext12 (imm : BitVec 12) : Word := imm.signExtend 32

/-- A 13-bit branch offset, sign-extended (R153). -/
def sext13 (offset : BitVec 13) : Word := offset.signExtend 32

/-- A 21-bit jump offset, sign-extended (R155). -/
def sext21 (offset : BitVec 21) : Word := offset.signExtend 32

/-- The U-immediate, `{imm20, 12'b0}` (R154). -/
def upperImm (imm : BitVec 20) : Word := imm ++ 0#12

/-- A shift amount as the ALU's operand B. -/
def shamtWord (shamt : BitVec 5) : Word := shamt.setWidth 32

/-! ### Addresses and targets -/

/-- The effective address of a load or store, modulo 2^32 (R300). -/
def effectiveAddress (base : Word) (imm : BitVec 12) : Word := base + sext12 imm

/-- `target = pc + imm` of a branch or `jal` (R350, R404), modulo 2^32. -/
def pcRelative (pc imm : Word) : Word := pc + imm

/-- The `jalr` target from the sum rs1 + imm: bit 0 cleared (R406). -/
def jalrTarget (sum : Word) : Word := sum &&& 0xFFFFFFFE#32

/-- The link value, pc + 4 (R403). -/
def linkValue (pc : Word) : Word := pc + 4

/-! ### The control record (R165) -/

/-- Every signal false (R41, R609): the record of a fault. -/
def Ctrl.zero : Ctrl where
  regWrite := false
  memRead := false
  memWrite := false
  branch := false
  jump := false
  trap := false
  invalid := false
  width := .none
  aluA := .zero
  aluB := .zero
  aluSel := .add
  wbSel := .alu

/-- The row of a register-register instruction. -/
def Ctrl.regReg (sel : AluSel) : Ctrl :=
  { Ctrl.zero with regWrite := true, aluA := .rs1, aluB := .rs2, aluSel := sel }

/-- The row of a register-immediate instruction. -/
def Ctrl.regImm (sel : AluSel) : Ctrl :=
  { Ctrl.zero with regWrite := true, aluA := .rs1, aluB := .imm, aluSel := sel }

/-- The row of a load of width `n`. -/
def Ctrl.load (n : Width) : Ctrl :=
  { Ctrl.zero with
    regWrite := true, memRead := true, width := n, aluA := .rs1, aluB := .imm, wbSel := .mem }

/-- The row of a store of width `n`. -/
def Ctrl.store (n : Width) : Ctrl :=
  { Ctrl.zero with memWrite := true, width := n, aluA := .rs1, aluB := .imm }

/-- The row of a branch. -/
def Ctrl.ofBranch (sel : AluSel) : Ctrl :=
  { Ctrl.zero with branch := true, aluA := .rs1, aluB := .rs2, aluSel := sel }

/-- The row of `lui`, `auipc`. -/
def Ctrl.upper (a : AluA) : Ctrl :=
  { Ctrl.zero with regWrite := true, aluA := a, aluB := .imm }

/-- The row of `jal`, `jalr`. -/
def Ctrl.ofJump (a : AluA) : Ctrl :=
  { Ctrl.zero with regWrite := true, jump := true, aluA := a, aluB := .imm, wbSel := .link }

end Sys2Proof.Machine

namespace Sys2Proof

open Machine

/-! ### Fields of an instruction (R163) -/

/-- The destination register, 0 when the instruction writes none. -/
def Instr.destReg : Instr → RegIdx
  | .add rd _ _ | .sub rd _ _ | .sll rd _ _ | .slt rd _ _ | .xor rd _ _ | .srl rd _ _
  | .sra rd _ _ | .or rd _ _ | .and rd _ _ | .mul rd _ _ | .mulh rd _ _ | .div rd _ _
  | .rem rd _ _ => rd
  | .addi rd _ _ | .slti rd _ _ | .xori rd _ _ | .ori rd _ _ | .andi rd _ _ | .slli rd _ _
  | .srli rd _ _ | .srai rd _ _ => rd
  | .lb rd _ _ | .lh rd _ _ | .lw rd _ _ => rd
  | .lui rd _ | .auipc rd _ | .jal rd _ | .jalr rd _ _ => rd
  | .sb _ _ _ | .sh _ _ _ | .sw _ _ _ | .beq _ _ _ | .bne _ _ _ | .blt _ _ _ | .bge _ _ _
  | .ecall => 0

/-- The rs1 source, `none` when rs1 is not a source operand. -/
def Instr.source1 : Instr → Option RegIdx
  | .add _ rs1 _ | .sub _ rs1 _ | .sll _ rs1 _ | .slt _ rs1 _ | .xor _ rs1 _ | .srl _ rs1 _
  | .sra _ rs1 _ | .or _ rs1 _ | .and _ rs1 _ | .mul _ rs1 _ | .mulh _ rs1 _ | .div _ rs1 _
  | .rem _ rs1 _ => some rs1
  | .addi _ rs1 _ | .slti _ rs1 _ | .xori _ rs1 _ | .ori _ rs1 _ | .andi _ rs1 _
  | .slli _ rs1 _ | .srli _ rs1 _ | .srai _ rs1 _ => some rs1
  | .lb _ rs1 _ | .lh _ rs1 _ | .lw _ rs1 _ | .jalr _ rs1 _ => some rs1
  | .sb rs1 _ _ | .sh rs1 _ _ | .sw rs1 _ _ => some rs1
  | .beq rs1 _ _ | .bne rs1 _ _ | .blt rs1 _ _ | .bge rs1 _ _ => some rs1
  | .lui _ _ | .auipc _ _ | .jal _ _ | .ecall => none

/-- The rs2 source, `none` when rs2 is not a source operand. -/
def Instr.source2 : Instr → Option RegIdx
  | .add _ _ rs2 | .sub _ _ rs2 | .sll _ _ rs2 | .slt _ _ rs2 | .xor _ _ rs2 | .srl _ _ rs2
  | .sra _ _ rs2 | .or _ _ rs2 | .and _ _ rs2 | .mul _ _ rs2 | .mulh _ _ rs2 | .div _ _ rs2
  | .rem _ _ rs2 => some rs2
  | .sb _ rs2 _ | .sh _ rs2 _ | .sw _ rs2 _ => some rs2
  | .beq _ rs2 _ | .bne _ rs2 _ | .blt _ rs2 _ | .bge _ rs2 _ => some rs2
  | .addi _ _ _ | .slti _ _ _ | .xori _ _ _ | .ori _ _ _ | .andi _ _ _ | .slli _ _ _
  | .srli _ _ _ | .srai _ _ _ => none
  | .lb _ _ _ | .lh _ _ _ | .lw _ _ _ | .jalr _ _ _ => none
  | .lui _ _ | .auipc _ _ | .jal _ _ | .ecall => none

/-- The assembled immediate (R149 to R155), 0 for R-type and `ecall` (R609). For `srai` it is
0x400 + shamt, the sign-extended I-immediate of its word (R151, R259). -/
def Instr.immediate : Instr → Word
  | .addi _ _ imm | .slti _ _ imm | .xori _ _ imm | .ori _ _ imm | .andi _ _ imm => sext12 imm
  | .slli _ _ shamt | .srli _ _ shamt => shamtWord shamt
  | .srai _ _ shamt => 0x400#32 + shamtWord shamt
  | .lb _ _ imm | .lh _ _ imm | .lw _ _ imm | .jalr _ _ imm => sext12 imm
  | .sb _ _ imm | .sh _ _ imm | .sw _ _ imm => sext12 imm
  | .beq _ _ offset | .bne _ _ offset | .blt _ _ offset | .bge _ _ offset => sext13 offset
  | .lui _ imm | .auipc _ imm => upperImm imm
  | .jal _ offset => sext21 offset
  | .add _ _ _ | .sub _ _ _ | .sll _ _ _ | .slt _ _ _ | .xor _ _ _ | .srl _ _ _ | .sra _ _ _
  | .or _ _ _ | .and _ _ _ | .mul _ _ _ | .mulh _ _ _ | .div _ _ _ | .rem _ _ _ | .ecall => 0

/-- The control record of each mnemonic (R165). -/
def Instr.ctrl : Instr → Ctrl
  | .add _ _ _ => Ctrl.regReg .add
  | .sub _ _ _ => Ctrl.regReg .sub
  | .sll _ _ _ => Ctrl.regReg .sll
  | .slt _ _ _ => Ctrl.regReg .slt
  | .xor _ _ _ => Ctrl.regReg .xor
  | .srl _ _ _ => Ctrl.regReg .srl
  | .sra _ _ _ => Ctrl.regReg .sra
  | .or _ _ _ => Ctrl.regReg .or
  | .and _ _ _ => Ctrl.regReg .and
  | .mul _ _ _ => Ctrl.regReg .mul
  | .mulh _ _ _ => Ctrl.regReg .mulh
  | .div _ _ _ => Ctrl.regReg .div
  | .rem _ _ _ => Ctrl.regReg .rem
  | .addi _ _ _ => Ctrl.regImm .add
  | .slti _ _ _ => Ctrl.regImm .slt
  | .xori _ _ _ => Ctrl.regImm .xor
  | .ori _ _ _ => Ctrl.regImm .or
  | .andi _ _ _ => Ctrl.regImm .and
  | .slli _ _ _ => Ctrl.regImm .sll
  | .srli _ _ _ => Ctrl.regImm .srl
  | .srai _ _ _ => Ctrl.regImm .sra
  | .lb _ _ _ => Ctrl.load .byte
  | .lh _ _ _ => Ctrl.load .half
  | .lw _ _ _ => Ctrl.load .word
  | .sb _ _ _ => Ctrl.store .byte
  | .sh _ _ _ => Ctrl.store .half
  | .sw _ _ _ => Ctrl.store .word
  | .beq _ _ _ => Ctrl.ofBranch .sub
  | .bne _ _ _ => Ctrl.ofBranch .sub
  | .blt _ _ _ => Ctrl.ofBranch .slt
  | .bge _ _ _ => Ctrl.ofBranch .slt
  | .lui _ _ => Ctrl.upper .zero
  | .auipc _ _ => Ctrl.upper .pc
  | .jal _ _ => Ctrl.ofJump .pc
  | .jalr _ _ _ => Ctrl.ofJump .rs1
  | .ecall => { Ctrl.zero with trap := true }

end Sys2Proof

namespace Sys2Proof.Machine

/-! ### What Decode reads from a record's `dec` (R609) -/

/-- The destination of a decoded record; none for an invalid or fault record. -/
def Decoded.destReg : Decoded → RegIdx
  | .admitted i => i.destReg
  | .invalid | .faultRecord => 0

/-- The rs1 source of a decoded record. -/
def Decoded.source1 : Decoded → Option RegIdx
  | .admitted i => i.source1
  | .invalid | .faultRecord => none

/-- The rs2 source of a decoded record. -/
def Decoded.source2 : Decoded → Option RegIdx
  | .admitted i => i.source2
  | .invalid | .faultRecord => none

/-- The immediate of a decoded record, 0 for an invalid or fault record (R609). -/
def Decoded.immediate : Decoded → Word
  | .admitted i => i.immediate
  | .invalid | .faultRecord => 0

/-- The control record of a decoded record (R165, R609). -/
def Decoded.ctrl : Decoded → Ctrl
  | .admitted i => i.ctrl
  | .invalid => { Ctrl.zero with invalid := true }
  | .faultRecord => Ctrl.zero

/-- The codec's verdict on a fetched word (R38, R160). -/
def Decoded.ofWord (w : Word) : Decoded :=
  match decode w with
  | some i => .admitted i
  | none => .invalid

/-- Operand A of the ALU (R164, R610). -/
def operandA (sel : AluA) (rs1 pc : Word) : Word :=
  match sel with
  | .rs1 => rs1
  | .pc => pc
  | .zero => 0

/-- Operand B of the ALU (R164, R610). -/
def operandB (sel : AluB) (rs2 imm : Word) : Word :=
  match sel with
  | .rs2 => rs2
  | .imm => imm
  | .zero => 0

end Sys2Proof.Machine
end

