-- ==== Sys2Proof/Machine/Ops.lean ====
section
/-! DEFINITION. The named operations over configuration, registers, memory, cache, outputs and the
run state. Every instruction meaning and every pipeline stage goes through these. -/

namespace Sys2Proof

/-- A legal configuration (R9). -/
def Config.legal (c : Config) : Bool :=
  decide (1 ≤ c.memSize) && decide (c.memSize ≤ 2 ^ 32) && decide (1 ≤ c.linesPerSet)
    && decide (c.setIndexBits + c.blockOffsetBits ≤ 32)

end Sys2Proof

namespace Sys2Proof.Machine

/-! ### Registers (R30, R32) -/

/-- `x[r]`: x0 always reads 0 (R30). -/
def State.readReg (s : State) (r : RegIdx) : Word :=
  if r = 0#5 then 0#32 else s.rf[r.toNat]'r.isLt

/-- `x[r] <- v`: a write to x0 is discarded (R13, R30). -/
def State.writeReg (s : State) (r : RegIdx) (v : Word) : State :=
  if r = 0#5 then s else { s with rf := s.rf.set r.toNat v r.isLt }

/-- x10, the request code of `ecall` (R31, R450). -/
def regCode : RegIdx := 10#5

/-- x11, the argument of `ecall` (R31, R450). -/
def regArg : RegIdx := 11#5

/-- `pc <- target` (R13). -/
def State.jumpTo (s : State) (target : Word) : State := { s with pc := target }

/-- `pc <- pc + 4` (mod 2^32; a wrapped pc is fetched from, log entry 26). -/
def State.advance (s : State) : State := s.jumpTo (s.pc + 4)

/-! ### Memory (R80 to R90) -/

/-- What a byte the loader did not set and no store has written reads as: 0, the spec's default
(R70, D31; log entry 4). -/
def Memory.unlisted : Byte := 0#8

/-- The canonical form: addresses strictly rising, no entry equal to `Memory.unlisted`. -/
def Memory.wf : Memory → Bool
  | [] => true
  | (a, b) :: rest =>
    b != Memory.unlisted
      && (match rest with
          | [] => true
          | (a', _) :: _ => decide (a < a'))
      && Memory.wf rest

/-- The byte at an address. -/
def Memory.readByte : Memory → Nat → Byte
  | [], _ => Memory.unlisted
  | (k, b) :: rest, a => if k = a then b else Memory.readByte rest a

/-- Puts a byte in front of `rest`, whose addresses are above `a`, unless it is what an unlisted
address reads as. -/
def Memory.consByte (a : Nat) (v : Byte) (rest : Memory) : Memory :=
  if v = Memory.unlisted then rest else (a, v) :: rest

/-- The memory with one byte set; it keeps the canonical form. -/
def Memory.writeByte : Memory → Nat → Byte → Memory
  | [], a, v => Memory.consByte a v []
  | (k, b) :: rest, a, v =>
    if a < k then Memory.consByte a v ((k, b) :: rest)
    else if a = k then Memory.consByte a v rest
    else (k, b) :: Memory.writeByte rest a v

/-- The `n`-byte little-endian value at `a..a+n-1`, zero-extended (R81, R86), for n at most 4. -/
def Memory.readLE (m : Memory) (a : Nat) : Nat → Word
  | 0 => 0#32
  | n + 1 => (m.readByte a).setWidth 32 ||| (Memory.readLE m (a + 1) n <<< 8)

/-- The low `8n` bits of `v`, stored little-endian at `a..a+n-1` (R82, R86). -/
def Memory.writeLE (m : Memory) (a : Nat) : Nat → Word → Memory
  | 0, _ => m
  | n + 1, v => Memory.writeLE (m.writeByte a (v.setWidth 8)) (a + 1) n (v >>> 8)

/-- Bytes loaded one after the other from address `a`; bytes at or past `limit` do not exist and are
dropped (log entry 22). -/
def Memory.loadBytes (limit : Nat) : Memory → Nat → List Byte → Memory
  | m, _, [] => m
  | m, a, b :: rest =>
    Memory.loadBytes limit (if a < limit then m.writeByte a b else m) (a + 1) rest

/-- The number of bytes of an access width (R87, R165). -/
def Width.bytes : Width → Nat
  | .none => 0
  | .byte => 1
  | .half => 2
  | .word => 4

/-- The range check of R81 to R83: the whole range `addr..addr+n-1` lies in memory. The sum is an
unbounded natural number and does not wrap (R11, R81). -/
def State.inRange (s : State) (addr : Word) (n : Nat) : Bool :=
  decide (addr.toNat + n ≤ s.cfg.memSize)

/-- `MemRead(addr, n)` (R81): `none` is `MemFault(addr)`. -/
def State.memRead (s : State) (addr : Word) (n : Nat) : Option Word :=
  if s.inRange addr n then some (s.mem.readLE addr.toNat n) else none

/-- `MemWrite(addr, n, v)` (R82): `none` is `MemFault(addr)`, and then nothing is written. -/
def State.memWrite (s : State) (addr : Word) (n : Nat) (v : Word) : Option State :=
  if s.inRange addr n then some { s with mem := s.mem.writeLE addr.toNat n v } else none

/-- `Fetch(addr)` (R83): `none` is `FetchFault(addr)`. It does not go through the cache. -/
def State.fetchWord (s : State) (addr : Word) : Option Word := s.memRead addr 4

/-- The loaded value (R87, R301): 1-byte and 2-byte loads are sign-extended. -/
def extendLoaded (n : Width) (raw : Word) : Word :=
  match n with
  | .none => 0
  | .byte => sextN 8 raw
  | .half => sextN 16 raw
  | .word => raw

/-! ### The cache engine (R100 to R115) -/

/-- `blockAddress(A)` (R101). -/
def blockAddress (c : Config) (a : Word) : Word :=
  a &&& ~~~(BitVec.ofNat 32 (2 ^ c.blockOffsetBits - 1))

/-- `setIndex(A)` (R101). -/
def setIndex (c : Config) (a : Word) : Nat :=
  (a.toNat >>> c.blockOffsetBits) &&& (2 ^ c.setIndexBits - 1)

/-- `tag(A)` (R101); 0 when s + b = 32. -/
def tagOf (c : Config) (a : Word) : Nat := a.toNat >>> (c.setIndexBits + c.blockOffsetBits)

/-- The probe (R104): the index of the valid line that holds the tag. -/
def findHit (lines : List Line) (tag : Nat) : Option Nat :=
  lines.findIdx? fun l => l.valid && l.tag == tag

/-- The invalid line with the lowest way index (R106). -/
def findFree (lines : List Line) : Option Nat := lines.findIdx? fun l => !l.valid

/-- Whether a line is evicted before another: smaller recency under LRU (R107); smaller frequency,
then smaller recency, under LFU (R108). -/
def evictedBefore (p : Policy) (l m : Line) : Bool :=
  match p with
  | .lru => decide (l.recency < m.recency)
  | .lfu => decide (l.freq < m.freq) || (l.freq == m.freq && decide (l.recency < m.recency))

/-- The victim with its way index: the line evicted before every other, the lowest way index on a
tie (R107, R108). `none` only for a set without lines. -/
def findVictim (p : Policy) : List Line → Option (Nat × Line)
  | [] => none
  | l :: rest =>
    match findVictim p rest with
    | none => some (0, l)
    | some (i, v) => if evictedBefore p v l then some (i + 1, v) else some (0, l)

/-- A line hit at clock value `clock` (R105). -/
def Line.touch (p : Policy) (clock : Nat) (l : Line) : Line :=
  match p with
  | .lru => { l with recency := clock }
  | .lfu => { l with freq := l.freq + 1 }

/-- The line that holds a block just inserted (R106, R109). -/
def Line.installed (tag : Nat) (block : Word) (clock : Nat) : Line :=
  { valid := true, tag := tag, block := block, recency := clock, freq := 1 }

/-- `access` within the addressed set (R103 to R109). A set without lines, which no legal
configuration has, misses and stays empty. -/
def CacheSet.access (p : Policy) (tag : Nat) (block : Word) (set : CacheSet) :
    CacheSet × CacheResult :=
  let clock := set.clock + 1
  match findHit set.lines tag with
  | some i => ({ lines := set.lines.modify i (Line.touch p clock), clock := clock }, .hit)
  | none =>
    match findFree set.lines with
    | some i =>
      ({ lines := set.lines.set i (Line.installed tag block clock), clock := clock }, .miss block)
    | none =>
      match findVictim p set.lines with
      | some (i, v) =>
        ({ lines := set.lines.set i (Line.installed tag block clock), clock := clock },
          .missEvict v.block block)
      | none => ({ lines := set.lines, clock := clock }, .miss block)

/-- The set an address selects; an index past the list, which no legal state has, selects an empty
set (log entry 17). -/
def selectedSet (sets : List CacheSet) (i : Nat) : CacheSet := sets.getD i { lines := [], clock := 0 }

/-- `access(A)` on the whole cache (R103 to R109). -/
def cacheAccess (c : Config) (sets : List CacheSet) (a : Word) : List CacheSet × CacheResult :=
  let i := setIndex c a
  let (set', r) := (selectedSet sets i).access c.policy (tagOf c a) (blockAddress c a)
  (sets.set i set', r)

/-- The cache counters after an access (R112). -/
def Stats.countAccess (st : Stats) (r : CacheResult) : Stats :=
  match r with
  | .hit => { st with hits := st.hits + 1 }
  | .miss _ => { st with misses := st.misses + 1 }
  | .missEvict _ _ => { st with misses := st.misses + 1, evictions := st.evictions + 1 }

/-- The cache access of a load or store that passed its range check: one `access(addr)` when
`CACHE_ENABLED`, nothing otherwise (R113). It changes no data value (R114). -/
def State.accessCache (s : State) (addr : Word) : State :=
  if s.cfg.cacheEnabled then
    let (sets, r) := cacheAccess s.cfg s.cache addr
    { s with
      cache := sets
      stats := s.stats.countAccess r
      cacheResults := s.cacheResults ++ [r] }
  else s

/-! ### Faults: taking one, and the absence of a return (R502 to R510) -/

/-- The one exceptional event of the CORE (R502, R503, R506): RUN becomes `Faulted(kind, addr)` and
nothing else changes. There is no vector, handler, saved pc, saved status or mode (R508), and no
return from it: `Faulted` is terminal (R510). -/
def State.raiseFault (s : State) (kind : FaultKind) (addr : Word) : State :=
  { s with run := .faulted kind addr }

/-- RUN <- `Exited` (R452), terminal as well (R510). -/
def State.exit (s : State) : State := { s with run := .exited }

/-! ### Outputs (R62) -/

/-- The host request of an `ecall`: (x[10], x[11]) (R450). -/
def State.requestOf (s : State) : HostRequest :=
  { code := s.readReg regCode, arg := s.readReg regArg }

/-- Emits a host request. -/
def State.emitRequest (s : State) (q : HostRequest) : State :=
  { s with hostRequests := s.hostRequests ++ [q] }

/-- Emits a diagnostic (R455). -/
def State.emitDiagnostic (s : State) (d : Diagnostic) : State :=
  { s with diagnostics := s.diagnostics ++ [d] }

/-- Whether the request register holds `EXIT_CODE` (R452). -/
def State.exitRequested (s : State) : Bool := s.readReg regCode == s.cfg.exitCode

/-- What a request code asks of the host (R451). -/
inductive RequestKind where
  | exit | printInt | printStr | printChar | other
  deriving DecidableEq, Repr

/-- The kind of a request code under a configuration (R451): a code that matches none of the four
parameters is emitted like any other. If parameters coincide, exit comes first (log entry 24). -/
def requestKind (c : Config) (code : Word) : RequestKind :=
  if code = c.exitCode then .exit
  else if code = c.reqPrintInt then .printInt
  else if code = c.reqPrintStr then .printStr
  else if code = c.reqPrintChar then .printChar
  else .other

/-! ### Launch (R8, R70, R630, R632) -/

/-- The launch input the host's loader writes before the first cycle: `REG_INIT`, and `MEM_INIT` as
chunks of bytes with their first addresses. -/
structure Launch where
  regs : Vector Word 32
  chunks : List (Nat × List Byte)
  deriving DecidableEq, Repr

/-- The default launch: x2 = `SP_INIT`, x3 = `GP_INIT`, every other register 0 (D15), no bytes. -/
def Launch.initial (c : Config) : Launch := { regs := resetRegs c, chunks := [] }

/-- `MEM_INIT` (R70, D31): the loader's bytes, every other byte 0. Chunks are loaded in order, so of two
that cover one byte the later stands (log entry 22). -/
def Launch.memory (c : Config) (l : Launch) : Memory :=
  l.chunks.foldl (fun m chunk => Memory.loadBytes c.memSize m chunk.1 chunk.2) []

/-- The state after reset under a configuration and a launch input (R70, R630): x0 is 0 whatever the
launch input says. -/
def State.resetWith (c : Config) (l : Launch) : State where
  cfg := c
  rf := l.regs.set 0 0#32
  pc := c.resetPc
  ifid := .bubble
  idex := .bubble
  exmem := .bubble
  memwb := .bubble
  mem := l.memory c
  cache := resetCache c
  stats := Stats.zero
  run := .running
  hostRequests := []
  diagnostics := []
  cacheResults := []

end Sys2Proof.Machine
end

