-- ==== Sys2Proof/Machine/LoadStore.lean ====
section
/-! DEFINITION. Loads and stores: the sequential meaning (R14) of R304 to R309. One addressing mode
(R300), no alignment requirement (R303), a range check over the whole access (R301, R302). -/

namespace Sys2Proof.Machine

/-- A load of width `n` (R301): a failed range check raises `MemFault(addr)`, with no read and no
cache access; otherwise one cache access when enabled, `x[rd] <- value; pc <- pc + 4`. -/
def load (n : Width) (rd rs1 : RegIdx) (imm : BitVec 12) (s : State) : Result :=
  let addr := effectiveAddress (s.readReg rs1) imm
  match s.memRead addr n.bytes with
  | none => .next (s.raiseFault .data addr)
  | some raw => .next ((s.accessCache addr).writeReg rd (extendLoaded n raw)).advance

/-- A store of width `n` (R302): a failed range check raises `MemFault(addr)`, with nothing written
and no cache access; otherwise the low bytes of x[rs2] are stored, with one cache access when
enabled, and `pc <- pc + 4`. -/
def store (n : Width) (rs1 rs2 : RegIdx) (imm : BitVec 12) (s : State) : Result :=
  let addr := effectiveAddress (s.readReg rs1) imm
  match s.memWrite addr n.bytes (s.readReg rs2) with
  | none => .next (s.raiseFault .data addr)
  | some t => .next (t.accessCache addr).advance

/-- `lb rd, imm(rs1)` (R304). -/
def execLb (rd rs1 : RegIdx) (imm : BitVec 12) (s : State) : Result :=
  load .byte rd rs1 imm s

/-- `lh rd, imm(rs1)` (R305). -/
def execLh (rd rs1 : RegIdx) (imm : BitVec 12) (s : State) : Result :=
  load .half rd rs1 imm s

/-- `lw rd, imm(rs1)` (R306). -/
def execLw (rd rs1 : RegIdx) (imm : BitVec 12) (s : State) : Result :=
  load .word rd rs1 imm s

/-- `sb rs2, imm(rs1)` (R307). -/
def execSb (rs1 rs2 : RegIdx) (imm : BitVec 12) (s : State) : Result :=
  store .byte rs1 rs2 imm s

/-- `sh rs2, imm(rs1)` (R308). -/
def execSh (rs1 rs2 : RegIdx) (imm : BitVec 12) (s : State) : Result :=
  store .half rs1 rs2 imm s

/-- `sw rs2, imm(rs1)` (R309). -/
def execSw (rs1 rs2 : RegIdx) (imm : BitVec 12) (s : State) : Result :=
  store .word rs1 rs2 imm s

end Sys2Proof.Machine
end

