-- ==== Sys2Proof/Machine/RegImm.lean ====
section
/-! DEFINITION. Register-immediate instructions: the sequential meaning (R14) of R252 to R259. None
sets a flag or raises an exception (R250). -/

namespace Sys2Proof.Machine

/-- `x[rd] <- execute(x[rs1], b, sel); pc <- pc + 4`, with `b` the immediate operand (R250). -/
def regImm (sel : AluSel) (rd rs1 : RegIdx) (b : Word) (s : State) : Result :=
  .next (s.writeReg rd (alu sel (s.readReg rs1) b)).advance

/-- `addi rd, rs1, imm` (R252). -/
def execAddi (rd rs1 : RegIdx) (imm : BitVec 12) (s : State) : Result :=
  regImm .add rd rs1 (sext12 imm) s

/-- `slti rd, rs1, imm` (R253). -/
def execSlti (rd rs1 : RegIdx) (imm : BitVec 12) (s : State) : Result :=
  regImm .slt rd rs1 (sext12 imm) s

/-- `xori rd, rs1, imm` (R254). -/
def execXori (rd rs1 : RegIdx) (imm : BitVec 12) (s : State) : Result :=
  regImm .xor rd rs1 (sext12 imm) s

/-- `ori rd, rs1, imm` (R255). -/
def execOri (rd rs1 : RegIdx) (imm : BitVec 12) (s : State) : Result :=
  regImm .or rd rs1 (sext12 imm) s

/-- `andi rd, rs1, imm` (R256). -/
def execAndi (rd rs1 : RegIdx) (imm : BitVec 12) (s : State) : Result :=
  regImm .and rd rs1 (sext12 imm) s

/-- `slli rd, rs1, shamt` (R257). -/
def execSlli (rd rs1 : RegIdx) (shamt : BitVec 5) (s : State) : Result :=
  regImm .sll rd rs1 (shamtWord shamt) s

/-- `srli rd, rs1, shamt` (R258). -/
def execSrli (rd rs1 : RegIdx) (shamt : BitVec 5) (s : State) : Result :=
  regImm .srl rd rs1 (shamtWord shamt) s

/-- `srai rd, rs1, shamt` (R259). -/
def execSrai (rd rs1 : RegIdx) (shamt : BitVec 5) (s : State) : Result :=
  regImm .sra rd rs1 (shamtWord shamt) s

end Sys2Proof.Machine
end

