-- ==== Sys2Proof/Machine/RegReg.lean ====
section
/-! DEFINITION. Register-register instructions: the sequential meaning (R14) of R220 to R232. Each
reads both sources before the write; a result for x0 is discarded (R161); none sets a flag or
raises an exception (R215). -/

namespace Sys2Proof.Machine

/-- `x[rd] <- execute(x[rs1], x[rs2], sel); pc <- pc + 4` (R215). -/
def regReg (sel : AluSel) (rd rs1 rs2 : RegIdx) (s : State) : Result :=
  .next (s.writeReg rd (alu sel (s.readReg rs1) (s.readReg rs2))).advance

/-- `add rd, rs1, rs2` (R220). -/
def execAdd (rd rs1 rs2 : RegIdx) (s : State) : Result := regReg .add rd rs1 rs2 s

/-- `sub rd, rs1, rs2` (R221). -/
def execSub (rd rs1 rs2 : RegIdx) (s : State) : Result := regReg .sub rd rs1 rs2 s

/-- `sll rd, rs1, rs2` (R222). -/
def execSll (rd rs1 rs2 : RegIdx) (s : State) : Result := regReg .sll rd rs1 rs2 s

/-- `slt rd, rs1, rs2` (R223). -/
def execSlt (rd rs1 rs2 : RegIdx) (s : State) : Result := regReg .slt rd rs1 rs2 s

/-- `xor rd, rs1, rs2` (R224). -/
def execXor (rd rs1 rs2 : RegIdx) (s : State) : Result := regReg .xor rd rs1 rs2 s

/-- `srl rd, rs1, rs2` (R225). -/
def execSrl (rd rs1 rs2 : RegIdx) (s : State) : Result := regReg .srl rd rs1 rs2 s

/-- `sra rd, rs1, rs2` (R226). -/
def execSra (rd rs1 rs2 : RegIdx) (s : State) : Result := regReg .sra rd rs1 rs2 s

/-- `or rd, rs1, rs2` (R227). -/
def execOr (rd rs1 rs2 : RegIdx) (s : State) : Result := regReg .or rd rs1 rs2 s

/-- `and rd, rs1, rs2` (R228). -/
def execAnd (rd rs1 rs2 : RegIdx) (s : State) : Result := regReg .and rd rs1 rs2 s

/-- `mul rd, rs1, rs2` (R229). -/
def execMul (rd rs1 rs2 : RegIdx) (s : State) : Result := regReg .mul rd rs1 rs2 s

/-- `mulh rd, rs1, rs2` (R230). -/
def execMulh (rd rs1 rs2 : RegIdx) (s : State) : Result := regReg .mulh rd rs1 rs2 s

/-- `div rd, rs1, rs2` (R231). -/
def execDiv (rd rs1 rs2 : RegIdx) (s : State) : Result := regReg .div rd rs1 rs2 s

/-- `rem rd, rs1, rs2` (R232). -/
def execRem (rd rs1 rs2 : RegIdx) (s : State) : Result := regReg .rem rd rs1 rs2 s

end Sys2Proof.Machine
end

