-- ==== Sys2Proof/Machine/System.lean ====
section
/-! DEFINITION. The trap instruction and invalid instructions: the sequential meaning of R450 to
R457. -/

namespace Sys2Proof.Machine

/-- `ecall` (R450): `hostRequest(x[10], x[11])`, then RUN <- `Exited` if x[10] = `EXIT_CODE`, else
`pc <- pc + 4`. It writes no register, no memory and no cache state, and is no exception (R509). -/
def execEcall (s : State) : Result :=
  let t := s.emitRequest s.requestOf
  if s.exitRequested then .next t.exit else .next t.advance

/-- An `INVALID` word at the pc (R455, R501): the diagnostic (pc, raw) is emitted, `pc <- pc + 4`, and
nothing else happens. -/
def execInvalid (raw : Word) (s : State) : Result :=
  .next (s.emitDiagnostic { pc := s.pc, raw := raw }).advance

end Sys2Proof.Machine
end

