-- ==== Sys2Proof/Machine/Branch.lean ====
section
/-! DEFINITION. Conditional branches: the sequential meaning (R14) of R354 to R357. A branch writes no
register and no memory (R350). There is no delay slot (R352). -/

namespace Sys2Proof.Machine

/-- The redirect of a taken branch or jump: PC at the target, `branchesTaken` up by 1 (R351, R403). -/
def State.redirect (s : State) (target : Word) : State :=
  { s.jumpTo target with stats := { s.stats with branchesTaken := s.stats.branchesTaken + 1 } }

/-- A branch whose condition is `taken`: `pc <- pc + sext_13(offset)` when taken, else `pc <- pc + 4`
(R350, R351). -/
def branchOn (taken : Bool) (offset : BitVec 13) (s : State) : Result :=
  if taken then .next (s.redirect (pcRelative s.pc (sext13 offset))) else .next s.advance

/-- `beq rs1, rs2, offset` (R354), taken when the zero flag of SUB is set (R350). -/
def execBeq (rs1 rs2 : RegIdx) (offset : BitVec 13) (s : State) : Result :=
  branchOn (zeroFlag (alu .sub (s.readReg rs1) (s.readReg rs2))) offset s

/-- `bne rs1, rs2, offset` (R355), taken when the zero flag of SUB is clear (R350). -/
def execBne (rs1 rs2 : RegIdx) (offset : BitVec 13) (s : State) : Result :=
  branchOn (!zeroFlag (alu .sub (s.readReg rs1) (s.readReg rs2))) offset s

/-- `blt rs1, rs2, offset` (R356), taken when the zero flag of SLT is clear (R350). -/
def execBlt (rs1 rs2 : RegIdx) (offset : BitVec 13) (s : State) : Result :=
  branchOn (!zeroFlag (alu .slt (s.readReg rs1) (s.readReg rs2))) offset s

/-- `bge rs1, rs2, offset` (R357), taken when the zero flag of SLT is set (R350). -/
def execBge (rs1 rs2 : RegIdx) (offset : BitVec 13) (s : State) : Result :=
  branchOn (zeroFlag (alu .slt (s.readReg rs1) (s.readReg rs2))) offset s

end Sys2Proof.Machine
end

