-- ==== Sys2Proof/Machine/UpperJump.lean ====
section
/-! DEFINITION. Upper immediates and jumps: the sequential meaning (R14) of R401 to R405. `s.pc` is the
instruction's own address (R13; log entry 7). -/

namespace Sys2Proof.Machine

/-- `lui rd, imm20` (R401): the ALU adds the U-immediate to 0 (R400). -/
def execLui (rd : RegIdx) (imm : BitVec 20) (s : State) : Result :=
  .next (s.writeReg rd (alu .add 0 (upperImm imm))).advance

/-- `auipc rd, imm20` (R402). -/
def execAuipc (rd : RegIdx) (imm : BitVec 20) (s : State) : Result :=
  .next (s.writeReg rd (alu .add s.pc (upperImm imm))).advance

/-- `jal rd, offset` (R404): `t <- pc + sext_21(offset); x[rd] <- pc + 4; pc <- t`, always taken. -/
def execJal (rd : RegIdx) (offset : BitVec 21) (s : State) : Result :=
  .next ((s.writeReg rd (linkValue s.pc)).redirect (pcRelative s.pc (sext21 offset)))

/-- `jalr rd, imm(rs1)` (R405): `t <- (x[rs1] + sext_12(imm)) & ~1; x[rd] <- pc + 4; pc <- t`. The
target uses the old rs1 value. -/
def execJalr (rd rs1 : RegIdx) (imm : BitVec 12) (s : State) : Result :=
  .next ((s.writeReg rd (linkValue s.pc)).redirect
    (jalrTarget (alu .add (s.readReg rs1) (sext12 imm))))

end Sys2Proof.Machine
end

