-- ==== Sys2Proof/Machine/Pipeline.lean ====
section
/-! DEFINITION. One cycle of the CORE (R600 to R626): the five stage functions, the ForwardUnit, the
HazardUnit and the PipelineController. Every function reads only the start-of-cycle state and the
wires of R601; only the commit changes state (R613). -/

namespace Sys2Proof.Machine

/-! ### Writeback (R602) -/

/-- `wbValue` (R602). -/
def MemWb.wbValue (r : MemWb) : Word :=
  match r.ctrl.wbSel with
  | .alu => r.aluResult
  | .mem => r.memData
  | .link => r.link

/-- The record in MEM/WB when it carries no fault: the one whose Writeback acts this cycle (R602). -/
def State.retiring (s : State) : Option MemWb :=
  match s.memwb with
  | .bubble => none
  | .occupied r => if r.fault.isNone then some r else none

/-- The fault of the record in MEM/WB, if any: then this is a faulting cycle (R506, R602). -/
def State.wbFault (s : State) : Option FaultTag :=
  match s.memwb with
  | .bubble => none
  | .occupied r => r.fault

/-- `rfWrite` (R602): none for rd = x0. -/
def State.rfWrite (s : State) : Option (RegIdx × Word) :=
  match s.retiring with
  | none => none
  | some r => if r.ctrl.regWrite && r.rd != 0#5 then some (r.rd, r.wbValue) else none

/-- The host request of the cycle: (x[10], x[11]) from RF as it stands at its start (R602, R450). -/
def State.wbRequest (s : State) : Option HostRequest :=
  match s.retiring with
  | none => none
  | some r => if r.ctrl.trap then some s.requestOf else none

/-- `exit` (R602): an `ecall` retires with x[10] = `EXIT_CODE`. -/
def State.wbExit (s : State) : Bool :=
  match s.retiring with
  | none => false
  | some r => r.ctrl.trap && s.exitRequested

/-- The diagnostic of the cycle (R602, R455). -/
def State.wbDiagnostic (s : State) : Option Diagnostic :=
  match s.retiring with
  | none => none
  | some r => if r.ctrl.invalid then some { pc := r.pc, raw := r.raw } else none

/-! ### The register-file view (R603) -/

/-- `rfView(r)` (R603). -/
def State.rfView (s : State) (r : RegIdx) : Word :=
  if r = 0#5 then 0#32
  else
    match s.cfg.rfWriteFirst, s.rfWrite with
    | true, some (q, v) => if q = r then v else s.readReg r
    | _, _ => s.readReg r

/-! ### The ForwardUnit (R604 to R606) -/

/-- Where an Execute operand comes from (R604). -/
inductive FwdSource where
  | none | exMem | memWb
  deriving DecidableEq, Repr

/-- Whether an EX/MEM record is the producer of register `q` (R604). -/
def ExMem.produces (r : ExMem) (q : RegIdx) : Bool := r.ctrl.regWrite && r.rd != 0#5 && r.rd == q

/-- Whether a MEM/WB record is the producer of register `q` (R604). -/
def MemWb.produces (r : MemWb) (q : RegIdx) : Bool := r.ctrl.regWrite && r.rd != 0#5 && r.rd == q

/-- The value an EX/MEM record forwards (R605). -/
def ExMem.produced (r : ExMem) : Word :=
  match r.ctrl.wbSel with
  | .link => r.link
  | .alu | .mem => r.aluResult

/-- Whether EX/MEM is the producer of register `q`; a Bubble never is. -/
def State.exMemProduces (s : State) (q : RegIdx) : Bool :=
  match s.exmem with
  | .bubble => false
  | .occupied r => r.produces q

/-- Whether MEM/WB is the producer of register `q`; a Bubble never is. -/
def State.memWbProduces (s : State) (q : RegIdx) : Bool :=
  match s.memwb with
  | .bubble => false
  | .occupied r => r.produces q

/-- The ForwardUnit's selection for one operand of the instruction in ID/EX: EX/MEM has priority over
MEM/WB (R604). -/
def State.fwdSource (s : State) (used : Bool) (q : RegIdx) : FwdSource :=
  if !used then .none
  else if s.exMemProduces q then .exMem
  else if s.memWbProduces q then .memWb
  else .none

/-- `fwd(rs_k)`, with `v` the value Decode read (R604). -/
def State.fwd (s : State) (used : Bool) (q : RegIdx) (v : Word) : Word :=
  match s.fwdSource used q with
  | .none => v
  | .exMem =>
    match s.exmem with
    | .bubble => v
    | .occupied r => r.produced
  | .memWb =>
    match s.memwb with
    | .bubble => v
    | .occupied r => r.wbValue

/-- How many of the two operands of ID/EX are selected from `src` (R606). -/
def State.fwdCount (s : State) (src : FwdSource) : Nat :=
  match s.idex with
  | .bubble => 0
  | .occupied r =>
    (if s.fwdSource r.use1 r.rs1 = src then 1 else 0)
      + (if s.fwdSource r.use2 r.rs2 = src then 1 else 0)

/-! ### The HazardUnit (R607) -/

/-- Whether a decoded instruction reads register `q`. The comparison includes x0 (R607, D7). -/
def Decoded.reads (d : Decoded) (q : RegIdx) : Bool := d.source1 == some q || d.source2 == some q

/-- `stall` (R607): a load is in ID/EX and the instruction in IF/ID reads its destination. -/
def State.stall (s : State) : Bool :=
  match s.idex, s.ifid with
  | .occupied r, .occupied f => r.ctrl.memRead && f.dec.reads r.rd
  | _, _ => false

/-! ### Fetch (R608) -/

/-- `fetched` (R608): the word at the PC with its decoding, or the fault record of R503. A PC that has
wrapped to 0 is fetched from like any other: R34 says that this never happens, R83, R608 and R623 let it
happen, and the model follows these (DEDUCED, log entry 26). -/
def State.fetchStage (s : State) : IfId :=
  match s.fetchWord s.pc with
  | some raw => { pc := s.pc, raw := raw, dec := Decoded.ofWord raw, fault := none }
  | none =>
    { pc := s.pc, raw := 0, dec := .faultRecord, fault := some { kind := .fetch, addr := s.pc } }

/-! ### Decode (R609) -/

/-- The ID/EX record of an IF/ID record, with `view` the register-file view (R609). -/
def IfId.decodeWith (f : IfId) (view : RegIdx → Word) : IdEx where
  pc := f.pc
  raw := f.raw
  dec := f.dec
  fault := f.fault
  rd := f.dec.destReg
  rs1 := f.dec.source1.getD 0
  rs2 := f.dec.source2.getD 0
  use1 := f.dec.source1.isSome
  use2 := f.dec.source2.isSome
  v1 := (f.dec.source1.map view).getD 0
  v2 := (f.dec.source2.map view).getD 0
  imm := f.dec.immediate
  ctrl := f.dec.ctrl

/-- `decoded` (R609). -/
def State.decodeStage (s : State) : Latch IdEx :=
  match s.ifid with
  | .bubble => .bubble
  | .occupied f => .occupied (f.decodeWith s.rfView)

/-! ### Execute (R610) -/

/-- `aluResult` of an ID/EX record whose forwarded operands are `a` and `b` (R610). -/
def IdEx.aluResult (r : IdEx) (a b : Word) : Word :=
  alu r.ctrl.aluSel (operandA r.ctrl.aluA a r.pc) (operandB r.ctrl.aluB b r.imm)

/-- `taken` and `target` of an ID/EX record (R610): the target when taken. A branch goes to pc + imm
(R350), `jal` to the ALU result, `jalr` to the ALU result with bit 0 cleared (R406). -/
def IdEx.outcome (r : IdEx) (a b : Word) : Option Word :=
  let res := r.aluResult a b
  match r.dec with
  | .admitted i =>
    if r.ctrl.branch then
      if branchTaken i (zeroFlag res) then some (pcRelative r.pc r.imm) else none
    else if r.ctrl.jump then
      match i with
      | .jalr _ _ _ => some (jalrTarget res)
      | _ => some res
    else none
  | .invalid | .faultRecord => none

/-- The EX/MEM record of an ID/EX record whose forwarded operands are `a` and `b` (R610). -/
def IdEx.executeWith (r : IdEx) (a b : Word) : ExMem where
  pc := r.pc
  raw := r.raw
  dec := r.dec
  fault := r.fault
  rd := r.rd
  ctrl := r.ctrl
  aluResult := r.aluResult a b
  storeData := if r.use2 then b else 0
  link := linkValue r.pc

/-- The forwarded rs1 operand of an ID/EX record (R604). -/
def State.fwd1 (s : State) (r : IdEx) : Word := s.fwd r.use1 r.rs1 r.v1

/-- The forwarded rs2 operand of an ID/EX record (R604). -/
def State.fwd2 (s : State) (r : IdEx) : Word := s.fwd r.use2 r.rs2 r.v2

/-- `executed` (R610). -/
def State.executeStage (s : State) : Latch ExMem :=
  match s.idex with
  | .bubble => .bubble
  | .occupied r => .occupied (r.executeWith (s.fwd1 r) (s.fwd2 r))

/-- `taken` and `target`, as the target when taken (R610, R611). -/
def State.takenTarget (s : State) : Option Word :=
  match s.idex with
  | .bubble => none
  | .occupied r => r.outcome (s.fwd1 r) (s.fwd2 r)

/-! ### Memory (R612) -/

/-- `memWrite = (addr, n, v)` (R612). -/
structure StoreRequest where
  addr : Word
  bytes : Nat
  value : Word
  deriving DecidableEq, Repr

/-- What the Memory stage returns: its next latch record and its requests (R612, R613). -/
structure MemoryOutput where
  out : MemWb
  write : Option StoreRequest
  access : Option Word
  deriving DecidableEq, Repr

/-- The MEM/WB record of an EX/MEM record that makes no access (R612). -/
def ExMem.passOn (r : ExMem) : MemWb where
  pc := r.pc
  raw := r.raw
  dec := r.dec
  fault := r.fault
  rd := r.rd
  ctrl := r.ctrl
  aluResult := r.aluResult
  memData := 0
  link := r.link

/-- The MEM/WB record of a load or store that failed its range check (R502, R612). -/
def ExMem.faulted (r : ExMem) : MemWb :=
  { r.passOn with
    fault := some { kind := .data, addr := r.aluResult }
    ctrl := { r.ctrl with regWrite := false } }

/-- The cache access a load or store at `addr` requests: one when `CACHE_ENABLED` (R113, R612). -/
def State.accessFor (s : State) (addr : Word) : Option Word :=
  if s.cfg.cacheEnabled then some addr else none

/-- The MEM/WB record of a load that reads `raw` (R301, R612). -/
def ExMem.loaded (r : ExMem) (raw : Word) : MemWb :=
  { r.passOn with memData := extendLoaded r.ctrl.width raw }

/-- The write a store requests (R612). -/
def ExMem.storeRequest (r : ExMem) : StoreRequest :=
  { addr := r.aluResult, bytes := r.ctrl.width.bytes, value := r.storeData }

/-- The Memory stage on an EX/MEM record, reading start-of-cycle MEM (R612). -/
def State.memoryOf (s : State) (r : ExMem) : MemoryOutput :=
  if r.fault.isSome then { out := r.passOn, write := none, access := none }
  else if r.ctrl.memRead || r.ctrl.memWrite then
    match s.memRead r.aluResult r.ctrl.width.bytes with
    | none => { out := r.faulted, write := none, access := none }
    | some raw =>
      if r.ctrl.memRead then
        { out := r.loaded raw, write := none, access := s.accessFor r.aluResult }
      else
        { out := r.passOn, write := some r.storeRequest, access := s.accessFor r.aluResult }
  else { out := r.passOn, write := none, access := none }

/-- `memOut` (R612). -/
def State.memOut (s : State) : Latch MemWb :=
  match s.exmem with
  | .bubble => .bubble
  | .occupied r => .occupied (s.memoryOf r).out

/-- `memWrite` (R612). -/
def State.storeRequest (s : State) : Option StoreRequest :=
  match s.exmem with
  | .bubble => none
  | .occupied r => (s.memoryOf r).write

/-- `cacheAccess` (R612). -/
def State.accessRequest (s : State) : Option Word :=
  match s.exmem with
  | .bubble => none
  | .occupied r => (s.memoryOf r).access

/-! ### The PipelineController (R620 to R625) -/

/-- What the controller does in a cycle, in the priority of R625. -/
inductive Decision where
  /-- a faulting cycle (R506) -/
  | fault (tag : FaultTag)
  /-- a taken branch or jump is in Execute (R620) -/
  | redirect (target : Word)
  /-- the front of the pipeline holds (R622) -/
  | stall
  /-- every latch advances (R623) -/
  | advance
  deriving DecidableEq, Repr

/-- The controller's choice (R625). -/
def State.decision (s : State) : Decision :=
  match s.wbFault with
  | some tag => .fault tag
  | none =>
    match s.takenTarget with
    | some target => .redirect target
    | none => if s.stall then .stall else .advance

/-- PC' (R34, R620, R622, R623). PC + 4 wraps past 0xFFFFFFFC to 0 and the run goes on there, also
behind a fault record that is still on its way to Writeback (DEDUCED, log entry 26). -/
def State.nextPc (s : State) : Word :=
  match s.decision with
  | .fault _ => s.pc
  | .redirect target => target
  | .stall => s.pc
  | .advance => s.pc + 4

/-- next(IF/ID) (R620 to R623). -/
def State.nextIfid (s : State) : Latch IfId :=
  match s.decision with
  | .fault _ => s.ifid
  | .redirect _ => .bubble
  | .stall => s.ifid
  | .advance => .occupied s.fetchStage

/-- next(ID/EX) (R620 to R623). -/
def State.nextIdex (s : State) : Latch IdEx :=
  match s.decision with
  | .fault _ => s.idex
  | .redirect _ => .bubble
  | .stall => .bubble
  | .advance => s.decodeStage

/-! ### The commit (R624, R626) -/

/-- RF[r] <- v for a register write (R624). -/
def State.applyRfWrite (s : State) : Option (RegIdx × Word) → State
  | none => s
  | some (r, v) => s.writeReg r v

/-- `MemWrite(addr, n, v)` of a store whose range check passed (R624). -/
def State.applyStore (s : State) : Option StoreRequest → State
  | none => s
  | some w => { s with mem := s.mem.writeLE w.addr.toNat w.bytes w.value }

/-- `access(addr)` with its counters and its Result (R624). -/
def State.applyAccess (s : State) : Option Word → State
  | none => s
  | some a => s.accessCache a

/-- The host-request output of the cycle. -/
def State.applyRequest (s : State) : Option HostRequest → State
  | none => s
  | some q => s.emitRequest q

/-- The diagnostic output of the cycle. -/
def State.applyDiagnostic (s : State) : Option Diagnostic → State
  | none => s
  | some d => s.emitDiagnostic d

/-- The pipeline counters after a committed cycle that began in `s` (R606, R626). -/
def State.countCycle (s : State) (st : Stats) : Stats :=
  { st with
    cycles := st.cycles + 1
    stalls := st.stalls + (if s.decision = .stall then 1 else 0)
    branchesTaken := st.branchesTaken + (if s.takenTarget.isSome then 1 else 0)
    fwdFromExMem := st.fwdFromExMem + s.fwdCount .exMem
    fwdFromMemWb := st.fwdFromMemWb + s.fwdCount .memWb }

/-- The commit of a cycle that is not a faulting cycle (R624): every new value, computed from the
start-of-cycle state, at once; the exit last. -/
def State.commit (s : State) : State :=
  let t := ((((s.applyRfWrite s.rfWrite).applyStore s.storeRequest).applyAccess
    s.accessRequest).applyRequest s.wbRequest).applyDiagnostic s.wbDiagnostic
  { t with
    pc := s.nextPc
    ifid := s.nextIfid
    idex := s.nextIdex
    exmem := s.executeStage
    memwb := s.memOut
    stats := s.countCycle t.stats
    run := if s.wbExit then .exited else s.run }

/-- The state a cycle leaves: a faulting cycle commits nothing except RUN (R506, R624). -/
def State.afterCycle (s : State) : State :=
  match s.wbFault with
  | some tag => s.raiseFault tag.kind tag.addr
  | none => s.commit

/-- One cycle (R600): only under a legal configuration (R9), and only while RUN is `Running` (R56). -/
def cycle (s : State) : Result :=
  if s.cfg.legal then
    match s.run with
    | .running => .next s.afterCycle
    | .exited | .faulted _ _ => .fault .runEnded
  else .refused .illegalConfiguration

/-- `n` cycles, stopping at the first fault or refusal. -/
def cycles : Nat → State → Result
  | 0, s => .next s
  | n + 1, s =>
    match cycle s with
    | .next t => cycles n t
    | .fault f => .fault f
    | .refused r => .refused r

/-- Cycles up to and including the one that starts with a record in MEM/WB, the cycle in which that
record retires or its fault ends the run; at most `fuel` cycles before it. -/
def runToRetirement : Nat → State → Result
  | 0, s => cycle s
  | fuel + 1, s =>
    if s.memwb.isOccupied then cycle s
    else
      match cycle s with
      | .next t => runToRetirement fuel t
      | .fault f => .fault f
      | .refused r => .refused r

/-- The cycles an instruction takes from its fetch to MEM/WB (R631). -/
def pipelineFill : Nat := 4

end Sys2Proof.Machine
end

