-- ==== Sys2Proof/Machine/Sequential.lean ====
section
/-! DEFINITION. The sequential machine (R14): one instruction at a time, in program order, at `s.pc`,
by the instruction's sequential meaning `exec`. The pipeline is measured against it (R640); the
latches play no part here. -/

namespace Sys2Proof.Machine

/-- The next instruction in program order: its meaning (R14), the no-op with diagnostic of an
`INVALID` word (R455), or the fetch fault (R503). -/
def State.execNext (s : State) : Result :=
  match s.fetchWord s.pc with
  | none => .next (s.raiseFault .fetch s.pc)
  | some raw =>
    match decode raw with
    | some i => exec i s
    | none => execInvalid raw s

/-- One sequential step, under the guards of `cycle` (R9, R56). -/
def seqStep (s : State) : Result :=
  if s.cfg.legal then
    match s.run with
    | .running => s.execNext
    | .exited | .faulted _ _ => .fault .runEnded
  else .refused .illegalConfiguration

end Sys2Proof.Machine
end

