-- ==== Sys2Proof/Machine/Step.lean ====
section
/-! DEFINITION. The step of the CORE and the placing of an instruction at the fetch address. -/

namespace Sys2Proof.Machine

/-- One step: the cycles of the PipelineController (`cycle`, R600) up to and including the one in which
the next instruction retires or its fault ends the run. DESIGN CHOICE, safe (log entry 5): every
committed cycle of a run is taken by exactly one step, so nothing a run does is skipped; `cycle` is
the machine at the grain of R15. -/
def step (s : State) : Host.Outcome State Fault Refusal := runToRetirement pipelineFill s

/-- `s` with the instruction word `w` (its bits above `nbits` zero) stored where Fetch reads next, the
latches drained to bubbles and RUN at `Running`, so that the very next step runs exactly it (log
entries 6 and 23). A PC from which nothing can be fetched is set to 0. -/
def State.withFetchWord (s : State) (nbits w : Nat) : State :=
  let pc := if s.inRange s.pc 4 then s.pc else 0#32
  { s with
    pc := pc
    mem := s.mem.writeLE pc.toNat 4 (BitVec.ofNat 32 (w % 2 ^ nbits))
    ifid := .bubble
    idex := .bubble
    exmem := .bubble
    memwb := .bubble
    run := .running }

end Sys2Proof.Machine
end

