-- ==== Sys2Proof/Safety.lean ====
section
/-! DEFINITION. What counts as a safe run: no fault, no diagnostic, and none of the hazards that
software must avoid (R641, R457). -/

namespace Sys2Proof.Machine

/-- The run has not ended in a fault (R56). -/
def State.noFault (s : State) : Bool :=
  match s.run with
  | .running | .exited => true
  | .faulted _ _ => false

/-- No invalid instruction has retired (R457, U1: a run that emits a diagnostic executes a word whose
meaning the spec gives by decision only). -/
def State.noDiagnostic (s : State) : Bool := s.diagnostics.isEmpty

/-- A state of a safe run so far. -/
def State.safe (s : State) : Bool := s.noFault && s.noDiagnostic

/-- Whether a store touches one of the four bytes of the instruction word at `pc` (R94). -/
def StoreRequest.touches (w : StoreRequest) (pc : Word) : Bool :=
  decide (w.addr.toNat < pc.toNat + 4) && decide (pc.toNat < w.addr.toNat + w.bytes)

/-- The addresses of the instructions younger than the one in EX/MEM whose words have been fetched by
the end of this cycle and that are not discarded in it: the instruction in ID/EX, and those the
controller puts into ID/EX and IF/ID. -/
def State.fetchedPcs (s : State) : List Word :=
  (match s.idex with | .bubble => [] | .occupied r => [r.pc])
    ++ (match s.nextIdex with | .bubble => [] | .occupied r => [r.pc])
    ++ (match s.nextIfid with | .bubble => [] | .occupied f => [f.pc])

/-- Hazard H2 (R94, R641) does not occur in this cycle: a store performed now writes no instruction
word that has already been fetched by an instruction that will execute. -/
def State.storeHazardFree (s : State) : Bool :=
  match s.storeRequest with
  | none => true
  | some w => s.fetchedPcs.all fun pc => !w.touches pc

/-- Hazard H1 (R641) does not occur in this cycle: Decode sees the write of this cycle, or the
instruction it hands on does not read the register written (by the instruction three before it). -/
def State.rfHazardFree (s : State) : Bool :=
  s.cfg.rfWriteFirst
    || (match s.rfWrite, s.nextIdex with
        | some (q, _), .occupied r => !r.dec.reads q
        | _, _ => true)

/-- Hazard H3 (R641) does not occur in this cycle: no exit, or an exit in whose cycle nothing younger
stores, accesses the cache, is a taken branch or jump, forwards, or stalls (R453). H3 as printed names only
a store for the instruction in Memory; `accessRequest.isNone` also excludes a load with the cache enabled,
whose access R453 commits (DEDUCED, log entry 27). It is about the exit cycle alone: what younger
instructions count in the cycle before it is not excluded (log entry 27). -/
def State.exitHazardFree (s : State) : Bool :=
  !s.wbExit
    || (s.storeRequest.isNone && s.accessRequest.isNone && s.takenTarget.isNone && !s.stall
        && s.fwdCount .exMem == 0 && s.fwdCount .memWb == 0)

end Sys2Proof.Machine
end

