-- ==== Sys2Proof/Machine/Refinement.lean ====
section
/-! DEFINITION. How a pipeline state is read as a state of the sequential machine (R640): the
instruction in MEM/WB has done its work, every younger one has done none. -/

namespace Sys2Proof.Machine

/-- RUN once the record in MEM/WB has taken effect (R505). -/
def State.pendingRun (s : State) : Run :=
  match s.wbFault with
  | some tag => .faulted tag.kind tag.addr
  | none => if s.wbExit then .exited else s.run

/-- The address of the oldest instruction that has not yet passed the Memory stage. -/
def State.oldestPc (s : State) : Word :=
  match s.exmem, s.idex, s.ifid with
  | .occupied r, _, _ => r.pc
  | .bubble, .occupied r, _ => r.pc
  | .bubble, .bubble, .occupied f => f.pc
  | .bubble, .bubble, .bubble => s.pc

/-- The sequential state a pipeline state stands for, at the boundary between MEM/WB and EX/MEM: RF,
the outputs and RUN as the instruction in MEM/WB leaves them, MEM and the cache as they are (their
accesses are made in the Memory stage), and the pc of the next instruction in program order. -/
def State.archView (s : State) : State :=
  { ((s.applyRfWrite s.rfWrite).applyRequest s.wbRequest).applyDiagnostic s.wbDiagnostic with
    pc := s.oldestPc
    ifid := .bubble
    idex := .bubble
    exmem := .bubble
    memwb := .bubble
    run := s.pendingRun }

/-- Two states agree in everything sequential execution determines: the configuration, RF, MEM, the
cache with its counters, RUN and the outputs, and the pc while the run goes on (R640). The pipeline
counters `cycles`, `stalls`, `branchesTaken` and the forwarding counts are timing. -/
structure ArchEq (u v : State) : Prop where
  cfg : u.cfg = v.cfg
  rf : u.rf = v.rf
  mem : u.mem = v.mem
  cache : u.cache = v.cache
  hits : u.stats.hits = v.stats.hits
  misses : u.stats.misses = v.stats.misses
  evictions : u.stats.evictions = v.stats.evictions
  run : u.run = v.run
  hostRequests : u.hostRequests = v.hostRequests
  diagnostics : u.diagnostics = v.diagnostics
  cacheResults : u.cacheResults = v.cacheResults
  pc : u.run = .running → u.pc = v.pc

/-- What Fetch would read at `pc` now. -/
def State.fetchAt (s : State) (pc : Word) : IfId := (s.jumpTo pc).fetchStage

/-- The ID/EX record of the instruction fetched as `f`, with the operand values of `u`. -/
def IfId.readBy (f : IfId) (u : State) : IdEx := f.decodeWith u.readReg

/-- Its EX/MEM record, executed with those operands. -/
def IfId.executedBy (f : IfId) (u : State) : ExMem :=
  (f.readBy u).executeWith (f.readBy u).v1 (f.readBy u).v2

/-- What a record does when it passes the four stages after Fetch alone, with no other instruction in
the pipeline (R14, R602, R609, R610, R612): the operands of `u`, the accesses of the Memory stage,
and Writeback's register write, request, exit and diagnostic, with the pc at the target when taken
and at pc + 4 otherwise; or the fault it carries when it retires, which leaves all else alone. -/
def IfId.stagedAlone (f : IfId) (u : State) : State :=
  let q := f.readBy u
  let m := u.memoryOf (f.executedBy u)
  match m.out.fault with
  | some tag => u.raiseFault tag.kind tag.addr
  | none =>
    let target := q.outcome q.v1 q.v2
    let exits := m.out.ctrl.trap && u.exitRequested
    let t := (u.applyStore m.write).applyAccess m.access
    let t := if m.out.ctrl.regWrite then t.writeReg m.out.rd m.out.wbValue else t
    let t := if m.out.ctrl.trap then t.emitRequest u.requestOf else t
    let t := if m.out.ctrl.invalid then t.emitDiagnostic { pc := m.out.pc, raw := m.out.raw } else t
    { t with
      pc := if exits then u.pc else target.getD (u.pc + 4)
      stats :=
        { t.stats with branchesTaken := t.stats.branchesTaken + (if target.isSome then 1 else 0) }
      run := if exits then .exited else u.run }

/-- The fetched record an EX/MEM record comes from. -/
def ExMem.fetched (r : ExMem) : IfId := { pc := r.pc, raw := r.raw, dec := r.dec, fault := r.fault }

/-- The fetched record an ID/EX record comes from. -/
def IdEx.fetched (r : IdEx) : IfId := { pc := r.pc, raw := r.raw, dec := r.dec, fault := r.fault }

/-- The sequential state after the instruction in EX/MEM. -/
def State.viewAfterExMem (s : State) : State :=
  match s.exmem with
  | .bubble => s.archView
  | .occupied r => r.fetched.stagedAlone s.archView

/-- The sequential state after the instruction in ID/EX. -/
def State.viewAfterIdEx (s : State) : State :=
  match s.idex with
  | .bubble => s.viewAfterExMem
  | .occupied q => q.fetched.stagedAlone s.viewAfterExMem

/-- The latches are those of the sequential run: each record holds the instruction program order puts
there, as fetched from memory as it stands, with the operand values that the instructions before it
leave, where forwarding counts as having the value. Nothing is asked of the instructions behind one
that ends the run or behind a taken branch or jump, which are flushed. -/
structure State.Coherent (s : State) : Prop where
  exmem_record : s.archView.run = .running →
    ∀ r, s.exmem = .occupied r → r = (s.fetchAt s.archView.pc).executedBy s.archView
  idex_record : s.archView.run = .running → s.viewAfterExMem.run = .running →
    ∀ q, s.idex = .occupied q →
      { q with v1 := s.fwd1 q, v2 := s.fwd2 q }
        = (s.fetchAt s.viewAfterExMem.pc).readBy s.viewAfterExMem
  ifid_record : s.archView.run = .running → s.viewAfterExMem.run = .running →
    s.viewAfterIdEx.run = .running → s.takenTarget = none →
    ∀ f, s.ifid = .occupied f → f = s.fetchAt s.viewAfterIdEx.pc ∧ s.pc = f.pc + 4
  fetch_pc : s.archView.run = .running → s.viewAfterExMem.run = .running →
    s.viewAfterIdEx.run = .running → s.takenTarget = none →
    s.ifid = .bubble → s.pc = s.viewAfterIdEx.pc

end Sys2Proof.Machine
end

