-- ==== Sys2Proof/Machine/Frame.lean ====
section
/-! DEFINITION. The words statements are written in: what an instruction's sequential meaning changes
and what it leaves alone, and a state with its cache taken away. -/

namespace Sys2Proof.Machine

/-- `t` is `s` with x[rd] = v: x0 reads 0, every other register reads as before (R30, R32). -/
def RegWritten (rd : RegIdx) (v : Word) (s t : State) : Prop :=
  ∀ r, t.readReg r = if r = 0#5 then 0#32 else if r = rd then v else s.readReg r

/-- Every register reads as before. -/
def RegsKept (s t : State) : Prop := ∀ r, t.readReg r = s.readReg r

/-- Every byte of memory reads as before. -/
def MemKept (s t : State) : Prop := ∀ a, t.mem.readByte a = s.mem.readByte a

/-- Every byte outside `a..a+n-1` reads as before. -/
def MemKeptOutside (a n : Nat) (s t : State) : Prop :=
  ∀ x, x < a ∨ a + n ≤ x → t.mem.readByte x = s.mem.readByte x

/-- No cache access: the cache, its counters and its results are as before. -/
structure CacheKept (s t : State) : Prop where
  cache : t.cache = s.cache
  hits : t.stats.hits = s.stats.hits
  misses : t.stats.misses = s.stats.misses
  evictions : t.stats.evictions = s.stats.evictions
  cacheResults : t.cacheResults = s.cacheResults

/-- Whether a chunk of a launch input covers an address. -/
def chunkCovers (chunk : Nat × List Byte) (a : Nat) : Bool :=
  decide (chunk.1 ≤ a) && decide (a < chunk.1 + chunk.2.length)

/-- One `access(addr)` when the cache is enabled, none otherwise (R113). -/
structure CacheAccessed (addr : Word) (s t : State) : Prop where
  disabled : s.cfg.cacheEnabled = false → CacheKept s t
  cache : s.cfg.cacheEnabled = true → t.cache = (cacheAccess s.cfg s.cache addr).1
  cacheResults : s.cfg.cacheEnabled = true →
    t.cacheResults = s.cacheResults ++ [(cacheAccess s.cfg s.cache addr).2]
  accesses : s.cfg.cacheEnabled = true →
    t.stats.hits + t.stats.misses = s.stats.hits + s.stats.misses + 1

/-- No host request and no diagnostic. -/
structure OutputsKept (s t : State) : Prop where
  hostRequests : t.hostRequests = s.hostRequests
  diagnostics : t.diagnostics = s.diagnostics

/-- What no sequential meaning touches: the configuration, the latches and the timing counters. -/
structure BackgroundKept (s t : State) : Prop where
  cfg : t.cfg = s.cfg
  ifid : t.ifid = s.ifid
  idex : t.idex = s.idex
  exmem : t.exmem = s.exmem
  memwb : t.memwb = s.memwb
  cycles : t.stats.cycles = s.stats.cycles
  stalls : t.stats.stalls = s.stats.stalls
  fwdFromExMem : t.stats.fwdFromExMem = s.stats.fwdFromExMem
  fwdFromMemWb : t.stats.fwdFromMemWb = s.stats.fwdFromMemWb

/-- `t` is `s` with x[rd] = v, nothing else changed but the pc. -/
structure OnlyRegister (rd : RegIdx) (v : Word) (s t : State) : Prop where
  regs : RegWritten rd v s t
  mem : MemKept s t
  cache : CacheKept s t
  branchesTaken : t.stats.branchesTaken = s.stats.branchesTaken
  run : t.run = s.run
  outputs : OutputsKept s t
  background : BackgroundKept s t

/-- `t` is `s` with x[rd] = v and one more taken branch or jump, nothing else changed but the pc. -/
structure OnlyLink (rd : RegIdx) (v : Word) (s t : State) : Prop where
  regs : RegWritten rd v s t
  mem : MemKept s t
  cache : CacheKept s t
  branchesTaken : t.stats.branchesTaken = s.stats.branchesTaken + 1
  run : t.run = s.run
  outputs : OutputsKept s t
  background : BackgroundKept s t

/-- `t` is `s` after a branch: the pc apart, only `branchesTaken` may change. -/
structure OnlyBranch (taken : Bool) (s t : State) : Prop where
  regs : RegsKept s t
  mem : MemKept s t
  cache : CacheKept s t
  branchesTaken : t.stats.branchesTaken = s.stats.branchesTaken + taken.toNat
  run : t.run = s.run
  outputs : OutputsKept s t
  background : BackgroundKept s t

/-- `t` is `s` after a load of `v` from `addr`, the pc apart. -/
structure OnlyLoad (rd : RegIdx) (v addr : Word) (s t : State) : Prop where
  regs : RegWritten rd v s t
  mem : MemKept s t
  cache : CacheAccessed addr s t
  branchesTaken : t.stats.branchesTaken = s.stats.branchesTaken
  run : t.run = s.run
  outputs : OutputsKept s t
  background : BackgroundKept s t

/-- `t` is `s` after a store of `n` bytes at `addr`, the stored bytes and the pc apart. -/
structure OnlyStore (n : Nat) (addr : Word) (s t : State) : Prop where
  regs : RegsKept s t
  mem : MemKeptOutside addr.toNat n s t
  cache : CacheAccessed addr s t
  branchesTaken : t.stats.branchesTaken = s.stats.branchesTaken
  run : t.run = s.run
  outputs : OutputsKept s t
  background : BackgroundKept s t

/-- `t` is `s` after an `ecall`: the request is emitted; pc and RUN apart, nothing else changes. -/
structure OnlyRequest (s t : State) : Prop where
  regs : RegsKept s t
  mem : MemKept s t
  cache : CacheKept s t
  branchesTaken : t.stats.branchesTaken = s.stats.branchesTaken
  hostRequests : t.hostRequests = s.hostRequests ++ [⟨s.readReg 10#5, s.readReg 11#5⟩]
  diagnostics : t.diagnostics = s.diagnostics
  background : BackgroundKept s t

/-- The state with its cache taken away: disabled, empty and never accessed. -/
def State.withoutCache (s : State) : State :=
  { s with
    cfg := { s.cfg with cacheEnabled := false }
    cache := []
    stats := { s.stats with hits := 0, misses := 0, evictions := 0 }
    cacheResults := [] }

/-- How many of the first `n` cycles from `s` begin with a record in MEM/WB that retires: an
instruction without a fault (R505). -/
def retiredIn : Nat → State → Nat
  | 0, _ => 0
  | n + 1, s =>
    s.retiring.isSome.toNat
      + (match cycle s with
        | .next t => retiredIn n t
        | .fault _ => 0
        | .refused _ => 0)

end Sys2Proof.Machine
end

