-- ==== Sys2Proof/Machine/Invariant.lean ====
section
/-! DEFINITION. What every reachable state satisfies: the canonical memory, x0, the cache invariants of
R110, the consistency of the latches with what Fetch and Decode put into them (R38 to R42), and the
bounds the counters keep (R112, R520). -/

namespace Sys2Proof.Machine

/-- The memory has its canonical form and lists only bytes that exist (R80). -/
def State.MemoryOk (s : State) : Prop :=
  s.mem.wf = true ∧ ∀ cell ∈ s.mem, cell.1 < s.cfg.memSize

/-- The storage behind x0 holds 0, so equal register files are equal data (R30). -/
def State.RegsOk (s : State) : Prop := s.rf[0] = 0#32

/-- The block address of the block with a tag in a set (R110). -/
def blockOf (c : Config) (tag index : Nat) : Word :=
  BitVec.ofNat 32 ((tag <<< (c.setIndexBits + c.blockOffsetBits)) ||| (index <<< c.blockOffsetBits))

/-- What R51, R52 and R110 say of a valid line of set `index` whose clock is `clock`. -/
structure Line.Ok (c : Config) (index clock : Nat) (l : Line) : Prop where
  tag_lt : l.tag < 2 ^ (32 - c.setIndexBits - c.blockOffsetBits)
  block_eq : l.block = blockOf c l.tag index
  recency_le : l.recency ≤ clock
  freq_pos : 1 ≤ l.freq
  freq_lru : c.policy = .lru → l.freq = 1

/-- What R50 and R110 say of the set at `index`. -/
structure CacheSet.Ok (c : Config) (index : Nat) (set : CacheSet) : Prop where
  ways : set.lines.length = c.linesPerSet
  line_ok : ∀ l ∈ set.lines, l.valid = true → l.Ok c index set.clock
  tags_distinct : set.lines.Pairwise fun l m => l.valid = true → m.valid = true → l.tag ≠ m.tag
  recency_distinct :
    set.lines.Pairwise fun l m => l.valid = true → m.valid = true → l.recency ≠ m.recency

/-- The cache invariants (R50, R110): 2^s sets, each in order, and the set clocks together count the
accesses, which the hit and miss counters count as well (R112). -/
structure State.CacheOk (s : State) : Prop where
  sets : s.cache.length = 2 ^ s.cfg.setIndexBits
  set_ok : ∀ (i : Nat) (set : CacheSet), s.cache[i]? = some set → set.Ok s.cfg i
  clocks : (s.cache.map CacheSet.clock).sum = s.stats.hits + s.stats.misses

/-- What Fetch puts into a record (R38, R503, R608): a decoded word without a fault, or the record of
a failed fetch. -/
def FetchedOk (pc raw : Word) (dec : Decoded) (fault : Option FaultTag) : Prop :=
  (fault = none ∧ dec = Decoded.ofWord raw)
    ∨ (fault = some { kind := .fetch, addr := pc } ∧ raw = 0#32 ∧ dec = .faultRecord)

/-- R38. -/
def IfId.Ok (f : IfId) : Prop := FetchedOk f.pc f.raw f.dec f.fault

/-- R39, R609: every field but the operand values is fixed by `dec`; an unused value is 0. -/
structure IdEx.Ok (r : IdEx) : Prop where
  fetched : FetchedOk r.pc r.raw r.dec r.fault
  rd_eq : r.rd = r.dec.destReg
  rs1_eq : r.rs1 = r.dec.source1.getD 0
  rs2_eq : r.rs2 = r.dec.source2.getD 0
  use1_eq : r.use1 = r.dec.source1.isSome
  use2_eq : r.use2 = r.dec.source2.isSome
  v1_unused : r.use1 = false → r.v1 = 0#32
  v2_unused : r.use2 = false → r.v2 = 0#32
  imm_eq : r.imm = r.dec.immediate
  ctrl_eq : r.ctrl = r.dec.ctrl

/-- R40. -/
structure ExMem.Ok (r : ExMem) : Prop where
  fetched : FetchedOk r.pc r.raw r.dec r.fault
  rd_eq : r.rd = r.dec.destReg
  ctrl_eq : r.ctrl = r.dec.ctrl
  link_eq : r.link = linkValue r.pc

/-- R42: as EX/MEM, or a load or store that failed its range check, with `regWrite` cleared (R502). -/
structure MemWb.Ok (r : MemWb) : Prop where
  rd_eq : r.rd = r.dec.destReg
  link_eq : r.link = linkValue r.pc
  kept_or_failed :
    (FetchedOk r.pc r.raw r.dec r.fault ∧ r.ctrl = r.dec.ctrl)
      ∨ (r.fault = some { kind := .data, addr := r.aluResult }
          ∧ r.dec = Decoded.ofWord r.raw
          ∧ (r.dec.ctrl.memRead = true ∨ r.dec.ctrl.memWrite = true)
          ∧ r.ctrl = { r.dec.ctrl with regWrite := false })

/-- The latches hold what the stages before them produce; an instruction in ID/EX always has a younger
one in IF/ID; and no load in EX/MEM has its consumer in ID/EX, which is what the stall is for
(R605, R607). -/
structure State.LatchesOk (s : State) : Prop where
  ifid_ok : ∀ f, s.ifid = .occupied f → f.Ok
  idex_ok : ∀ r, s.idex = .occupied r → r.Ok
  exmem_ok : ∀ r, s.exmem = .occupied r → r.Ok
  memwb_ok : ∀ r, s.memwb = .occupied r → r.Ok
  younger : s.idex.isOccupied = true → s.ifid.isOccupied = true
  no_load_use :
    ∀ r q, s.exmem = .occupied r → s.idex = .occupied q → r.ctrl.memRead = true →
      q.dec.reads r.rd = false

/-- The bounds on the counters (R112, R520, R606). -/
structure State.CountersOk (s : State) : Prop where
  stalls_taken_le : s.stats.stalls + s.stats.branchesTaken ≤ s.stats.cycles
  forwards_le : s.stats.fwdFromExMem + s.stats.fwdFromMemWb ≤ 2 * s.stats.cycles
  accesses_le : s.stats.hits + s.stats.misses ≤ s.stats.cycles
  evictions_le : s.stats.evictions ≤ s.stats.misses
  results : s.cacheResults.length = s.stats.hits + s.stats.misses

/-- The invariant of the CORE. -/
structure State.Inv (s : State) : Prop where
  legal : s.cfg.legal = true
  memory : s.MemoryOk
  regs : s.RegsOk
  cache : s.CacheOk
  latches : s.LatchesOk
  counters : s.CountersOk

/-- The PC and the address of the instruction in every latch are even (R85: branch and jump targets are
multiples of 2). -/
structure State.PcsEven (s : State) : Prop where
  pc_even : s.pc.getLsbD 0 = false
  ifid_even : ∀ f, s.ifid = .occupied f → f.pc.getLsbD 0 = false
  idex_even : ∀ r, s.idex = .occupied r → r.pc.getLsbD 0 = false
  exmem_even : ∀ r, s.exmem = .occupied r → r.pc.getLsbD 0 = false
  memwb_even : ∀ r, s.memwb = .occupied r → r.pc.getLsbD 0 = false

/-- How many instructions are in the latches. -/
def State.inFlight (s : State) : Nat :=
  s.ifid.isOccupied.toNat + s.idex.isOccupied.toNat + s.exmem.isOccupied.toNat
    + s.memwb.isOccupied.toNat

end Sys2Proof.Machine
end

