-- ==== Sys2Proof/Certificates/Slice0/Obligations.lean ====
section
/-! DEFINITION. The statements about the CORE, for the provers. A statement over every state is a
statement over every configuration as well, since each state carries its own (log entry 1). -/

open Sys2Proof Sys2Proof.Machine

/-! ### The instruction codec (30_encoding.md, R12) -/

/-- Words written out in 40 to 45 of the spec, one or more per family, decode as the spec says; `ebreak`,
`sltu` and the word 0 do not decode. -/
def Obligations.SampleWordsDecode : Prop :=
  decode 0x002081B3#32 = some (.add 3 1 2)
    ∧ decode 0x0220C1B3#32 = some (.div 3 1 2)
    ∧ decode 0xFFF08193#32 = some (.addi 3 1 0xFFF)
    ∧ decode 0x4040D193#32 = some (.srai 3 1 4)
    ∧ decode 0xFFC0A183#32 = some (.lw 3 1 0xFFC)
    ∧ decode 0x0020A423#32 = some (.sw 1 2 8)
    ∧ decode 0xFE2088E3#32 = some (.beq 1 2 0x1FF0)
    ∧ decode 0x123451B7#32 = some (.lui 3 0x12345)
    ∧ decode 0xFF9FF0EF#32 = some (.jal 1 0x1FFFF8)
    ∧ decode 0x004280E7#32 = some (.jalr 1 5 4)
    ∧ decode 0x00000073#32 = some .ecall
    ∧ decode 0x00100073#32 = none
    ∧ decode 0x0020B1B3#32 = none
    ∧ decode 0x00000000#32 = none

/-- Every instruction with well-formed operands is decoded from its own word (R142 to R159). -/
def Obligations.DecodeOfEncode : Prop :=
  ∀ i : Instr, i.wellFormed = true → decode (encode i) = some i

/-- Every admitted word is the encoding of what it decodes to, so no bit of it is dropped (R162). -/
def Obligations.EncodeOfDecode : Prop :=
  ∀ (w : Word) (i : Instr), decode w = some i → i.wellFormed = true ∧ encode i = w

/-- The decoder against the match/mask pairs of spec/opcode_table.json (R160, R162): no word falls under
two rows, and the rows a word falls under are exactly the one of the mnemonic it decodes to. -/
def Obligations.OpcodeTableSelects : Prop :=
  (opcodeTable.Pairwise fun r q => ∀ w : Word, ¬(r.covers w = true ∧ q.covers w = true))
    ∧ ∀ w : Word, (opcodeTable.filter fun r => r.covers w).map TableRow.mnemonic
        = (match decode w with
          | some i => [i.mnemonic]
          | none => [])

/-- The I, S, B and U immediates bit by bit (R150, R152, R153, R154), with `imm` the Word that Decode puts
into ID/EX. -/
def Obligations.ImmediateBits : Prop :=
  ∀ (w : Word) (i : Instr), decode w = some i →
    (opcodeOf w = 0x13#7 ∨ opcodeOf w = 0x03#7 ∨ opcodeOf w = 0x67#7 →
      ∀ k < 32, i.immediate.getLsbD k = if k < 11 then w.getLsbD (20 + k) else w.getLsbD 31)
    ∧ (opcodeOf w = 0x23#7 →
      ∀ k < 32, i.immediate.getLsbD k
        = if k < 5 then w.getLsbD (7 + k) else if k < 11 then w.getLsbD (20 + k) else w.getLsbD 31)
    ∧ (opcodeOf w = 0x63#7 →
      ∀ k < 32, i.immediate.getLsbD k
        = if k = 0 then false
          else if k < 5 then w.getLsbD (7 + k)
          else if k < 11 then w.getLsbD (20 + k)
          else if k = 11 then w.getLsbD 7
          else w.getLsbD 31)
    ∧ (opcodeOf w = 0x37#7 ∨ opcodeOf w = 0x17#7 →
      ∀ k < 32, i.immediate.getLsbD k = if k < 12 then false else w.getLsbD k)

/-- The J immediate bit by bit. Bits 10:1 are word[30:21]: the spec corrects the source here ("It is
corrected here to i[18:9]", R155, 90_conflicts.md C2). -/
def Obligations.JumpImmediateBits : Prop :=
  ∀ (w : Word) (i : Instr), decode w = some i → opcodeOf w = 0x6F#7 →
    ∀ k < 32, i.immediate.getLsbD k
      = if k = 0 then false
        else if k < 11 then w.getLsbD (20 + k)
        else if k = 11 then w.getLsbD 20
        else if k < 20 then w.getLsbD k
        else w.getLsbD 31

/-- Which register fields of a word are operands, by format (R141, R163): a field that is none is 0 or
absent, so it is never compared. `ecall` has no field at all. -/
def Obligations.OperandFields : Prop :=
  ∀ (w : Word) (i : Instr), decode w = some i →
    (opcodeOf w = 0x33#7 → i.destReg = w.extractLsb' 7 5
      ∧ i.source1 = some (w.extractLsb' 15 5) ∧ i.source2 = some (w.extractLsb' 20 5))
    ∧ (opcodeOf w = 0x13#7 ∨ opcodeOf w = 0x03#7 ∨ opcodeOf w = 0x67#7 →
      i.destReg = w.extractLsb' 7 5 ∧ i.source1 = some (w.extractLsb' 15 5) ∧ i.source2 = none)
    ∧ (opcodeOf w = 0x23#7 ∨ opcodeOf w = 0x63#7 → i.destReg = 0#5
      ∧ i.source1 = some (w.extractLsb' 15 5) ∧ i.source2 = some (w.extractLsb' 20 5))
    ∧ (opcodeOf w = 0x37#7 ∨ opcodeOf w = 0x17#7 ∨ opcodeOf w = 0x6F#7 →
      i.destReg = w.extractLsb' 7 5 ∧ i.source1 = none ∧ i.source2 = none)
    ∧ (opcodeOf w = 0x73#7 → i.destReg = 0#5 ∧ i.source1 = none ∧ i.source2 = none)

/-- R12: what `sext_N` and `zext_N` are, bit by bit, and the two laws of `sext_N`. -/
def Obligations.SignExtensionLaws : Prop :=
  ∀ (n : Nat) (v : Word), 1 ≤ n → n ≤ 32 →
    (∀ k < 32, (sextN n v).getLsbD k = if k < n then v.getLsbD k else v.getLsbD (n - 1))
    ∧ (∀ k < 32, (zextN n v).getLsbD k = (decide (k < n) && v.getLsbD k))
    ∧ sextN n (sextN n v) = sextN n v
    ∧ (v.getLsbD (n - 1) = false → (sextN n v).toNat = v.toNat % 2 ^ n)

/-! ### The ALU (40_alu_register.md section 1) -/

/-- R202, R203, R207, R208, on integers and bit by bit. -/
def Obligations.AluAddSubCompareBitwise : Prop :=
  ∀ a b : Word,
    (alu .add a b).toNat = (a.toNat + b.toNat) % 2 ^ 32
    ∧ ((alu .sub a b).toNat : Int) = ((a.toNat : Int) - (b.toNat : Int)) % 2 ^ 32
    ∧ (a.toInt < b.toInt → alu .slt a b = 1#32)
    ∧ (b.toInt ≤ a.toInt → alu .slt a b = 0#32)
    ∧ ∀ k < 32,
      (alu .xor a b).getLsbD k = (a.getLsbD k ^^ b.getLsbD k)
      ∧ (alu .or a b).getLsbD k = (a.getLsbD k || b.getLsbD k)
      ∧ (alu .and a b).getLsbD k = (a.getLsbD k && b.getLsbD k)

/-- R204 to R206, bit by bit: the amount is opB mod 32; `SLL` and `SRL` shift zeros in, `SRA` copies of
the sign bit. -/
def Obligations.AluShifts : Prop :=
  ∀ (a b : Word) (k : Nat), k < 32 →
    (alu .sll a b).getLsbD k
      = (decide (b.toNat % 32 ≤ k) && a.getLsbD (k - b.toNat % 32))
    ∧ (alu .srl a b).getLsbD k
      = (decide (k + b.toNat % 32 < 32) && a.getLsbD (k + b.toNat % 32))
    ∧ (alu .sra a b).getLsbD k
      = if k + b.toNat % 32 < 32 then a.getLsbD (k + b.toNat % 32) else a.getLsbD 31

/-- R209, R210: the low word of the product, the same for unsigned and signed operands, and bits 63:32 of
the exact signed 64-bit product. -/
def Obligations.AluMultiply : Prop :=
  ∀ a b : Word,
    (alu .mul a b).toNat = (a.toNat * b.toNat) % 2 ^ 32
    ∧ alu .mul a b = BitVec.ofInt 32 (a.toInt * b.toInt)
    ∧ (alu .mulh a b).toInt = (a.toInt * b.toInt) / 2 ^ 32
    ∧ alu .mulh a b = (BitVec.ofInt 64 (a.toInt * b.toInt)).extractLsb' 32 32

/-- R211, R212: quotient rounded toward zero and remainder with the dividend's sign, exact as integers; by
zero all ones and the dividend; and dividend = quotient * divisor + remainder for every operand. The
rounding, the remainder's sign and the overflow case are the spec's own decision D22. -/
def Obligations.AluDivide : Prop :=
  ∀ a b : Word,
    (b = 0#32 → alu .div a b = 0xFFFFFFFF#32 ∧ alu .rem a b = a)
    ∧ (a = 0x80000000#32 ∧ b = 0xFFFFFFFF#32 →
      alu .div a b = 0x80000000#32 ∧ alu .rem a b = 0#32)
    ∧ (b ≠ 0#32 → ¬(a = 0x80000000#32 ∧ b = 0xFFFFFFFF#32) →
      (alu .div a b).toInt = a.toInt.tdiv b.toInt ∧ (alu .rem a b).toInt = a.toInt.tmod b.toInt)
    ∧ a = alu .div a b * b + alu .rem a b

/-! ### Result, completion and frame of each instruction (40 to 45) -/

/-- `add`, `sub`, `slt` (R220, R221, R223): in every state they complete with these results, and change
nothing else. -/
def Obligations.RegRegArithmetic : Prop :=
  ∀ (rd rs1 rs2 : RegIdx) (s : State),
    (∃ t, exec (.add rd rs1 rs2) s = .next t ∧ t.pc = s.pc + 4
      ∧ OnlyRegister rd (s.readReg rs1 + s.readReg rs2) s t)
    ∧ (∃ t, exec (.sub rd rs1 rs2) s = .next t ∧ t.pc = s.pc + 4
      ∧ OnlyRegister rd (s.readReg rs1 - s.readReg rs2) s t)
    ∧ (∃ t, exec (.slt rd rs1 rs2) s = .next t ∧ t.pc = s.pc + 4
      ∧ OnlyRegister rd (if (s.readReg rs1).toInt < (s.readReg rs2).toInt then 1 else 0) s t)

/-- `xor`, `or`, `and` (R224, R227, R228). -/
def Obligations.RegRegLogic : Prop :=
  ∀ (rd rs1 rs2 : RegIdx) (s : State),
    (∃ t, exec (.xor rd rs1 rs2) s = .next t ∧ t.pc = s.pc + 4
      ∧ OnlyRegister rd (s.readReg rs1 ^^^ s.readReg rs2) s t)
    ∧ (∃ t, exec (.or rd rs1 rs2) s = .next t ∧ t.pc = s.pc + 4
      ∧ OnlyRegister rd (s.readReg rs1 ||| s.readReg rs2) s t)
    ∧ (∃ t, exec (.and rd rs1 rs2) s = .next t ∧ t.pc = s.pc + 4
      ∧ OnlyRegister rd (s.readReg rs1 &&& s.readReg rs2) s t)

/-- `sll`, `srl`, `sra` (R222, R225, R226): the amount is x[rs2] mod 32. -/
def Obligations.RegRegShifts : Prop :=
  ∀ (rd rs1 rs2 : RegIdx) (s : State),
    (∃ t, exec (.sll rd rs1 rs2) s = .next t ∧ t.pc = s.pc + 4
      ∧ OnlyRegister rd (s.readReg rs1 <<< ((s.readReg rs2).toNat % 32)) s t)
    ∧ (∃ t, exec (.srl rd rs1 rs2) s = .next t ∧ t.pc = s.pc + 4
      ∧ OnlyRegister rd (s.readReg rs1 >>> ((s.readReg rs2).toNat % 32)) s t)
    ∧ (∃ t, exec (.sra rd rs1 rs2) s = .next t ∧ t.pc = s.pc + 4
      ∧ OnlyRegister rd ((s.readReg rs1).sshiftRight ((s.readReg rs2).toNat % 32)) s t)

/-- `mul`, `mulh`, `div`, `rem` (R229 to R232): the results of `AluMultiply` and `AluDivide`. None traps,
whatever the divisor (R504). -/
def Obligations.RegRegMulDiv : Prop :=
  ∀ (rd rs1 rs2 : RegIdx) (s : State),
    (∃ t, exec (.mul rd rs1 rs2) s = .next t ∧ t.pc = s.pc + 4
      ∧ OnlyRegister rd (s.readReg rs1 * s.readReg rs2) s t)
    ∧ (∃ t, exec (.mulh rd rs1 rs2) s = .next t ∧ t.pc = s.pc + 4
      ∧ OnlyRegister rd (alu .mulh (s.readReg rs1) (s.readReg rs2)) s t)
    ∧ (∃ t, exec (.div rd rs1 rs2) s = .next t ∧ t.pc = s.pc + 4
      ∧ OnlyRegister rd (alu .div (s.readReg rs1) (s.readReg rs2)) s t)
    ∧ (∃ t, exec (.rem rd rs1 rs2) s = .next t ∧ t.pc = s.pc + 4
      ∧ OnlyRegister rd (alu .rem (s.readReg rs1) (s.readReg rs2)) s t)

/-- `addi`, `slti`, `xori`, `ori`, `andi` (R252 to R256): the immediate is sign-extended. -/
def Obligations.RegImmArithmetic : Prop :=
  ∀ (rd rs1 : RegIdx) (imm : BitVec 12) (s : State),
    (∃ t, exec (.addi rd rs1 imm) s = .next t ∧ t.pc = s.pc + 4
      ∧ OnlyRegister rd (s.readReg rs1 + imm.signExtend 32) s t)
    ∧ (∃ t, exec (.slti rd rs1 imm) s = .next t ∧ t.pc = s.pc + 4
      ∧ OnlyRegister rd (if (s.readReg rs1).toInt < imm.toInt then 1 else 0) s t)
    ∧ (∃ t, exec (.xori rd rs1 imm) s = .next t ∧ t.pc = s.pc + 4
      ∧ OnlyRegister rd (s.readReg rs1 ^^^ imm.signExtend 32) s t)
    ∧ (∃ t, exec (.ori rd rs1 imm) s = .next t ∧ t.pc = s.pc + 4
      ∧ OnlyRegister rd (s.readReg rs1 ||| imm.signExtend 32) s t)
    ∧ (∃ t, exec (.andi rd rs1 imm) s = .next t ∧ t.pc = s.pc + 4
      ∧ OnlyRegister rd (s.readReg rs1 &&& imm.signExtend 32) s t)

/-- `slli`, `srli`, `srai` (R257 to R259). -/
def Obligations.RegImmShifts : Prop :=
  ∀ (rd rs1 : RegIdx) (shamt : BitVec 5) (s : State),
    (∃ t, exec (.slli rd rs1 shamt) s = .next t ∧ t.pc = s.pc + 4
      ∧ OnlyRegister rd (s.readReg rs1 <<< shamt.toNat) s t)
    ∧ (∃ t, exec (.srli rd rs1 shamt) s = .next t ∧ t.pc = s.pc + 4
      ∧ OnlyRegister rd (s.readReg rs1 >>> shamt.toNat) s t)
    ∧ (∃ t, exec (.srai rd rs1 shamt) s = .next t ∧ t.pc = s.pc + 4
      ∧ OnlyRegister rd ((s.readReg rs1).sshiftRight shamt.toNat) s t)

/-- `lui`, `auipc` (R401, R402): `auipc` adds the instruction's own address. -/
def Obligations.UpperImmediates : Prop :=
  ∀ (rd : RegIdx) (imm : BitVec 20) (s : State),
    (∃ t, exec (.lui rd imm) s = .next t ∧ t.pc = s.pc + 4
      ∧ OnlyRegister rd (imm.setWidth 32 <<< 12) s t)
    ∧ (∃ t, exec (.auipc rd imm) s = .next t ∧ t.pc = s.pc + 4
      ∧ OnlyRegister rd (s.pc + (imm.setWidth 32 <<< 12)) s t)

/-- `jal`, `jalr` (R403 to R406): the link value, the target (of `jalr` with bit 0 cleared, from the old
x[rs1] also when rd = rs1), and one taken jump. Clearing bit 0 and counting jumps are the spec's own
decisions D21 and D24. R403 gives the count to the controller's cycle; that the sequential meaning moves
this counter is the model's choice, log entry 7. -/
def Obligations.JumpAndLink : Prop :=
  ∀ (rd rs1 : RegIdx) (offset : BitVec 21) (imm : BitVec 12) (s : State),
    (∃ t, exec (.jal rd offset) s = .next t ∧ t.pc = s.pc + offset.signExtend 32
      ∧ OnlyLink rd (s.pc + 4) s t)
    ∧ (∃ t, exec (.jalr rd rs1 imm) s = .next t
      ∧ t.pc = ((s.readReg rs1 + imm.signExtend 32) &&& 0xFFFFFFFE#32)
      ∧ t.pc.getLsbD 0 = false ∧ OnlyLink rd (s.pc + 4) s t)

/-- `beq`, `bne`, `blt`, `bge` (R350, R354 to R357), by the comparison each stands for. A branch writes no
register and no memory (R350), and a taken one counts in `branchesTaken` (R351). That the sequential
meaning moves this counter is the model's choice, log entry 7. -/
def Obligations.Branches : Prop :=
  ∀ (rs1 rs2 : RegIdx) (offset : BitVec 13) (s : State),
    (∃ t, exec (.beq rs1 rs2 offset) s = .next t
      ∧ t.pc = (if s.readReg rs1 = s.readReg rs2 then s.pc + offset.signExtend 32 else s.pc + 4)
      ∧ OnlyBranch (decide (s.readReg rs1 = s.readReg rs2)) s t)
    ∧ (∃ t, exec (.bne rs1 rs2 offset) s = .next t
      ∧ t.pc = (if s.readReg rs1 ≠ s.readReg rs2 then s.pc + offset.signExtend 32 else s.pc + 4)
      ∧ OnlyBranch (decide (s.readReg rs1 ≠ s.readReg rs2)) s t)
    ∧ (∃ t, exec (.blt rs1 rs2 offset) s = .next t
      ∧ t.pc = (if (s.readReg rs1).toInt < (s.readReg rs2).toInt then s.pc + offset.signExtend 32
          else s.pc + 4)
      ∧ OnlyBranch (decide ((s.readReg rs1).toInt < (s.readReg rs2).toInt)) s t)
    ∧ (∃ t, exec (.bge rs1 rs2 offset) s = .next t
      ∧ t.pc = (if (s.readReg rs2).toInt ≤ (s.readReg rs1).toInt then s.pc + offset.signExtend 32
          else s.pc + 4)
      ∧ OnlyBranch (decide ((s.readReg rs2).toInt ≤ (s.readReg rs1).toInt)) s t)

/-- `lb`, `lh`, `lw` (R300, R301, R304 to R306) with the whole access in memory, at any alignment: the
value of `MemRead` at the effective address, sign-extended; one cache access when enabled; no byte of
memory changes. rd = x0 included (R303). -/
def Obligations.LoadsInRange : Prop :=
  ∀ (rd rs1 : RegIdx) (imm : BitVec 12) (s : State),
    ((effectiveAddress (s.readReg rs1) imm).toNat + 1 ≤ s.cfg.memSize →
      ∃ raw t, s.memRead (effectiveAddress (s.readReg rs1) imm) 1 = some raw
        ∧ exec (.lb rd rs1 imm) s = .next t ∧ t.pc = s.pc + 4
        ∧ OnlyLoad rd (sextN 8 raw) (effectiveAddress (s.readReg rs1) imm) s t)
    ∧ ((effectiveAddress (s.readReg rs1) imm).toNat + 2 ≤ s.cfg.memSize →
      ∃ raw t, s.memRead (effectiveAddress (s.readReg rs1) imm) 2 = some raw
        ∧ exec (.lh rd rs1 imm) s = .next t ∧ t.pc = s.pc + 4
        ∧ OnlyLoad rd (sextN 16 raw) (effectiveAddress (s.readReg rs1) imm) s t)
    ∧ ((effectiveAddress (s.readReg rs1) imm).toNat + 4 ≤ s.cfg.memSize →
      ∃ raw t, s.memRead (effectiveAddress (s.readReg rs1) imm) 4 = some raw
        ∧ exec (.lw rd rs1 imm) s = .next t ∧ t.pc = s.pc + 4
        ∧ OnlyLoad rd raw (effectiveAddress (s.readReg rs1) imm) s t)

/-- `sb`, `sh`, `sw` (R300, R302, R307 to R309) with the whole access in memory, at any alignment: byte k of
x[rs2] at the effective address + k, every other byte as before, no register written, one cache access
when enabled. The memory in its canonical form, which every step keeps (`StepKeepsInvariant`). -/
def Obligations.StoresInRange : Prop :=
  ∀ (rs1 rs2 : RegIdx) (imm : BitVec 12) (s : State), s.mem.wf = true →
    ((effectiveAddress (s.readReg rs1) imm).toNat + 1 ≤ s.cfg.memSize →
      ∃ t, exec (.sb rs1 rs2 imm) s = .next t ∧ t.pc = s.pc + 4
        ∧ OnlyStore 1 (effectiveAddress (s.readReg rs1) imm) s t
        ∧ t.mem.readByte (effectiveAddress (s.readReg rs1) imm).toNat
          = (s.readReg rs2).extractLsb' 0 8)
    ∧ ((effectiveAddress (s.readReg rs1) imm).toNat + 2 ≤ s.cfg.memSize →
      ∃ t, exec (.sh rs1 rs2 imm) s = .next t ∧ t.pc = s.pc + 4
        ∧ OnlyStore 2 (effectiveAddress (s.readReg rs1) imm) s t
        ∧ ∀ k < 2, t.mem.readByte ((effectiveAddress (s.readReg rs1) imm).toNat + k)
          = (s.readReg rs2).extractLsb' (8 * k) 8)
    ∧ ((effectiveAddress (s.readReg rs1) imm).toNat + 4 ≤ s.cfg.memSize →
      ∃ t, exec (.sw rs1 rs2 imm) s = .next t ∧ t.pc = s.pc + 4
        ∧ OnlyStore 4 (effectiveAddress (s.readReg rs1) imm) s t
        ∧ ∀ k < 4, t.mem.readByte ((effectiveAddress (s.readReg rs1) imm).toNat + k)
          = (s.readReg rs2).extractLsb' (8 * k) 8)

/-- A load or store whose range reaches past the memory takes `MemFault(addr)` (R301, R302, R502): RUN
becomes `Faulted(Data, addr)` and nothing else changes. Where the fault leaves the pc is the model's
choice (log entry 8). -/
def Obligations.LoadStoreFaults : Prop :=
  ∀ (rd rs1 rs2 : RegIdx) (imm : BitVec 12) (s : State) (addr : Word),
    addr = s.readReg rs1 + imm.signExtend 32 →
    (s.cfg.memSize < addr.toNat + 1 →
      exec (.lb rd rs1 imm) s = .next { s with run := .faulted .data addr }
      ∧ exec (.sb rs1 rs2 imm) s = .next { s with run := .faulted .data addr })
    ∧ (s.cfg.memSize < addr.toNat + 2 →
      exec (.lh rd rs1 imm) s = .next { s with run := .faulted .data addr }
      ∧ exec (.sh rs1 rs2 imm) s = .next { s with run := .faulted .data addr })
    ∧ (s.cfg.memSize < addr.toNat + 4 →
      exec (.lw rd rs1 imm) s = .next { s with run := .faulted .data addr }
      ∧ exec (.sw rs1 rs2 imm) s = .next { s with run := .faulted .data addr })

/-- `ecall` (R450 to R452) completes in every state: the request (x[10], x[11]) is emitted, no register, no
byte of memory and no cache state changes; with x[10] = `EXIT_CODE` the run is Exited, otherwise it goes
on at pc + 4, whatever the code. -/
def Obligations.EcallRequests : Prop :=
  ∀ s : State, ∃ t, exec .ecall s = .next t ∧ OnlyRequest s t
    ∧ (s.readReg 10#5 = s.cfg.exitCode → t.run = .exited)
    ∧ (s.readReg 10#5 ≠ s.cfg.exitCode → t.run = s.run ∧ t.pc = s.pc + 4)

/-- What the sequential machine does at an address that holds no instruction: an `INVALID` word emits its
diagnostic and is a no-op (R455, R501); a fetch outside memory ends the run in `Faulted(Fetch, pc)`
(R503). Both are the spec's own decisions D9 and D11. That the pc stays at the address whose fetch failed
is the model's choice, log entry 8. -/
def Obligations.InvalidWordAndFetchFault : Prop :=
  ∀ s : State, s.cfg.legal = true → s.run = .running →
    (∀ raw, s.fetchWord s.pc = some raw → decode raw = none →
      seqStep s = .next { s with
        pc := s.pc + 4
        diagnostics := s.diagnostics ++ [{ pc := s.pc, raw := raw }] })
    ∧ (s.cfg.memSize < s.pc.toNat + 4 →
      seqStep s = .next { s with run := .faulted .fetch s.pc })

/-- R14: the sequential meaning of every instruction and its stage mapping agree. In every state, `exec` of
an instruction at s.pc is what its record does when it passes Decode, Execute, Memory and Writeback
alone. -/
def Obligations.StagesGiveMeaning : Prop :=
  ∀ (i : Instr) (raw : Word) (s : State),
    exec i s
      = .next (IfId.stagedAlone { pc := s.pc, raw := raw, dec := .admitted i, fault := none } s)

/-- Every admitted instruction can be executed at all times (R512) and writes at most its destination
register (R32); x0 reads 0 after it; RUN goes on, exits (`ecall`, R452), or faults with kind Data (loads
and stores, R301, R302). The configuration, the latches and the timing counters are left alone: of the
latches and counters this is the model's choice, log entry 7 (they belong to cycles, not to the
sequential meaning of R14). -/
def Obligations.EveryInstructionCompletes : Prop :=
  ∀ (i : Instr) (s : State), ∃ t, exec i s = .next t
    ∧ (∀ r, r ≠ i.destReg → t.readReg r = s.readReg r)
    ∧ t.readReg 0#5 = 0#32
    ∧ BackgroundKept s t
    ∧ (t.run = s.run ∨ t.run = .exited ∨ ∃ a, t.run = .faulted .data a)

/-! ### Memory (20_memory.md sections 1 to 4) -/

/-- R81: `MemRead` fails exactly when the range reaches past the memory, the sum not wrapping; otherwise the
byte at the lowest address is the least significant one. `Fetch` reads the same word (R83). -/
def Obligations.ReadsLittleEndian : Prop :=
  ∀ (s : State) (addr : Word),
    (∀ n, n = 1 ∨ n = 2 ∨ n = 4 → (s.memRead addr n = none ↔ s.cfg.memSize < addr.toNat + n))
    ∧ (∀ v, s.memRead addr 1 = some v → v.toNat = (s.mem.readByte addr.toNat).toNat)
    ∧ (∀ v, s.memRead addr 2 = some v →
      v.toNat = (s.mem.readByte addr.toNat).toNat + 2 ^ 8 * (s.mem.readByte (addr.toNat + 1)).toNat)
    ∧ (∀ v, s.memRead addr 4 = some v →
      v.toNat = (s.mem.readByte addr.toNat).toNat + 2 ^ 8 * (s.mem.readByte (addr.toNat + 1)).toNat
        + 2 ^ 16 * (s.mem.readByte (addr.toNat + 2)).toNat
        + 2 ^ 24 * (s.mem.readByte (addr.toNat + 3)).toNat)
    ∧ s.fetchWord addr = s.memRead addr 4

/-- R82: `MemWrite` fails, writing nothing, exactly when the range reaches past the memory; otherwise byte k
of the value goes to addr + k, every other byte and everything else stays, and the memory keeps its
canonical form. -/
def Obligations.WritesLittleEndian : Prop :=
  ∀ (s : State) (addr v : Word) (n : Nat), n = 1 ∨ n = 2 ∨ n = 4 → s.mem.wf = true →
    (s.cfg.memSize < addr.toNat + n → s.memWrite addr n v = none)
    ∧ (addr.toNat + n ≤ s.cfg.memSize →
      ∃ t, s.memWrite addr n v = some t ∧ t = { s with mem := t.mem } ∧ t.mem.wf = true
        ∧ MemKeptOutside addr.toNat n s t
        ∧ ∀ k < n, t.mem.readByte (addr.toNat + k) = v.extractLsb' (8 * k) 8)

/-- A load reads what the store before it wrote (R91): the low 8n bits after a write of n bytes at the same
address, and the old value where the two ranges are apart. -/
def Obligations.ReadAfterWrite : Prop :=
  ∀ (s t : State) (addr v : Word) (n : Nat), n = 1 ∨ n = 2 ∨ n = 4 → s.mem.wf = true →
    s.memWrite addr n v = some t →
    t.memRead addr n = some (zextN (8 * n) v)
      ∧ ∀ (a : Word) (k : Nat), a.toNat + k ≤ addr.toNat ∨ addr.toNat + n ≤ a.toNat →
        t.memRead a k = s.memRead a k

/-! ### The cache engine (20_memory.md section 5) -/

/-- R102, for every configuration whose index fits an address: tag, set index and block offset together are
the address; the block address is the address with its offset taken off; set index and tag of the block
address are those of the address. R102 is the spec's own derivation. -/
def Obligations.AddressDecomposition : Prop :=
  ∀ (c : Config) (a : Word), c.setIndexBits + c.blockOffsetBits ≤ 32 →
    a.toNat = tagOf c a * 2 ^ (c.setIndexBits + c.blockOffsetBits)
        + setIndex c a * 2 ^ c.blockOffsetBits + a.toNat % 2 ^ c.blockOffsetBits
    ∧ setIndex c a < 2 ^ c.setIndexBits
    ∧ (blockAddress c a).toNat + a.toNat % 2 ^ c.blockOffsetBits = a.toNat
    ∧ blockAddress c (blockAddress c a) = blockAddress c a
    ∧ setIndex c (blockAddress c a) = setIndex c a
    ∧ tagOf c (blockAddress c a) = tagOf c a

/-- R103 to R105: an access to a set in which the valid line `l` at way `i` holds the tag, and no other
valid line does (R110), is a hit: the clock advances, the line is stamped (LRU) or its frequency counted
(LFU), every other line stays. That LFU does not stamp is the spec's own decision D19. -/
def Obligations.CacheHit : Prop :=
  ∀ (p : Policy) (tag : Nat) (block : Word) (set : CacheSet) (i : Nat) (l : Line),
    set.lines[i]? = some l → l.valid = true → l.tag = tag →
    (set.lines.Pairwise fun x y => x.valid = true → y.valid = true → x.tag ≠ y.tag) →
    ∃ set', set.access p tag block = (set', .hit)
      ∧ set'.clock = set.clock + 1
      ∧ set'.lines.length = set.lines.length
      ∧ (p = .lru → set'.lines[i]? = some { l with recency := set.clock + 1 })
      ∧ (p = .lfu → set'.lines[i]? = some { l with freq := l.freq + 1 })
      ∧ ∀ j, j ≠ i → set'.lines[j]? = set.lines[j]?

/-- R103, R104, R106: a miss with a free line installs the block in the free line of lowest way index (the
spec's own decision D18), and leaves every other line. -/
def Obligations.CacheMissFree : Prop :=
  ∀ (p : Policy) (tag : Nat) (block : Word) (set : CacheSet) (i : Nat) (l : Line),
    (∀ m ∈ set.lines, m.valid = true → m.tag ≠ tag) →
    set.lines[i]? = some l → l.valid = false →
    (∀ j m, j < i → set.lines[j]? = some m → m.valid = true) →
    ∃ set', set.access p tag block = (set', .miss block)
      ∧ set'.clock = set.clock + 1
      ∧ set'.lines.length = set.lines.length
      ∧ set'.lines[i]? = some
          { valid := true, tag := tag, block := block, recency := set.clock + 1, freq := 1 }
      ∧ ∀ j, j ≠ i → set'.lines[j]? = set.lines[j]?

/-- R103, R104, R107 to R109: a miss with every line valid evicts one line, overwritten in place, whose old
block is reported: under LRU one of smallest recency; under LFU one of smallest frequency and, among
those, of smallest recency; the lowest way index on a tie (the spec's own decision D18). -/
def Obligations.CacheMissEvict : Prop :=
  ∀ (p : Policy) (tag : Nat) (block : Word) (set : CacheSet),
    set.lines ≠ [] → (∀ m ∈ set.lines, m.valid = true ∧ m.tag ≠ tag) →
    ∃ (set' : CacheSet) (i : Nat) (v : Line), set.lines[i]? = some v
      ∧ set.access p tag block = (set', .missEvict v.block block)
      ∧ set'.clock = set.clock + 1
      ∧ set'.lines.length = set.lines.length
      ∧ set'.lines[i]? = some
          { valid := true, tag := tag, block := block, recency := set.clock + 1, freq := 1 }
      ∧ (∀ j, j ≠ i → set'.lines[j]? = set.lines[j]?)
      ∧ (p = .lru → ∀ j m, set.lines[j]? = some m →
          v.recency ≤ m.recency ∧ (m.recency = v.recency → i ≤ j))
      ∧ (p = .lfu → ∀ j m, set.lines[j]? = some m →
          v.freq ≤ m.freq
          ∧ (m.freq = v.freq → v.recency ≤ m.recency)
          ∧ (m.freq = v.freq → m.recency = v.recency → i ≤ j))

/-- R101, R112, R113: with the cache enabled, a load or store at `a` makes one access, in the set that `a`
selects and in no other; exactly one of `hits` and `misses` goes up by one, and `evictions` exactly on an
eviction; the result is appended to the output. With the cache disabled nothing happens. -/
def Obligations.CacheAccessCounts : Prop :=
  ∀ (s : State) (a : Word), setIndex s.cfg a < s.cache.length →
    (s.cfg.cacheEnabled = false → s.accessCache a = s)
    ∧ (s.cfg.cacheEnabled = true →
      ∃ set set' r, s.cache[setIndex s.cfg a]? = some set
        ∧ set.access s.cfg.policy (tagOf s.cfg a) (blockAddress s.cfg a) = (set', r)
        ∧ (s.accessCache a).cache[setIndex s.cfg a]? = some set'
        ∧ (∀ j, j ≠ setIndex s.cfg a → (s.accessCache a).cache[j]? = s.cache[j]?)
        ∧ (s.accessCache a).cacheResults = s.cacheResults ++ [r]
        ∧ (s.accessCache a).stats.hits = s.stats.hits + (if r = .hit then 1 else 0)
        ∧ (s.accessCache a).stats.misses = s.stats.misses + (if r = .hit then 0 else 1)
        ∧ (s.accessCache a).stats.evictions
          = s.stats.evictions + (if ∃ old new, r = .missEvict old new then 1 else 0))

/-- R114: the cache has no effect on any data value or on timing. A cycle of the machine with its cache
taken away is the cycle of the machine, with its cache taken away. That a miss costs nothing is the
spec's own decision D17. -/
def Obligations.CacheNeverAffectsData : Prop :=
  ∀ s t : State, cycle s = .next t → cycle s.withoutCache = .next t.withoutCache

/-! ### The stages and the controller (70_reset_and_hazards.md sections 2 and 3) -/

/-- Writeback (R602), in a cycle of a legal running machine: a Bubble does nothing; a record with a fault
makes it a faulting cycle; any other record writes `aluResult`, `memData` or `link` to rd when
regWrite is set and rd is not 0, emits the request (x[10], x[11]) as RF stands and exits on `EXIT_CODE`
when it is a trap, and emits the diagnostic (pc, raw) when it is invalid. -/
def Obligations.WritebackStage : Prop :=
  ∀ s : State, s.cfg.legal = true → s.run = .running → ∃ t, cycle s = .next t
    ∧ (s.memwb = .bubble → RegsKept s t ∧ OutputsKept s t ∧ t.run = .running)
    ∧ ∀ r, s.memwb = .occupied r →
      (∀ tag, r.fault = some tag →
        t.run = .faulted tag.kind tag.addr ∧ RegsKept s t ∧ OutputsKept s t)
      ∧ (r.fault = none →
        (r.ctrl.regWrite = true ∧ r.rd ≠ 0#5 →
          (r.ctrl.wbSel = .alu → RegWritten r.rd r.aluResult s t)
          ∧ (r.ctrl.wbSel = .mem → RegWritten r.rd r.memData s t)
          ∧ (r.ctrl.wbSel = .link → RegWritten r.rd r.link s t))
        ∧ (r.ctrl.regWrite = false ∨ r.rd = 0#5 → RegsKept s t)
        ∧ t.hostRequests = (if r.ctrl.trap = true
            then s.hostRequests ++ [{ code := s.readReg 10#5, arg := s.readReg 11#5 }]
            else s.hostRequests)
        ∧ t.run = (if r.ctrl.trap = true ∧ s.readReg 10#5 = s.cfg.exitCode then .exited else .running)
        ∧ t.diagnostics = (if r.ctrl.invalid = true
            then s.diagnostics ++ [{ pc := r.pc, raw := r.raw }] else s.diagnostics))

/-- The value each operand gets: Decode's register view (R603), and the ForwardUnit's choice, EX/MEM before
MEM/WB, only from a record that writes a register other than x0 (R604, R605). The write-first view and
"writes a register" are the spec's own decisions D4 and D5. -/
def Obligations.OperandSelection : Prop :=
  ∀ (s : State) (q : RegIdx) (v : Word),
    s.rfView 0#5 = 0#32
    ∧ (q ≠ 0#5 → s.cfg.rfWriteFirst = true → s.rfWrite = some (q, v) → s.rfView q = v)
    ∧ (s.cfg.rfWriteFirst = false ∨ (∀ x, s.rfWrite ≠ some (q, x)) → s.rfView q = s.readReg q)
    ∧ s.fwd false q v = v
    ∧ (∀ e, s.exmem = .occupied e → e.ctrl.regWrite = true → e.rd = q → q ≠ 0#5 →
      s.fwd true q v = if e.ctrl.wbSel = .link then e.link else e.aluResult)
    ∧ ((∀ e, s.exmem = .occupied e → ¬(e.ctrl.regWrite = true ∧ e.rd = q ∧ q ≠ 0#5)) →
      (∀ m, s.memwb = .occupied m → m.ctrl.regWrite = true → m.rd = q → q ≠ 0#5 →
        s.fwd true q v = m.wbValue)
      ∧ ((∀ m, s.memwb = .occupied m → ¬(m.ctrl.regWrite = true ∧ m.rd = q ∧ q ≠ 0#5)) →
        s.fwd true q v = v))

/-- R607: the stall is asserted exactly when a load is in ID/EX and the instruction in IF/ID has its rd, x0
included, as a source. In a state whose latches are consistent it is never asserted together with a taken
branch or jump (R505). Including x0 is the spec's own decision D7. -/
def Obligations.StallCondition : Prop :=
  ∀ s : State,
    (s.stall = true ↔ ∃ q f, s.idex = .occupied q ∧ s.ifid = .occupied f ∧ q.ctrl.memRead = true
      ∧ (f.dec.source1 = some q.rd ∨ f.dec.source2 = some q.rd))
    ∧ (s.LatchesOk → ∀ target, s.takenTarget = some target → s.stall = false)

/-- R612: what the Memory stage makes of a record: a carried fault passes; a load or store past the memory
is tagged `Data(addr)` with regWrite cleared and makes no access; a load reads start-of-cycle memory; a
store requests its write; both request one cache access when it is enabled (D17); every other record
passes. -/
def Obligations.MemoryStage : Prop :=
  ∀ (s : State) (r : ExMem),
    let accesses := r.fault = none ∧ (r.ctrl.memRead = true ∨ r.ctrl.memWrite = true)
    let fits := r.aluResult.toNat + r.ctrl.width.bytes ≤ s.cfg.memSize
    let m := s.memoryOf r
    (m.out.pc = r.pc ∧ m.out.raw = r.raw ∧ m.out.dec = r.dec ∧ m.out.rd = r.rd
      ∧ m.out.aluResult = r.aluResult ∧ m.out.link = r.link)
    ∧ (¬accesses → m.out.fault = r.fault ∧ m.out.ctrl = r.ctrl ∧ m.out.memData = 0#32
      ∧ m.write = none ∧ m.access = none)
    ∧ (accesses → ¬fits → m.out.fault = some { kind := .data, addr := r.aluResult }
      ∧ m.out.ctrl = { r.ctrl with regWrite := false } ∧ m.out.memData = 0#32
      ∧ m.write = none ∧ m.access = none)
    ∧ (accesses → fits → m.out.fault = none ∧ m.out.ctrl = r.ctrl
      ∧ m.access = (if s.cfg.cacheEnabled = true then some r.aluResult else none)
      ∧ (r.ctrl.memRead = true → m.write = none
        ∧ ∃ raw, s.memRead r.aluResult r.ctrl.width.bytes = some raw
          ∧ m.out.memData = extendLoaded r.ctrl.width raw)
      ∧ (r.ctrl.memRead = false → m.out.memData = 0#32 ∧ m.write
          = some { addr := r.aluResult, bytes := r.ctrl.width.bytes, value := r.storeData }))

/-- R620, R625: a taken branch or jump sets the PC to its target, puts bubbles into IF/ID and ID/EX, moves
on itself, and counts one taken branch, whatever the stall. Resolving it in Execute and counting jumps
are the spec's own decisions D3 and D24. -/
def Obligations.RedirectFlushes : Prop :=
  ∀ (s : State) (target : Word), s.cfg.legal = true → s.run = .running → s.wbFault = none →
    s.takenTarget = some target →
    ∃ t, cycle s = .next t ∧ t.pc = target ∧ t.ifid = .bubble ∧ t.idex = .bubble
      ∧ t.exmem = s.executeStage ∧ t.exmem.isOccupied = true ∧ t.memwb = s.memOut
      ∧ t.stats.branchesTaken = s.stats.branchesTaken + 1 ∧ t.stats.stalls = s.stats.stalls

/-- R621: a flushed instruction has no effect: in the cycle of a taken branch or jump, neither what IF/ID
holds nor what Fetch reads changes anything of the next state. -/
def Obligations.FlushedHasNoEffect : Prop :=
  ∀ (s : State) (target pc : Word) (f : Latch IfId), s.wbFault = none →
    s.takenTarget = some target →
    cycle { s with pc := pc, ifid := f } = cycle s

/-- R622, R623: a stall holds PC and IF/ID, puts a bubble into ID/EX and counts; without a stall every latch
takes its freshly computed value and the PC goes to PC + 4. -/
def Obligations.StallAndAdvance : Prop :=
  ∀ s : State, s.cfg.legal = true → s.run = .running → s.wbFault = none → s.takenTarget = none →
    ∃ t, cycle s = .next t ∧ t.exmem = s.executeStage ∧ t.memwb = s.memOut
      ∧ t.stats.branchesTaken = s.stats.branchesTaken
      ∧ (s.stall = true → t.pc = s.pc ∧ t.ifid = s.ifid ∧ t.idex = .bubble
        ∧ t.stats.stalls = s.stats.stalls + 1)
      ∧ (s.stall = false → t.pc = s.pc + 4 ∧ t.ifid = .occupied s.fetchStage
        ∧ t.idex = s.decodeStage ∧ t.stats.stalls = s.stats.stalls)

/-- R506, R507: in the cycle in which a faulted record is in MEM/WB, RUN becomes `Faulted` and nothing else
changes, so RF, MEM, the cache and the outputs are those of the sequential view. Committing nothing is
the spec's own decision D12. -/
def Obligations.FaultingCycleCommitsNothing : Prop :=
  ∀ (s : State) (tag : FaultTag), s.cfg.legal = true → s.run = .running → s.wbFault = some tag →
    cycle s = .next { s with run := .faulted tag.kind tag.addr }
      ∧ ArchEq { s with run := .faulted tag.kind tag.addr } s.archView

/-- R606, R626: every counter after a committed cycle. `stalls` counts a stall that no redirect overrides,
`branchesTaken` a redirect; a forward is counted per operand, by source (the spec's own decision D6); the
cache and its counters change as the requested access changes them, or not at all. -/
def Obligations.CountersAdvance : Prop :=
  ∀ s : State, s.cfg.legal = true → s.run = .running → s.wbFault = none →
    ∃ t, cycle s = .next t
      ∧ t.stats.cycles = s.stats.cycles + 1
      ∧ t.stats.fwdFromExMem + t.stats.fwdFromMemWb
        = s.stats.fwdFromExMem + s.stats.fwdFromMemWb
          + (match s.idex with
            | .bubble => 0
            | .occupied r =>
              (if r.use1 = true ∧ (s.exMemProduces r.rs1 = true ∨ s.memWbProduces r.rs1 = true)
                then 1 else 0)
              + (if r.use2 = true ∧ (s.exMemProduces r.rs2 = true ∨ s.memWbProduces r.rs2 = true)
                then 1 else 0))
      ∧ t.stats.fwdFromExMem = s.stats.fwdFromExMem
          + (match s.idex with
            | .bubble => 0
            | .occupied r =>
              (if r.use1 = true ∧ s.exMemProduces r.rs1 = true then 1 else 0)
              + (if r.use2 = true ∧ s.exMemProduces r.rs2 = true then 1 else 0))
      ∧ t.stats.stalls
        = s.stats.stalls + (if s.stall = true ∧ s.takenTarget = none then 1 else 0)
      ∧ t.stats.branchesTaken = s.stats.branchesTaken + (if s.takenTarget = none then 0 else 1)
      ∧ (s.accessRequest = none → CacheKept s t)
      ∧ (∀ a, s.accessRequest = some a → CacheKept (s.accessCache a) t)

/-- Nothing a step does takes back what it has counted or emitted (R520, R62), and no step changes the
configuration (R36): counters never decrease, outputs only grow at the end. -/
def Obligations.StepNeverTakesBack : Prop :=
  ∀ s t : State, step s = .next t →
    t.cfg = s.cfg
    ∧ s.stats.cycles ≤ t.stats.cycles ∧ s.stats.stalls ≤ t.stats.stalls
    ∧ s.stats.branchesTaken ≤ t.stats.branchesTaken
    ∧ s.stats.fwdFromExMem ≤ t.stats.fwdFromExMem
    ∧ s.stats.fwdFromMemWb ≤ t.stats.fwdFromMemWb
    ∧ s.stats.hits ≤ t.stats.hits ∧ s.stats.misses ≤ t.stats.misses
    ∧ s.stats.evictions ≤ t.stats.evictions
    ∧ s.hostRequests <+: t.hostRequests ∧ s.diagnostics <+: t.diagnostics
    ∧ s.cacheResults <+: t.cacheResults

/-- Only a legal configuration has behaviour (R9), and only `Running` takes further cycles (R56, R510): a
legal running machine always has a next cycle, a step and a sequential step; a terminal one has none;
an illegal configuration is refused. The bounds of a legal configuration are the spec's own (D30). The
forms of the two stops are the model's: log entry 10 for a terminal state and log entry 11 for an illegal
configuration, both DEDUCED. -/
def Obligations.OnlyRunningAdvances : Prop :=
  ∀ s : State,
    (s.cfg.legal = true ↔ 1 ≤ s.cfg.memSize ∧ s.cfg.memSize ≤ 2 ^ 32 ∧ 1 ≤ s.cfg.linesPerSet
      ∧ s.cfg.setIndexBits + s.cfg.blockOffsetBits ≤ 32)
    ∧ (s.cfg.legal = false → cycle s = .refused .illegalConfiguration
      ∧ step s = .refused .illegalConfiguration ∧ seqStep s = .refused .illegalConfiguration)
    ∧ (s.cfg.legal = true → s.run ≠ .running → cycle s = .fault .runEnded
      ∧ step s = .fault .runEnded ∧ seqStep s = .fault .runEnded)
    ∧ (s.cfg.legal = true → s.run = .running →
      (∃ t, cycle s = .next t) ∧ (∃ t, step s = .next t) ∧ ∃ t, seqStep s = .next t)

/-! ### Reset, boot, invariants and runs -/

/-- R70, R630: the state after reset under any configuration and launch input, and that `State.reset` is
the one under `Config.initial` (log entry 2) with the default launch input. MEM is the launch input's
bytes: a byte inside the memory holds what the last chunk that covers it says, and 0 where none does. What
memory and registers the loader does not set hold is the spec's default (D15, D31; log entries 3 and 4).
That a later chunk overrides an earlier one, and that bytes at or past MEM_SIZE are dropped, is the
model's choice, log entry 22. -/
def Obligations.ResetState : Prop :=
  State.resetWith Config.initial (Launch.initial Config.initial) = State.reset
    ∧ (∀ (c : Config) (l : Launch),
      let s := State.resetWith c l
      s.cfg = c ∧ s.pc = c.resetPc ∧ s.run = .running
      ∧ s.ifid = .bubble ∧ s.idex = .bubble ∧ s.exmem = .bubble ∧ s.memwb = .bubble
      ∧ s.readReg 0#5 = 0#32 ∧ (∀ r, r ≠ 0#5 → s.readReg r = l.regs[r.toNat]'r.isLt)
      ∧ s.stats = Stats.zero ∧ s.cache.length = 2 ^ c.setIndexBits
      ∧ (∀ set ∈ s.cache, set.clock = 0 ∧ set.lines.length = c.linesPerSet
        ∧ ∀ line ∈ set.lines, line = Line.empty)
      ∧ s.hostRequests = [] ∧ s.diagnostics = [] ∧ s.cacheResults = []
      ∧ (∀ (before after : List (Nat × List Byte)) (chunk : Nat × List Byte) (k : Nat)
          (hk : k < chunk.2.length), l.chunks = before ++ chunk :: after →
          chunk.1 + k < c.memSize → (∀ q ∈ after, chunkCovers q (chunk.1 + k) = false) →
          s.mem.readByte (chunk.1 + k) = chunk.2[k])
      ∧ (∀ a, (∀ q ∈ l.chunks, chunkCovers q a = false) → s.mem.readByte a = 0#8)
      ∧ (∀ a, c.memSize ≤ a → s.mem.readByte a = 0#8))
    ∧ State.reset.readReg 2#5 = State.reset.cfg.spInit
    ∧ State.reset.readReg 3#5 = 0x3000#32 ∧ State.reset.pc = 0x1000#32
    ∧ ∀ r, r ≠ 2#5 → r ≠ 3#5 → State.reset.readReg r = 0#32

/-- `State.reset` satisfies the invariant, its addresses are even, and it is coherent. -/
def Obligations.ResetSatisfiesInvariant : Prop :=
  State.reset.Inv ∧ State.reset.PcsEven ∧ State.reset.Coherent

/-- So does the state after reset under every legal configuration and every launch input (the PC even when
`RESET_PC` is). Of a launch input with bytes at or past MEM_SIZE it holds because these are dropped, which
is the model's choice, log entry 22. -/
def Obligations.LaunchSatisfiesInvariant : Prop :=
  ∀ (c : Config) (l : Launch), c.legal = true →
    (State.resetWith c l).Inv ∧ (State.resetWith c l).Coherent
      ∧ (c.resetPc.getLsbD 0 = false → (State.resetWith c l).PcsEven)

/-- Every step keeps the invariant `State.Inv`, from every state that has it: the configuration stays
legal, memory keeps its canonical form and stays inside `MEM_SIZE` (R80), x0's storage stays 0 (R30), the
cache invariants hold (R110), the latches hold what the stages put there and no load in EX/MEM has its
consumer in ID/EX (R605), and the counters keep their bounds (R112, R520). -/
def Obligations.StepKeepsInvariant : Prop :=
  ∀ s t : State, s.Inv → step s = .next t → t.Inv

/-- Every step keeps the PC and the address of the instruction in each of the four latches even (R85). -/
def Obligations.StepKeepsPcsEven : Prop :=
  ∀ s t : State, s.Inv → s.PcsEven → step s = .next t → t.PcsEven

/-- R631: from reset the first instruction is in IF/ID, ID/EX, EX/MEM and MEM/WB after 1, 2, 3 and 4 cycles,
with its address and word; nothing retires, no diagnostic and no request is emitted before it does, and
its step ends with the fifth cycle. That a step is these five cycles is the model's choice, log entry 5; the
rest is about `cycles`. -/
def Obligations.BootSequence : Prop :=
  ∀ (c : Config) (l : Launch) (raw : Word), c.legal = true →
    (State.resetWith c l).fetchWord c.resetPc = some raw →
    ∃ t1 t2 t3 t4 f q e m,
      cycles 1 (State.resetWith c l) = .next t1 ∧ cycles 2 (State.resetWith c l) = .next t2
      ∧ cycles 3 (State.resetWith c l) = .next t3 ∧ cycles 4 (State.resetWith c l) = .next t4
      ∧ t1.ifid = .occupied f ∧ f.pc = c.resetPc ∧ f.raw = raw
      ∧ t2.idex = .occupied q ∧ q.pc = c.resetPc ∧ q.raw = raw
      ∧ t3.exmem = .occupied e ∧ e.pc = c.resetPc ∧ e.raw = raw
      ∧ t4.memwb = .occupied m ∧ m.pc = c.resetPc ∧ m.raw = raw
      ∧ t1.memwb = .bubble ∧ t2.memwb = .bubble ∧ t3.memwb = .bubble
      ∧ t4.diagnostics = [] ∧ t4.hostRequests = [] ∧ RegsKept (State.resetWith c l) t4
      ∧ step (State.resetWith c l) = cycle t4

/-- A step runs the decoded instruction. From a legal running state with nothing in flight, whose word at
the PC decodes to `i`: four cycles bring `i` into MEM/WB, and what the machine then stands for is exactly
what `exec i` answers; the step is those four cycles and the retiring one, which leaves RF, RUN and the
outputs as `exec i` does. `withFetchWord` makes such a state, with the given word at the PC, of any state
with a legal configuration of at least 4 bytes of memory. The grain of a step is the model's choice, log
entry 5. `withFetchWord` is no operation of the spec: that it empties the latches, sets RUN to Running and
puts the word at the PC is the model's choice, log entries 23 and 6. -/
def Obligations.StepRunsDecodedInstruction : Prop :=
  (∀ (s : State) (raw : Word) (i : Instr), s.cfg.legal = true → s.run = .running →
    s.ifid = .bubble → s.idex = .bubble → s.exmem = .bubble → s.memwb = .bubble →
    s.fetchWord s.pc = some raw → decode raw = some i →
    ∃ t4 t u, cycles 4 s = .next t4 ∧ cycle t4 = .next t ∧ step s = .next t ∧ exec i s = .next u
      ∧ ArchEq t4.archView u ∧ t.rf = u.rf ∧ t.run = u.run
      ∧ t.hostRequests = u.hostRequests ∧ t.diagnostics = u.diagnostics)
  ∧ ∀ (s : State) (w : Nat), s.cfg.legal = true → 4 ≤ s.cfg.memSize → s.mem.wf = true →
    let t := s.withFetchWord 32 w
    t.cfg = s.cfg ∧ t.rf = s.rf ∧ t.run = .running ∧ t.ifid = .bubble ∧ t.idex = .bubble
      ∧ t.exmem = .bubble ∧ t.memwb = .bubble ∧ t.fetchWord t.pc = some (BitVec.ofNat 32 w)

/-- The timing of R642 as the cycle rules R620 to R626 give it, an equation between cycles and instructions,
from any state that has the invariant, over any number of cycles that do not end in a fault:
cycles + in flight before = retired + in flight after + stalls + 2 per taken branch or jump.
So one instruction retires per cycle, but for one cycle per stall and two per redirect. It stands in the
place of R642's printed formula `N + 4 + S + 2T`, which fails when instructions younger than the exiting
`ecall` redirect or stall in the cycle before the exit cycle: log entry 25 (DEDUCED). -/
def Obligations.CyclesCountInstructions : Prop :=
  ∀ (n : Nat) (s t : State), s.Inv → cycles n s = .next t → t.noFault = true →
    n + s.inFlight + s.stats.stalls + 2 * s.stats.branchesTaken
      = retiredIn n s + t.inFlight + t.stats.stalls + 2 * t.stats.branchesTaken

/-- R640, for one cycle, from any coherent state, of the pipeline against the sequential machine. Read at the
boundary between EX/MEM and MEM/WB, the cycle is one sequential step of the instruction in EX/MEM, or
none when a bubble is there; and the next state is coherent again. The hazards the spec excepts are
excluded as it excepts them, cycle by cycle: H1 (`rfHazardFree`; never with RF_WRITE_FIRST) and H2
(`storeHazardFree`). -/
def Obligations.PipelineRefinesSequential : Prop :=
  ∀ s : State, s.cfg.legal = true → s.run = .running → s.Coherent →
    s.archView.run = .running → s.rfHazardFree = true → s.storeHazardFree = true →
    ∃ t, cycle s = .next t ∧ t.Coherent
      ∧ (s.exmem = .bubble → ArchEq t.archView s.archView)
      ∧ (s.exmem ≠ .bubble → ∃ u, seqStep s.archView = .next u ∧ ArchEq t.archView u)

/-- R452, R453: the exit cycle is a complete cycle. It ends the run, with RF and the host request of the
sequential view; the store and the cache access of the instruction in Memory, the redirect and the
forwards of the one in Execute and the stall are committed and counted; a fault that Memory finds is
only carried into MEM/WB; and without hazard H3 (`exitHazardFree`, R641) memory,
the cache and the counters but `cycles` are left alone. That the younger effects commit is the spec's own
decision D13; that `exitHazardFree` also excludes a load with the cache enabled is log entry 27 (DEDUCED). -/
def Obligations.ExitCycleCompletes : Prop :=
  ∀ s : State, s.cfg.legal = true → s.run = .running → s.wbExit = true →
    ∃ t, cycle s = .next t ∧ t.run = .exited ∧ t.rf = s.archView.rf
      ∧ t.hostRequests = s.hostRequests ++ [{ code := s.cfg.exitCode, arg := s.readReg 11#5 }]
      ∧ t.stats.cycles = s.stats.cycles + 1
      ∧ (∀ w, s.storeRequest = some w → t.mem = s.mem.writeLE w.addr.toNat w.bytes w.value)
      ∧ (s.storeRequest = none → t.mem = s.mem)
      ∧ (∀ target, s.takenTarget = some target → t.pc = target
        ∧ t.stats.branchesTaken = s.stats.branchesTaken + 1)
      ∧ (s.takenTarget = none → t.stats.branchesTaken = s.stats.branchesTaken)
      ∧ (s.takenTarget = none → s.stall = true → t.stats.stalls = s.stats.stalls + 1)
      ∧ (∀ a, s.accessRequest = some a → CacheKept (s.accessCache a) t)
      ∧ (s.accessRequest = none → CacheKept s t)
      ∧ t.stats.fwdFromExMem = s.stats.fwdFromExMem + s.fwdCount .exMem
      ∧ t.stats.fwdFromMemWb = s.stats.fwdFromMemWb + s.fwdCount .memWb
      ∧ t.memwb = s.memOut
      ∧ (s.exitHazardFree = true →
        ArchEq t s.archView ∧ t.stats = { s.stats with cycles := s.stats.cycles + 1 })
end

