-- ==== Sys2Proof/Laws/Cache.lean ====
section
/-! SUPPORT. One cache access keeps the cache invariants of R110 and advances one clock (R103). -/

namespace Sys2Proof.Machine

/-- A line stays in order as the clock advances. -/
theorem Line.Ok.mono {c i k k' l} (h : Line.Ok c i k l) (hk : k ≤ k') : Line.Ok c i k' l :=
  ⟨h.tag_lt, h.block_eq, le_trans h.recency_le hk, h.freq_pos, h.freq_lru⟩

/-- Replacing one line by one whose tag and stamp are new keeps a set in order. -/
theorem CacheSet.Ok.set {c : Config} {idx : Nat} {set : CacheSet} (h : set.Ok c idx) {i : Nat}
    {l' : Line}
    (hok : l'.Ok c idx (set.clock + 1))
    (ht : ∀ j (hj : j < set.lines.length), j ≠ i → set.lines[j].valid = true → set.lines[j].tag ≠
        l'.tag)
    (hr : ∀ j (hj : j < set.lines.length), j ≠ i → set.lines[j].valid = true → set.lines[j].recency
        ≠ l'.recency) :
    CacheSet.Ok c idx { lines := set.lines.set i l', clock := set.clock + 1 } := by
  refine ⟨by simpa using h.ways, ?_, ?_, ?_⟩
  · intro l hl hv
    rcases List.mem_or_eq_of_mem_set hl with hl | rfl
    · exact Line.Ok.mono (h.line_ok l hl hv) (by simp)
    · exact hok
  · rw [List.pairwise_iff_getElem]
    intro x y hx hy hxy
    simp only [List.length_set] at hx hy
    have := List.pairwise_iff_getElem.mp h.tags_distinct x y hx hy hxy
    simp only [List.getElem_set]
    split <;> split
    · omega
    · intro _ hvy; exact (ht y hy (by omega) hvy).symm
    · intro hvx _; exact ht x hx (by omega) hvx
    · exact this
  · rw [List.pairwise_iff_getElem]
    intro x y hx hy hxy
    simp only [List.length_set] at hx hy
    have := List.pairwise_iff_getElem.mp h.recency_distinct x y hx hy hxy
    simp only [List.getElem_set]
    split <;> split
    · omega
    · intro _ hvy; exact (hr y hy (by omega) hvy).symm
    · intro hvx _; exact hr x hx (by omega) hvx
    · exact this

/-- Modifying one entry is setting it. -/
theorem modify_eq_set {α} (f : α → α) : ∀ (i : Nat) (l : List α) (h : i < l.length), l.modify i f =
    l.set i (f l[i])
  | i, [], h => by simp at h
  | 0, x :: xs, h => by simp
  | i+1, x :: xs, h =>
    by simp only [List.length_cons, Nat.add_lt_add_iff_right] at h; simp [modify_eq_set f i xs h]

/-- So does advancing the clock. -/
theorem CacheSet.Ok.bump {c : Config} {idx : Nat} {set : CacheSet} (h : set.Ok c idx) : CacheSet.Ok
    c idx { lines := set.lines, clock := set.clock + 1 } :=
  ⟨h.ways, fun l hl hv => Line.Ok.mono (h.line_ok l hl hv) (by simp), h.tags_distinct,
      h.recency_distinct⟩

/-- The block address of an address, from its tag and set index (R102). -/
theorem blockAddress_eq (c : Config) (a : Word) : blockAddress c a = blockOf c (tagOf c a) (setIndex
    c a) := by
  apply BitVec.eq_of_getLsbD_eq; intro i hi
  have h1 : (BitVec.ofNat 32 (2 ^ c.blockOffsetBits - 1)).getLsbD i = decide (i < c.blockOffsetBits)
      := by
    rw [BitVec.getLsbD_ofNat, Nat.testBit_two_pow_sub_one]; simp [hi]
  have h2 : (blockAddress c a).getLsbD i = (decide (c.blockOffsetBits ≤ i) && a.getLsbD i) := by
    simp only [blockAddress, BitVec.getLsbD_and, BitVec.getLsbD_not, hi, h1]
    by_cases h5 : i < c.blockOffsetBits
    · simp [h5]
    · simp [h5]; grind
  rw [h2, blockOf, BitVec.getLsbD_ofNat]
  simp only [Nat.testBit_or, Nat.testBit_shiftLeft, tagOf, setIndex, Nat.testBit_shiftRight,
      Nat.testBit_and, Nat.testBit_two_pow_sub_one, hi, decide_true, Bool.true_and, BitVec.getLsbD]
  by_cases h5 : c.blockOffsetBits ≤ i
  · have e2 : c.blockOffsetBits + (i - c.blockOffsetBits) = i := by omega
    by_cases h6 : c.setIndexBits + c.blockOffsetBits ≤ i
    · have e1 : c.setIndexBits + c.blockOffsetBits + (i - (c.setIndexBits + c.blockOffsetBits)) = i
        := by omega
      have : ¬ i - c.blockOffsetBits < c.setIndexBits := by omega
      simp [h5, h6, e1, e2, this]
    · have : i - c.blockOffsetBits < c.setIndexBits := by omega
      simp [h5, h6, e2, this]
  · have h6 : ¬ c.setIndexBits + c.blockOffsetBits ≤ i := by omega
    simp [h5, h6]

/-- A tag has 32 - s - b bits (R51). -/
theorem tagOf_lt (c : Config) (a : Word) (hc : c.setIndexBits + c.blockOffsetBits ≤ 32) : tagOf c a
    < 2 ^ (32 - c.setIndexBits - c.blockOffsetBits) := by
  simp only [tagOf, Nat.shiftRight_eq_div_pow]
  rw [Nat.div_lt_iff_lt_mul (by positivity), ← Nat.pow_add]
  have : 32 - c.setIndexBits - c.blockOffsetBits + (c.setIndexBits + c.blockOffsetBits) = 32
      := by omega
  rw [this]; exact a.isLt

/-- A line just installed is in order. -/
theorem Line.installed_ok (c : Config) (a : Word) (hc : c.setIndexBits + c.blockOffsetBits ≤ 32) (k
    : Nat) : (Line.installed (tagOf c a) (blockAddress c a) k).Ok c (setIndex c a) k :=
  ⟨tagOf_lt c a hc, blockAddress_eq c a, le_refl _, le_refl _, fun _ => rfl⟩

/-- No hit: no valid line has the tag. -/
theorem findHit_none {lines : List Line} {tag : Nat} (h : findHit lines tag = none) : ∀ m ∈ lines,
    m.valid = true → m.tag ≠ tag := by
  unfold findHit at h
  rw [List.findIdx?_eq_none_iff] at h
  intro m hm hv
  have := h m hm
  simpa [hv] using this

/-- An access keeps its set in order and advances its clock. -/
theorem CacheSet.access_ok {c : Config} {a : Word} (hc : c.setIndexBits + c.blockOffsetBits ≤ 32)
    {set : CacheSet} (h : set.Ok c (setIndex c a)) :
    (set.access c.policy (tagOf c a) (blockAddress c a)).1.Ok c (setIndex c a) ∧ (set.access
        c.policy (tagOf c a) (blockAddress c a)).1.clock = set.clock + 1 := by
  unfold CacheSet.access
  simp only
  have hrec : ∀ j (hj : j < set.lines.length), set.lines[j].valid = true → set.lines[j].recency ≠
      set.clock + 1 := by
    intro j hj hv
    have := (h.line_ok _ (List.getElem_mem hj) hv).recency_le
    omega
  split
  · next i hi =>
    refine ⟨?_, rfl⟩
    unfold findHit at hi
    rw [List.findIdx?_eq_some_iff_getElem] at hi
    obtain ⟨hlt, hp, _⟩ := hi
    simp only [Bool.and_eq_true, beq_iff_eq] at hp
    have hl := h.line_ok _ (List.getElem_mem hlt) hp.1
    rw [modify_eq_set _ _ _ hlt]
    have htt : ∀ j (hj : j < set.lines.length), j ≠ i → set.lines[j].valid = true → set.lines[j].tag
        ≠ set.lines[i].tag := by
      intro j hj hne hv
      rcases Nat.lt_or_gt_of_ne hne with hlt' | hlt'
      · exact List.pairwise_iff_getElem.mp h.tags_distinct j i hj hlt hlt' hv hp.1
      · exact (List.pairwise_iff_getElem.mp h.tags_distinct i j hlt hj hlt' hp.1 hv).symm
    have hrr : ∀ j (hj : j < set.lines.length), j ≠ i → set.lines[j].valid = true →
        set.lines[j].recency ≠ set.lines[i].recency := by
      intro j hj hne hv
      rcases Nat.lt_or_gt_of_ne hne with hlt' | hlt'
      · exact List.pairwise_iff_getElem.mp h.recency_distinct j i hj hlt hlt' hv hp.1
      · exact (List.pairwise_iff_getElem.mp h.recency_distinct i j hlt hj hlt' hp.1 hv).symm
    cases hpol : c.policy with
    | lru =>
      exact CacheSet.Ok.set h ⟨hl.tag_lt, hl.block_eq, le_refl _, hl.freq_pos, hl.freq_lru⟩ htt (fun
          j hj _ hv => hrec j hj hv)
    | lfu =>
      exact CacheSet.Ok.set h ⟨hl.tag_lt, hl.block_eq, le_trans hl.recency_le
          (by simp), by simp [Line.touch], fun hx => by rw [hpol] at hx; cases hx⟩ htt hrr
  · next hnone =>
    have hn := findHit_none hnone
    have htt : ∀ i, ∀ j (hj : j < set.lines.length), j ≠ i → set.lines[j].valid = true →
        set.lines[j].tag ≠ tagOf c a := fun _ j hj _ hv => hn _ (List.getElem_mem hj) hv
    split
    · next i hi =>
        exact ⟨CacheSet.Ok.set h (Line.installed_ok c a hc _) (htt i) (fun j hj _ hv => hrec j hj
            hv), rfl⟩
    · split
      · next i v hv =>
          exact ⟨CacheSet.Ok.set h (Line.installed_ok c a hc _) (htt i) (fun j hj _ hv => hrec j hj
              hv), rfl⟩
      · exact ⟨CacheSet.Ok.bump h, rfl⟩

/-- A set index has s bits. -/
theorem setIndex_lt (c : Config) (a : Word) : setIndex c a < 2 ^ c.setIndexBits := by
  simp only [setIndex, Nat.and_two_pow_sub_one_eq_mod]; exact Nat.mod_lt _ (by positivity)

/-- The sum of a list with one entry replaced. -/
theorem sum_set (l : List Nat) (i : Nat) (h : i < l.length) (v : Nat) : (l.set i v).sum + l[i] =
    l.sum + v := by
  induction l generalizing i with
  | nil => simp at h
  | cons x xs ih =>
    cases i with
    | zero => simp; omega
    | succ i => simp at h; simp; have := ih i h; omega

/-- An access keeps the cache in order. -/
theorem State.CacheOk.accessCache {s : State} (h : s.CacheOk) (hc : s.cfg.setIndexBits +
    s.cfg.blockOffsetBits ≤ 32) (a : Word) : (s.accessCache a).CacheOk := by
  unfold State.accessCache
  split
  · have hlt : setIndex s.cfg a < s.cache.length := by rw [h.sets]; exact setIndex_lt _ _
    have hsel : selectedSet s.cache (setIndex s.cfg a) = s.cache[setIndex s.cfg a]
        := by simp [selectedSet, hlt]
    have hset := h.set_ok _ _ (List.getElem?_eq_getElem hlt)
    obtain ⟨k1, k2⟩ := CacheSet.access_ok hc hset
    simp only [cacheAccess, hsel]
    refine ⟨by simpa using h.sets, ?_, ?_⟩
    · intro i set hi
      simp only [List.getElem?_set] at hi
      split at hi
      · next e => simp only [hlt, if_true, Option.some.injEq] at hi
                  try subst e
                  subst hi; exact k1
      · exact h.set_ok i set hi
    · simp only [List.map_set]
      have := sum_set (s.cache.map CacheSet.clock) (setIndex s.cfg a) (by simpa using hlt)
          (((s.cache[setIndex s.cfg a]).access s.cfg.policy (tagOf s.cfg a) (blockAddress s.cfg
          a)).1.clock)
      rw [List.getElem_map, k2, h.clocks] at this
      rw [k2]
      have h3 : ∀ (st : Stats) r, (st.countAccess r).hits + (st.countAccess r).misses = st.hits +
          st.misses + 1 := by
        intro st r; cases r <;> simp [Stats.countAccess] <;> omega
      rw [h3]; omega
  · exact h

/-- The cache invariants depend on the cache and its counters. -/
theorem State.CacheOk.congr {s t : State} (hc : t.cfg = s.cfg) (hk : t.cache = s.cache) (h1 :
    t.stats.hits = s.stats.hits) (h2 : t.stats.misses = s.stats.misses) (h : s.CacheOk) : t.CacheOk
    :=
  ⟨by rw [hk, hc]; exact h.sets, by rw [hk, hc]; exact h.set_ok, by rw [hk, h1, h2]; exact h.clocks⟩

/-- A set index and an offset fit an address (R9). -/
theorem legal_index {c : Config} (h : c.legal = true) : c.setIndexBits + c.blockOffsetBits ≤ 32 :=
    by
  simp only [Config.legal, Bool.and_eq_true, decide_eq_true_eq] at h; exact h.2


end Sys2Proof.Machine
end

