-- ==== Sys2Proof/Laws/Codec.lean ====
section
/-! SUPPORT. The codec bit by bit: the fields of a packed word, and a word packed from its fields.
-/

namespace Sys2Proof

/-- Bit i of the immediate field. -/
theorem immS_bit (w : Word) (i : Nat) : (immSOf w).getLsbD i = if i < 5 then w.getLsbD (7+i) else if
    i < 12 then w.getLsbD (20+i) else false := by
  change @BitVec.getLsbD (7+5) (w.extractLsb' 25 7 ++ w.extractLsb' 7 5) i = _
  simp only [BitVec.getLsbD_append, BitVec.getLsbD_extractLsb', Nat.sub_sub, Nat.reduceAdd]
  grind

/-- Bit i of the immediate field. -/
theorem immB_bit (w : Word) (i : Nat) : (immBOf w).getLsbD i = if i < 1 then false else if i < 5
    then w.getLsbD (7+i) else if i < 11 then w.getLsbD (20+i) else if i < 12 then w.getLsbD 7 else
    if i < 13 then w.getLsbD 31 else false := by
  change @BitVec.getLsbD (1+1+6+4+1) (w.extractLsb' 31 1 ++ w.extractLsb' 7 1 ++ w.extractLsb' 25 6
      ++ w.extractLsb' 8 4 ++ 0#1) i = _
  simp only [BitVec.getLsbD_append, BitVec.getLsbD_extractLsb', Nat.sub_sub, Nat.reduceAdd]
  grind

/-- Bit i of the immediate field. -/
theorem immJ_bit (w : Word) (i : Nat) : (immJOf w).getLsbD i = if i < 1 then false else if i < 11
    then w.getLsbD (20+i) else if i < 12 then w.getLsbD 20 else if i < 20 then w.getLsbD i else if i
    < 21 then w.getLsbD 31 else false := by
  change @BitVec.getLsbD (1+8+1+10+1) (w.extractLsb' 31 1 ++ w.extractLsb' 12 8 ++ w.extractLsb' 20
      1 ++ w.extractLsb' 21 10 ++ 0#1) i = _
  simp only [BitVec.getLsbD_append, BitVec.getLsbD_extractLsb', Nat.sub_sub, Nat.reduceAdd]
  grind

section R

variable (funct7 : BitVec 7) (rs2 rs1 : RegIdx) (funct3 : BitVec 3) (rd : RegIdx) (opcode : BitVec
    7)

/-- Bit i of a packed R-type word. -/
theorem packR_bit (i : Nat) : (packR funct7 rs2 rs1 funct3 rd opcode).getLsbD i = if i < 7 then
    opcode.getLsbD i else if i < 12 then rd.getLsbD (i-7) else if i < 15 then funct3.getLsbD (i-12)
    else if i < 20 then rs1.getLsbD (i-15) else if i < 25 then rs2.getLsbD (i-20) else
    funct7.getLsbD (i-25) := by
  change @BitVec.getLsbD (7+5+5+3+5+7) (funct7 ++ rs2 ++ rs1 ++ funct3 ++ rd ++ opcode) i = _
  simp only [BitVec.getLsbD_append, BitVec.getLsbD_extractLsb', Nat.sub_sub, Nat.reduceAdd]
  grind

/-- The field of a packed word. -/
theorem opcodeOf_packR : opcodeOf (packR funct7 rs2 rs1 funct3 rd opcode) = opcode := by
  apply BitVec.eq_of_getLsbD_eq; intro i hi
  simp only [opcodeOf, BitVec.getLsbD_extractLsb', packR_bit]
  grind

/-- The field of a packed word. -/
theorem rdOf_packR : rdOf (packR funct7 rs2 rs1 funct3 rd opcode) = rd := by
  apply BitVec.eq_of_getLsbD_eq; intro i hi
  simp only [rdOf, BitVec.getLsbD_extractLsb', packR_bit]
  grind

/-- The field of a packed word. -/
theorem funct3Of_packR : funct3Of (packR funct7 rs2 rs1 funct3 rd opcode) = funct3 := by
  apply BitVec.eq_of_getLsbD_eq; intro i hi
  simp only [funct3Of, BitVec.getLsbD_extractLsb', packR_bit]
  grind

/-- The field of a packed word. -/
theorem rs1Of_packR : rs1Of (packR funct7 rs2 rs1 funct3 rd opcode) = rs1 := by
  apply BitVec.eq_of_getLsbD_eq; intro i hi
  simp only [rs1Of, BitVec.getLsbD_extractLsb', packR_bit]
  grind

/-- The field of a packed word. -/
theorem rs2Of_packR : rs2Of (packR funct7 rs2 rs1 funct3 rd opcode) = rs2 := by
  apply BitVec.eq_of_getLsbD_eq; intro i hi
  simp only [rs2Of, BitVec.getLsbD_extractLsb', packR_bit]
  grind

/-- The field of a packed word. -/
theorem funct7Of_packR : funct7Of (packR funct7 rs2 rs1 funct3 rd opcode) = funct7 := by
  apply BitVec.eq_of_getLsbD_eq; intro i hi
  simp only [funct7Of, BitVec.getLsbD_extractLsb', packR_bit]
  grind

end R

section I

variable (imm : BitVec 12) (rs1 : RegIdx) (funct3 : BitVec 3) (rd : RegIdx) (opcode : BitVec 7)

/-- Bit i of a packed I-type word. -/
theorem packI_bit (i : Nat) : (packI imm rs1 funct3 rd opcode).getLsbD i = if i < 7 then
    opcode.getLsbD i else if i < 12 then rd.getLsbD (i-7) else if i < 15 then funct3.getLsbD (i-12)
    else if i < 20 then rs1.getLsbD (i-15) else imm.getLsbD (i-20) := by
  change @BitVec.getLsbD (12+5+3+5+7) (imm ++ rs1 ++ funct3 ++ rd ++ opcode) i = _
  simp only [BitVec.getLsbD_append, BitVec.getLsbD_extractLsb', Nat.sub_sub, Nat.reduceAdd]
  grind

/-- The field of a packed word. -/
theorem opcodeOf_packI : opcodeOf (packI imm rs1 funct3 rd opcode) = opcode := by
  apply BitVec.eq_of_getLsbD_eq; intro i hi
  simp only [opcodeOf, BitVec.getLsbD_extractLsb', packI_bit]
  grind

/-- The field of a packed word. -/
theorem rdOf_packI : rdOf (packI imm rs1 funct3 rd opcode) = rd := by
  apply BitVec.eq_of_getLsbD_eq; intro i hi
  simp only [rdOf, BitVec.getLsbD_extractLsb', packI_bit]
  grind

/-- The field of a packed word. -/
theorem funct3Of_packI : funct3Of (packI imm rs1 funct3 rd opcode) = funct3 := by
  apply BitVec.eq_of_getLsbD_eq; intro i hi
  simp only [funct3Of, BitVec.getLsbD_extractLsb', packI_bit]
  grind

/-- The field of a packed word. -/
theorem rs1Of_packI : rs1Of (packI imm rs1 funct3 rd opcode) = rs1 := by
  apply BitVec.eq_of_getLsbD_eq; intro i hi
  simp only [rs1Of, BitVec.getLsbD_extractLsb', packI_bit]
  grind

/-- The field of a packed word. -/
theorem immIOf_packI : immIOf (packI imm rs1 funct3 rd opcode) = imm := by
  apply BitVec.eq_of_getLsbD_eq; intro i hi
  simp only [immIOf, BitVec.getLsbD_extractLsb', packI_bit]
  grind

end I

section S

variable (imm : BitVec 12) (rs2 rs1 : RegIdx) (funct3 : BitVec 3) (opcode : BitVec 7)

/-- Bit i of a packed S-type word. -/
theorem packS_bit (i : Nat) : (packS imm rs2 rs1 funct3 opcode).getLsbD i = if i < 7 then
    opcode.getLsbD i else if i < 12 then imm.getLsbD (i-7) else if i < 15 then funct3.getLsbD (i-12)
    else if i < 20 then rs1.getLsbD (i-15) else if i < 25 then rs2.getLsbD (i-20) else if i < 32
    then imm.getLsbD (i-20) else false := by
  change @BitVec.getLsbD (7+5+5+3+5+7) (imm.extractLsb' 5 7 ++ rs2 ++ rs1 ++ funct3 ++
      imm.extractLsb' 0 5 ++ opcode) i = _
  simp only [BitVec.getLsbD_append, BitVec.getLsbD_extractLsb', Nat.sub_sub, Nat.reduceAdd]
  grind

/-- The field of a packed word. -/
theorem opcodeOf_packS : opcodeOf (packS imm rs2 rs1 funct3 opcode) = opcode := by
  apply BitVec.eq_of_getLsbD_eq; intro i hi
  simp only [opcodeOf, BitVec.getLsbD_extractLsb', packS_bit]
  grind

/-- The field of a packed word. -/
theorem funct3Of_packS : funct3Of (packS imm rs2 rs1 funct3 opcode) = funct3 := by
  apply BitVec.eq_of_getLsbD_eq; intro i hi
  simp only [funct3Of, BitVec.getLsbD_extractLsb', packS_bit]
  grind

/-- The field of a packed word. -/
theorem rs1Of_packS : rs1Of (packS imm rs2 rs1 funct3 opcode) = rs1 := by
  apply BitVec.eq_of_getLsbD_eq; intro i hi
  simp only [rs1Of, BitVec.getLsbD_extractLsb', packS_bit]
  grind

/-- The field of a packed word. -/
theorem rs2Of_packS : rs2Of (packS imm rs2 rs1 funct3 opcode) = rs2 := by
  apply BitVec.eq_of_getLsbD_eq; intro i hi
  simp only [rs2Of, BitVec.getLsbD_extractLsb', packS_bit]
  grind

/-- The field of a packed word. -/
theorem immSOf_packS : immSOf (packS imm rs2 rs1 funct3 opcode) = imm := by
  apply BitVec.eq_of_getLsbD_eq; intro i hi
  simp only [immS_bit, packS_bit]
  grind

end S

section B

variable (imm : BitVec 13) (rs2 rs1 : RegIdx) (funct3 : BitVec 3) (opcode : BitVec 7)

/-- Bit i of a packed B-type word. -/
theorem packB_bit (i : Nat) : (packB imm rs2 rs1 funct3 opcode).getLsbD i = if i < 7 then
    opcode.getLsbD i else if i < 8 then imm.getLsbD 11 else if i < 12 then imm.getLsbD (i-7) else if
    i < 15 then funct3.getLsbD (i-12) else if i < 20 then rs1.getLsbD (i-15) else if i < 25 then
    rs2.getLsbD (i-20) else if i < 31 then imm.getLsbD (i-20) else if i < 32 then imm.getLsbD 12
    else false := by
  change @BitVec.getLsbD (1+6+5+5+3+4+1+7) (imm.extractLsb' 12 1 ++ imm.extractLsb' 5 6 ++ rs2 ++
      rs1 ++ funct3 ++ imm.extractLsb' 1 4 ++ imm.extractLsb' 11 1 ++ opcode) i = _
  simp only [BitVec.getLsbD_append, BitVec.getLsbD_extractLsb', Nat.sub_sub, Nat.reduceAdd]
  grind

/-- The field of a packed word. -/
theorem opcodeOf_packB : opcodeOf (packB imm rs2 rs1 funct3 opcode) = opcode := by
  apply BitVec.eq_of_getLsbD_eq; intro i hi
  simp only [opcodeOf, BitVec.getLsbD_extractLsb', packB_bit]
  grind

/-- The field of a packed word. -/
theorem funct3Of_packB : funct3Of (packB imm rs2 rs1 funct3 opcode) = funct3 := by
  apply BitVec.eq_of_getLsbD_eq; intro i hi
  simp only [funct3Of, BitVec.getLsbD_extractLsb', packB_bit]
  grind

/-- The field of a packed word. -/
theorem rs1Of_packB : rs1Of (packB imm rs2 rs1 funct3 opcode) = rs1 := by
  apply BitVec.eq_of_getLsbD_eq; intro i hi
  simp only [rs1Of, BitVec.getLsbD_extractLsb', packB_bit]
  grind

/-- The field of a packed word. -/
theorem rs2Of_packB : rs2Of (packB imm rs2 rs1 funct3 opcode) = rs2 := by
  apply BitVec.eq_of_getLsbD_eq; intro i hi
  simp only [rs2Of, BitVec.getLsbD_extractLsb', packB_bit]
  grind

/-- The field of a packed word. -/
theorem immBOf_packB (h : imm.getLsbD 0 = false) : immBOf (packB imm rs2 rs1 funct3 opcode) = imm :=
    by
  apply BitVec.eq_of_getLsbD_eq; intro i hi
  simp only [immB_bit, packB_bit]
  grind

end B

section U

variable (imm : BitVec 20) (rd : RegIdx) (opcode : BitVec 7)

/-- Bit i of a packed U-type word. -/
theorem packU_bit (i : Nat) : (packU imm rd opcode).getLsbD i = if i < 7 then opcode.getLsbD i else
    if i < 12 then rd.getLsbD (i-7) else imm.getLsbD (i-12) := by
  change @BitVec.getLsbD (20+5+7) (imm ++ rd ++ opcode) i = _
  simp only [BitVec.getLsbD_append, BitVec.getLsbD_extractLsb', Nat.sub_sub, Nat.reduceAdd]
  grind

/-- The field of a packed word. -/
theorem opcodeOf_packU : opcodeOf (packU imm rd opcode) = opcode := by
  apply BitVec.eq_of_getLsbD_eq; intro i hi
  simp only [opcodeOf, BitVec.getLsbD_extractLsb', packU_bit]
  grind

/-- The field of a packed word. -/
theorem rdOf_packU : rdOf (packU imm rd opcode) = rd := by
  apply BitVec.eq_of_getLsbD_eq; intro i hi
  simp only [rdOf, BitVec.getLsbD_extractLsb', packU_bit]
  grind

/-- The field of a packed word. -/
theorem immUOf_packU : immUOf (packU imm rd opcode) = imm := by
  apply BitVec.eq_of_getLsbD_eq; intro i hi
  simp only [immUOf, BitVec.getLsbD_extractLsb', packU_bit]
  grind

end U

section J

variable (imm : BitVec 21) (rd : RegIdx) (opcode : BitVec 7)

/-- Bit i of a packed J-type word. -/
theorem packJ_bit (i : Nat) : (packJ imm rd opcode).getLsbD i = if i < 7 then opcode.getLsbD i else
    if i < 12 then rd.getLsbD (i-7) else if i < 20 then imm.getLsbD i else if i < 21 then
    imm.getLsbD 11 else if i < 31 then imm.getLsbD (i-20) else if i < 32 then imm.getLsbD 20 else
    false := by
  change @BitVec.getLsbD (1+10+1+8+5+7) (imm.extractLsb' 20 1 ++ imm.extractLsb' 1 10 ++
      imm.extractLsb' 11 1 ++ imm.extractLsb' 12 8 ++ rd ++ opcode) i = _
  simp only [BitVec.getLsbD_append, BitVec.getLsbD_extractLsb', Nat.sub_sub, Nat.reduceAdd]
  grind

/-- The field of a packed word. -/
theorem opcodeOf_packJ : opcodeOf (packJ imm rd opcode) = opcode := by
  apply BitVec.eq_of_getLsbD_eq; intro i hi
  simp only [opcodeOf, BitVec.getLsbD_extractLsb', packJ_bit]
  grind

/-- The field of a packed word. -/
theorem rdOf_packJ : rdOf (packJ imm rd opcode) = rd := by
  apply BitVec.eq_of_getLsbD_eq; intro i hi
  simp only [rdOf, BitVec.getLsbD_extractLsb', packJ_bit]
  grind

/-- The field of a packed word. -/
theorem immJOf_packJ (h : imm.getLsbD 0 = false) : immJOf (packJ imm rd opcode) = imm := by
  apply BitVec.eq_of_getLsbD_eq; intro i hi
  simp only [immJ_bit, packJ_bit]
  grind

end J

section

variable {w : Word} {o : BitVec 7} {f3 : BitVec 3} {f7 : BitVec 7}

/-- A word is packed from its fields. -/
theorem packR_of_fields (h1 : opcodeOf w = o) (h2 : funct3Of w = f3) (h3 : funct7Of w = f7) : packR
    f7 (rs2Of w) (rs1Of w) f3 (rdOf w) o = w := by
  subst h1 h2 h3
  apply BitVec.eq_of_getLsbD_eq; intro i hi
  simp only [packR_bit, opcodeOf, funct3Of, funct7Of, rs1Of, rs2Of, rdOf,
      BitVec.getLsbD_extractLsb']
  grind

/-- A word is packed from its fields. -/
theorem packI_of_fields (h1 : opcodeOf w = o) (h2 : funct3Of w = f3) : packI (immIOf w) (rs1Of w) f3
    (rdOf w) o = w := by
  subst h1 h2
  apply BitVec.eq_of_getLsbD_eq; intro i hi
  simp only [packI_bit, opcodeOf, funct3Of, immIOf, rs1Of, rs2Of, rdOf, BitVec.getLsbD_extractLsb']
  grind

/-- A word is packed from its fields. -/
theorem packS_of_fields (h1 : opcodeOf w = o) (h2 : funct3Of w = f3) : packS (immSOf w) (rs2Of w)
    (rs1Of w) f3 o = w := by
  subst h1 h2
  apply BitVec.eq_of_getLsbD_eq; intro i hi
  simp only [packS_bit, opcodeOf, funct3Of, immS_bit, rs1Of, rs2Of, rdOf,
      BitVec.getLsbD_extractLsb']
  grind

/-- A word is packed from its fields. -/
theorem packB_of_fields (h1 : opcodeOf w = o) (h2 : funct3Of w = f3) : packB (immBOf w) (rs2Of w)
    (rs1Of w) f3 o = w := by
  subst h1 h2
  apply BitVec.eq_of_getLsbD_eq; intro i hi
  simp only [packB_bit, opcodeOf, funct3Of, immB_bit, rs1Of, rs2Of, rdOf,
      BitVec.getLsbD_extractLsb']
  grind

/-- A word is packed from its fields. -/
theorem packU_of_fields (h1 : opcodeOf w = o) : packU (immUOf w) (rdOf w) o = w := by
  subst h1
  apply BitVec.eq_of_getLsbD_eq; intro i hi
  simp only [packU_bit, opcodeOf, immUOf, rdOf, BitVec.getLsbD_extractLsb']
  grind

/-- A word is packed from its fields. -/
theorem packJ_of_fields (h1 : opcodeOf w = o) : packJ (immJOf w) (rdOf w) o = w := by
  subst h1
  apply BitVec.eq_of_getLsbD_eq; intro i hi
  simp only [packJ_bit, opcodeOf, immJ_bit, rdOf, BitVec.getLsbD_extractLsb']
  grind

end


end Sys2Proof
end

