-- ==== Sys2Proof/Laws/State.lean ====
section
/-! SUPPORT. One lemma per field per update of State, so that no later proof unfolds a record
update. -/

namespace Sys2Proof.Machine

@[simp] theorem State.jumpTo_cfg (s : State) (v : Word) : (s.jumpTo v).cfg = s.cfg := rfl

@[simp] theorem State.jumpTo_rf (s : State) (v : Word) : (s.jumpTo v).rf = s.rf := rfl

@[simp] theorem State.jumpTo_pc (s : State) (v : Word) :
    (s.jumpTo v).pc = v := rfl

@[simp] theorem State.jumpTo_ifid (s : State) (v : Word) : (s.jumpTo v).ifid = s.ifid := rfl

@[simp] theorem State.jumpTo_idex (s : State) (v : Word) : (s.jumpTo v).idex = s.idex := rfl

@[simp] theorem State.jumpTo_exmem (s : State) (v : Word) : (s.jumpTo v).exmem = s.exmem := rfl

@[simp] theorem State.jumpTo_memwb (s : State) (v : Word) : (s.jumpTo v).memwb = s.memwb := rfl

@[simp] theorem State.jumpTo_mem (s : State) (v : Word) : (s.jumpTo v).mem = s.mem := rfl

@[simp] theorem State.jumpTo_cache (s : State) (v : Word) : (s.jumpTo v).cache = s.cache := rfl

@[simp] theorem State.jumpTo_stats (s : State) (v : Word) : (s.jumpTo v).stats = s.stats := rfl

@[simp] theorem State.jumpTo_run (s : State) (v : Word) : (s.jumpTo v).run = s.run := rfl

@[simp] theorem State.jumpTo_hostRequests (s : State) (v : Word) : (s.jumpTo v).hostRequests =
    s.hostRequests := rfl

@[simp] theorem State.jumpTo_diagnostics (s : State) (v : Word) : (s.jumpTo v).diagnostics =
    s.diagnostics := rfl

@[simp] theorem State.jumpTo_cacheResults (s : State) (v : Word) : (s.jumpTo v).cacheResults =
    s.cacheResults := rfl

@[simp] theorem State.advance_cfg (s : State) : (s.advance).cfg = s.cfg := rfl

@[simp] theorem State.advance_rf (s : State) : (s.advance).rf = s.rf := rfl

@[simp] theorem State.advance_pc (s : State) :
    (s.advance).pc = s.pc + 4 := rfl

@[simp] theorem State.advance_ifid (s : State) : (s.advance).ifid = s.ifid := rfl

@[simp] theorem State.advance_idex (s : State) : (s.advance).idex = s.idex := rfl

@[simp] theorem State.advance_exmem (s : State) : (s.advance).exmem = s.exmem := rfl

@[simp] theorem State.advance_memwb (s : State) : (s.advance).memwb = s.memwb := rfl

@[simp] theorem State.advance_mem (s : State) : (s.advance).mem = s.mem := rfl

@[simp] theorem State.advance_cache (s : State) : (s.advance).cache = s.cache := rfl

@[simp] theorem State.advance_stats (s : State) : (s.advance).stats = s.stats := rfl

@[simp] theorem State.advance_run (s : State) : (s.advance).run = s.run := rfl

@[simp] theorem State.advance_hostRequests (s : State) : (s.advance).hostRequests = s.hostRequests
    := rfl

@[simp] theorem State.advance_diagnostics (s : State) : (s.advance).diagnostics = s.diagnostics :=
    rfl

@[simp] theorem State.advance_cacheResults (s : State) : (s.advance).cacheResults = s.cacheResults
    := rfl

@[simp] theorem State.redirect_cfg (s : State) (v : Word) : (s.redirect v).cfg = s.cfg := rfl

@[simp] theorem State.redirect_rf (s : State) (v : Word) : (s.redirect v).rf = s.rf := rfl

@[simp] theorem State.redirect_pc (s : State) (v : Word) :
    (s.redirect v).pc = v := rfl

@[simp] theorem State.redirect_ifid (s : State) (v : Word) : (s.redirect v).ifid = s.ifid := rfl

@[simp] theorem State.redirect_idex (s : State) (v : Word) : (s.redirect v).idex = s.idex := rfl

@[simp] theorem State.redirect_exmem (s : State) (v : Word) : (s.redirect v).exmem = s.exmem := rfl

@[simp] theorem State.redirect_memwb (s : State) (v : Word) : (s.redirect v).memwb = s.memwb := rfl

@[simp] theorem State.redirect_mem (s : State) (v : Word) : (s.redirect v).mem = s.mem := rfl

@[simp] theorem State.redirect_cache (s : State) (v : Word) : (s.redirect v).cache = s.cache := rfl

@[simp] theorem State.redirect_stats (s : State) (v : Word) :
    (s.redirect v).stats = { s.stats with branchesTaken := s.stats.branchesTaken + 1 } := rfl

@[simp] theorem State.redirect_run (s : State) (v : Word) : (s.redirect v).run = s.run := rfl

@[simp] theorem State.redirect_hostRequests (s : State) (v : Word) : (s.redirect v).hostRequests =
    s.hostRequests := rfl

@[simp] theorem State.redirect_diagnostics (s : State) (v : Word) : (s.redirect v).diagnostics =
    s.diagnostics := rfl

@[simp] theorem State.redirect_cacheResults (s : State) (v : Word) : (s.redirect v).cacheResults =
    s.cacheResults := rfl

@[simp] theorem State.raiseFault_cfg (s : State) (k : FaultKind) (a : Word) : (s.raiseFault k
    a).cfg = s.cfg := rfl

@[simp] theorem State.raiseFault_rf (s : State) (k : FaultKind) (a : Word) : (s.raiseFault k a).rf
    = s.rf := rfl

@[simp] theorem State.raiseFault_pc (s : State) (k : FaultKind) (a : Word) : (s.raiseFault k a).pc
    = s.pc := rfl

@[simp] theorem State.raiseFault_ifid (s : State) (k : FaultKind) (a : Word) : (s.raiseFault k
    a).ifid = s.ifid := rfl

@[simp] theorem State.raiseFault_idex (s : State) (k : FaultKind) (a : Word) : (s.raiseFault k
    a).idex = s.idex := rfl

@[simp] theorem State.raiseFault_exmem (s : State) (k : FaultKind) (a : Word) : (s.raiseFault k
    a).exmem = s.exmem := rfl

@[simp] theorem State.raiseFault_memwb (s : State) (k : FaultKind) (a : Word) : (s.raiseFault k
    a).memwb = s.memwb := rfl

@[simp] theorem State.raiseFault_mem (s : State) (k : FaultKind) (a : Word) : (s.raiseFault k
    a).mem = s.mem := rfl

@[simp] theorem State.raiseFault_cache (s : State) (k : FaultKind) (a : Word) : (s.raiseFault k
    a).cache = s.cache := rfl

@[simp] theorem State.raiseFault_stats (s : State) (k : FaultKind) (a : Word) : (s.raiseFault k
    a).stats = s.stats := rfl

@[simp] theorem State.raiseFault_run (s : State) (k : FaultKind) (a : Word) :
    (s.raiseFault k a).run = .faulted k a := rfl

@[simp] theorem State.raiseFault_hostRequests (s : State) (k : FaultKind) (a : Word) :
    (s.raiseFault k a).hostRequests = s.hostRequests := rfl

@[simp] theorem State.raiseFault_diagnostics (s : State) (k : FaultKind) (a : Word) : (s.raiseFault
    k a).diagnostics = s.diagnostics := rfl

@[simp] theorem State.raiseFault_cacheResults (s : State) (k : FaultKind) (a : Word) :
    (s.raiseFault k a).cacheResults = s.cacheResults := rfl

@[simp] theorem State.exit_cfg (s : State) : (s.exit).cfg = s.cfg := rfl

@[simp] theorem State.exit_rf (s : State) : (s.exit).rf = s.rf := rfl

@[simp] theorem State.exit_pc (s : State) : (s.exit).pc = s.pc := rfl

@[simp] theorem State.exit_ifid (s : State) : (s.exit).ifid = s.ifid := rfl

@[simp] theorem State.exit_idex (s : State) : (s.exit).idex = s.idex := rfl

@[simp] theorem State.exit_exmem (s : State) : (s.exit).exmem = s.exmem := rfl

@[simp] theorem State.exit_memwb (s : State) : (s.exit).memwb = s.memwb := rfl

@[simp] theorem State.exit_mem (s : State) : (s.exit).mem = s.mem := rfl

@[simp] theorem State.exit_cache (s : State) : (s.exit).cache = s.cache := rfl

@[simp] theorem State.exit_stats (s : State) : (s.exit).stats = s.stats := rfl

@[simp] theorem State.exit_run (s : State) :
    (s.exit).run = .exited := rfl

@[simp] theorem State.exit_hostRequests (s : State) : (s.exit).hostRequests = s.hostRequests := rfl

@[simp] theorem State.exit_diagnostics (s : State) : (s.exit).diagnostics = s.diagnostics := rfl

@[simp] theorem State.exit_cacheResults (s : State) : (s.exit).cacheResults = s.cacheResults := rfl

@[simp] theorem State.emitRequest_cfg (s : State) (q : HostRequest) : (s.emitRequest q).cfg = s.cfg
    := rfl

@[simp] theorem State.emitRequest_rf (s : State) (q : HostRequest) : (s.emitRequest q).rf = s.rf :=
    rfl

@[simp] theorem State.emitRequest_pc (s : State) (q : HostRequest) : (s.emitRequest q).pc = s.pc :=
    rfl

@[simp] theorem State.emitRequest_ifid (s : State) (q : HostRequest) : (s.emitRequest q).ifid =
    s.ifid := rfl

@[simp] theorem State.emitRequest_idex (s : State) (q : HostRequest) : (s.emitRequest q).idex =
    s.idex := rfl

@[simp] theorem State.emitRequest_exmem (s : State) (q : HostRequest) : (s.emitRequest q).exmem =
    s.exmem := rfl

@[simp] theorem State.emitRequest_memwb (s : State) (q : HostRequest) : (s.emitRequest q).memwb =
    s.memwb := rfl

@[simp] theorem State.emitRequest_mem (s : State) (q : HostRequest) : (s.emitRequest q).mem = s.mem
    := rfl

@[simp] theorem State.emitRequest_cache (s : State) (q : HostRequest) : (s.emitRequest q).cache =
    s.cache := rfl

@[simp] theorem State.emitRequest_stats (s : State) (q : HostRequest) : (s.emitRequest q).stats =
    s.stats := rfl

@[simp] theorem State.emitRequest_run (s : State) (q : HostRequest) : (s.emitRequest q).run = s.run
    := rfl

@[simp] theorem State.emitRequest_hostRequests (s : State) (q : HostRequest) :
    (s.emitRequest q).hostRequests = s.hostRequests ++ [q] := rfl

@[simp] theorem State.emitRequest_diagnostics (s : State) (q : HostRequest) : (s.emitRequest
    q).diagnostics = s.diagnostics := rfl

@[simp] theorem State.emitRequest_cacheResults (s : State) (q : HostRequest) : (s.emitRequest
    q).cacheResults = s.cacheResults := rfl

@[simp] theorem State.emitDiagnostic_cfg (s : State) (d : Diagnostic) : (s.emitDiagnostic d).cfg =
    s.cfg := rfl

@[simp] theorem State.emitDiagnostic_rf (s : State) (d : Diagnostic) : (s.emitDiagnostic d).rf =
    s.rf := rfl

@[simp] theorem State.emitDiagnostic_pc (s : State) (d : Diagnostic) : (s.emitDiagnostic d).pc =
    s.pc := rfl

@[simp] theorem State.emitDiagnostic_ifid (s : State) (d : Diagnostic) : (s.emitDiagnostic d).ifid
    = s.ifid := rfl

@[simp] theorem State.emitDiagnostic_idex (s : State) (d : Diagnostic) : (s.emitDiagnostic d).idex
    = s.idex := rfl

@[simp] theorem State.emitDiagnostic_exmem (s : State) (d : Diagnostic) : (s.emitDiagnostic
    d).exmem = s.exmem := rfl

@[simp] theorem State.emitDiagnostic_memwb (s : State) (d : Diagnostic) : (s.emitDiagnostic
    d).memwb = s.memwb := rfl

@[simp] theorem State.emitDiagnostic_mem (s : State) (d : Diagnostic) : (s.emitDiagnostic d).mem =
    s.mem := rfl

@[simp] theorem State.emitDiagnostic_cache (s : State) (d : Diagnostic) : (s.emitDiagnostic
    d).cache = s.cache := rfl

@[simp] theorem State.emitDiagnostic_stats (s : State) (d : Diagnostic) : (s.emitDiagnostic
    d).stats = s.stats := rfl

@[simp] theorem State.emitDiagnostic_run (s : State) (d : Diagnostic) : (s.emitDiagnostic d).run =
    s.run := rfl

@[simp] theorem State.emitDiagnostic_hostRequests (s : State) (d : Diagnostic) : (s.emitDiagnostic
    d).hostRequests = s.hostRequests := rfl

@[simp] theorem State.emitDiagnostic_diagnostics (s : State) (d : Diagnostic) :
    (s.emitDiagnostic d).diagnostics = s.diagnostics ++ [d] := rfl

@[simp] theorem State.emitDiagnostic_cacheResults (s : State) (d : Diagnostic) : (s.emitDiagnostic
    d).cacheResults = s.cacheResults := rfl

@[simp] theorem State.writeReg_cfg (s : State) (r : RegIdx) (v : Word) : (s.writeReg r v).cfg =
    s.cfg := by
  unfold State.writeReg; split <;> rfl

@[simp] theorem State.writeReg_pc (s : State) (r : RegIdx) (v : Word) : (s.writeReg r v).pc = s.pc
    := by
  unfold State.writeReg; split <;> rfl

@[simp] theorem State.writeReg_ifid (s : State) (r : RegIdx) (v : Word) : (s.writeReg r v).ifid =
    s.ifid := by
  unfold State.writeReg; split <;> rfl

@[simp] theorem State.writeReg_idex (s : State) (r : RegIdx) (v : Word) : (s.writeReg r v).idex =
    s.idex := by
  unfold State.writeReg; split <;> rfl

@[simp] theorem State.writeReg_exmem (s : State) (r : RegIdx) (v : Word) : (s.writeReg r v).exmem =
    s.exmem := by
  unfold State.writeReg; split <;> rfl

@[simp] theorem State.writeReg_memwb (s : State) (r : RegIdx) (v : Word) : (s.writeReg r v).memwb =
    s.memwb := by
  unfold State.writeReg; split <;> rfl

@[simp] theorem State.writeReg_mem (s : State) (r : RegIdx) (v : Word) : (s.writeReg r v).mem =
    s.mem := by
  unfold State.writeReg; split <;> rfl

@[simp] theorem State.writeReg_cache (s : State) (r : RegIdx) (v : Word) : (s.writeReg r v).cache =
    s.cache := by
  unfold State.writeReg; split <;> rfl

@[simp] theorem State.writeReg_stats (s : State) (r : RegIdx) (v : Word) : (s.writeReg r v).stats =
    s.stats := by
  unfold State.writeReg; split <;> rfl

@[simp] theorem State.writeReg_run (s : State) (r : RegIdx) (v : Word) : (s.writeReg r v).run =
    s.run := by
  unfold State.writeReg; split <;> rfl

@[simp] theorem State.writeReg_hostRequests (s : State) (r : RegIdx) (v : Word) : (s.writeReg r
    v).hostRequests = s.hostRequests := by
  unfold State.writeReg; split <;> rfl

@[simp] theorem State.writeReg_diagnostics (s : State) (r : RegIdx) (v : Word) : (s.writeReg r
    v).diagnostics = s.diagnostics := by
  unfold State.writeReg; split <;> rfl

@[simp] theorem State.writeReg_cacheResults (s : State) (r : RegIdx) (v : Word) : (s.writeReg r
    v).cacheResults = s.cacheResults := by
  unfold State.writeReg; split <;> rfl

@[simp] theorem State.accessCache_cfg (s : State) (a : Word) : (s.accessCache a).cfg = s.cfg := by
  unfold State.accessCache; split <;> rfl

@[simp] theorem State.accessCache_rf (s : State) (a : Word) : (s.accessCache a).rf = s.rf := by
  unfold State.accessCache; split <;> rfl

@[simp] theorem State.accessCache_pc (s : State) (a : Word) : (s.accessCache a).pc = s.pc := by
  unfold State.accessCache; split <;> rfl

@[simp] theorem State.accessCache_ifid (s : State) (a : Word) : (s.accessCache a).ifid = s.ifid :=
    by
  unfold State.accessCache; split <;> rfl

@[simp] theorem State.accessCache_idex (s : State) (a : Word) : (s.accessCache a).idex = s.idex :=
    by
  unfold State.accessCache; split <;> rfl

@[simp] theorem State.accessCache_exmem (s : State) (a : Word) : (s.accessCache a).exmem = s.exmem
    := by
  unfold State.accessCache; split <;> rfl

@[simp] theorem State.accessCache_memwb (s : State) (a : Word) : (s.accessCache a).memwb = s.memwb
    := by
  unfold State.accessCache; split <;> rfl

@[simp] theorem State.accessCache_mem (s : State) (a : Word) : (s.accessCache a).mem = s.mem := by
  unfold State.accessCache; split <;> rfl

@[simp] theorem State.accessCache_run (s : State) (a : Word) : (s.accessCache a).run = s.run := by
  unfold State.accessCache; split <;> rfl

@[simp] theorem State.accessCache_hostRequests (s : State) (a : Word) : (s.accessCache
    a).hostRequests = s.hostRequests := by
  unfold State.accessCache; split <;> rfl

@[simp] theorem State.accessCache_diagnostics (s : State) (a : Word) : (s.accessCache
    a).diagnostics = s.diagnostics := by
  unfold State.accessCache; split <;> rfl

@[simp] theorem State.applyRfWrite_cfg (s : State) (w : Option (RegIdx × Word)) : (s.applyRfWrite
    w).cfg = s.cfg := by
  cases w <;> simp [State.applyRfWrite]

@[simp] theorem State.applyRfWrite_pc (s : State) (w : Option (RegIdx × Word)) : (s.applyRfWrite
    w).pc = s.pc := by
  cases w <;> simp [State.applyRfWrite]

@[simp] theorem State.applyRfWrite_ifid (s : State) (w : Option (RegIdx × Word)) : (s.applyRfWrite
    w).ifid = s.ifid := by
  cases w <;> simp [State.applyRfWrite]

@[simp] theorem State.applyRfWrite_idex (s : State) (w : Option (RegIdx × Word)) : (s.applyRfWrite
    w).idex = s.idex := by
  cases w <;> simp [State.applyRfWrite]

@[simp] theorem State.applyRfWrite_exmem (s : State) (w : Option (RegIdx × Word)) : (s.applyRfWrite
    w).exmem = s.exmem := by
  cases w <;> simp [State.applyRfWrite]

@[simp] theorem State.applyRfWrite_memwb (s : State) (w : Option (RegIdx × Word)) : (s.applyRfWrite
    w).memwb = s.memwb := by
  cases w <;> simp [State.applyRfWrite]

@[simp] theorem State.applyRfWrite_mem (s : State) (w : Option (RegIdx × Word)) : (s.applyRfWrite
    w).mem = s.mem := by
  cases w <;> simp [State.applyRfWrite]

@[simp] theorem State.applyRfWrite_cache (s : State) (w : Option (RegIdx × Word)) : (s.applyRfWrite
    w).cache = s.cache := by
  cases w <;> simp [State.applyRfWrite]

@[simp] theorem State.applyRfWrite_stats (s : State) (w : Option (RegIdx × Word)) : (s.applyRfWrite
    w).stats = s.stats := by
  cases w <;> simp [State.applyRfWrite]

@[simp] theorem State.applyRfWrite_run (s : State) (w : Option (RegIdx × Word)) : (s.applyRfWrite
    w).run = s.run := by
  cases w <;> simp [State.applyRfWrite]

@[simp] theorem State.applyRfWrite_hostRequests (s : State) (w : Option (RegIdx × Word)) :
    (s.applyRfWrite w).hostRequests = s.hostRequests := by
  cases w <;> simp [State.applyRfWrite]

@[simp] theorem State.applyRfWrite_diagnostics (s : State) (w : Option (RegIdx × Word)) :
    (s.applyRfWrite w).diagnostics = s.diagnostics := by
  cases w <;> simp [State.applyRfWrite]

@[simp] theorem State.applyRfWrite_cacheResults (s : State) (w : Option (RegIdx × Word)) :
    (s.applyRfWrite w).cacheResults = s.cacheResults := by
  cases w <;> simp [State.applyRfWrite]

@[simp] theorem State.applyStore_cfg (s : State) (w : Option StoreRequest) : (s.applyStore w).cfg =
    s.cfg := by
  cases w <;> rfl

@[simp] theorem State.applyStore_rf (s : State) (w : Option StoreRequest) : (s.applyStore w).rf =
    s.rf := by
  cases w <;> rfl

@[simp] theorem State.applyStore_pc (s : State) (w : Option StoreRequest) : (s.applyStore w).pc =
    s.pc := by
  cases w <;> rfl

@[simp] theorem State.applyStore_ifid (s : State) (w : Option StoreRequest) : (s.applyStore w).ifid
    = s.ifid := by
  cases w <;> rfl

@[simp] theorem State.applyStore_idex (s : State) (w : Option StoreRequest) : (s.applyStore w).idex
    = s.idex := by
  cases w <;> rfl

@[simp] theorem State.applyStore_exmem (s : State) (w : Option StoreRequest) : (s.applyStore
    w).exmem = s.exmem := by
  cases w <;> rfl

@[simp] theorem State.applyStore_memwb (s : State) (w : Option StoreRequest) : (s.applyStore
    w).memwb = s.memwb := by
  cases w <;> rfl

@[simp] theorem State.applyStore_cache (s : State) (w : Option StoreRequest) : (s.applyStore
    w).cache = s.cache := by
  cases w <;> rfl

@[simp] theorem State.applyStore_stats (s : State) (w : Option StoreRequest) : (s.applyStore
    w).stats = s.stats := by
  cases w <;> rfl

@[simp] theorem State.applyStore_run (s : State) (w : Option StoreRequest) : (s.applyStore w).run =
    s.run := by
  cases w <;> rfl

@[simp] theorem State.applyStore_hostRequests (s : State) (w : Option StoreRequest) : (s.applyStore
    w).hostRequests = s.hostRequests := by
  cases w <;> rfl

@[simp] theorem State.applyStore_diagnostics (s : State) (w : Option StoreRequest) : (s.applyStore
    w).diagnostics = s.diagnostics := by
  cases w <;> rfl

@[simp] theorem State.applyStore_cacheResults (s : State) (w : Option StoreRequest) : (s.applyStore
    w).cacheResults = s.cacheResults := by
  cases w <;> rfl

@[simp] theorem State.applyAccess_cfg (s : State) (a : Option Word) : (s.applyAccess a).cfg = s.cfg
    := by
  cases a <;> simp [State.applyAccess]

@[simp] theorem State.applyAccess_rf (s : State) (a : Option Word) : (s.applyAccess a).rf = s.rf :=
    by
  cases a <;> simp [State.applyAccess]

@[simp] theorem State.applyAccess_pc (s : State) (a : Option Word) : (s.applyAccess a).pc = s.pc :=
    by
  cases a <;> simp [State.applyAccess]

@[simp] theorem State.applyAccess_ifid (s : State) (a : Option Word) : (s.applyAccess a).ifid =
    s.ifid := by
  cases a <;> simp [State.applyAccess]

@[simp] theorem State.applyAccess_idex (s : State) (a : Option Word) : (s.applyAccess a).idex =
    s.idex := by
  cases a <;> simp [State.applyAccess]

@[simp] theorem State.applyAccess_exmem (s : State) (a : Option Word) : (s.applyAccess a).exmem =
    s.exmem := by
  cases a <;> simp [State.applyAccess]

@[simp] theorem State.applyAccess_memwb (s : State) (a : Option Word) : (s.applyAccess a).memwb =
    s.memwb := by
  cases a <;> simp [State.applyAccess]

@[simp] theorem State.applyAccess_mem (s : State) (a : Option Word) : (s.applyAccess a).mem = s.mem
    := by
  cases a <;> simp [State.applyAccess]

@[simp] theorem State.applyAccess_run (s : State) (a : Option Word) : (s.applyAccess a).run = s.run
    := by
  cases a <;> simp [State.applyAccess]

@[simp] theorem State.applyAccess_hostRequests (s : State) (a : Option Word) : (s.applyAccess
    a).hostRequests = s.hostRequests := by
  cases a <;> simp [State.applyAccess]

@[simp] theorem State.applyAccess_diagnostics (s : State) (a : Option Word) : (s.applyAccess
    a).diagnostics = s.diagnostics := by
  cases a <;> simp [State.applyAccess]

@[simp] theorem State.applyRequest_cfg (s : State) (q : Option HostRequest) : (s.applyRequest
    q).cfg = s.cfg := by
  cases q <;> rfl

@[simp] theorem State.applyRequest_rf (s : State) (q : Option HostRequest) : (s.applyRequest q).rf
    = s.rf := by
  cases q <;> rfl

@[simp] theorem State.applyRequest_pc (s : State) (q : Option HostRequest) : (s.applyRequest q).pc
    = s.pc := by
  cases q <;> rfl

@[simp] theorem State.applyRequest_ifid (s : State) (q : Option HostRequest) : (s.applyRequest
    q).ifid = s.ifid := by
  cases q <;> rfl

@[simp] theorem State.applyRequest_idex (s : State) (q : Option HostRequest) : (s.applyRequest
    q).idex = s.idex := by
  cases q <;> rfl

@[simp] theorem State.applyRequest_exmem (s : State) (q : Option HostRequest) : (s.applyRequest
    q).exmem = s.exmem := by
  cases q <;> rfl

@[simp] theorem State.applyRequest_memwb (s : State) (q : Option HostRequest) : (s.applyRequest
    q).memwb = s.memwb := by
  cases q <;> rfl

@[simp] theorem State.applyRequest_mem (s : State) (q : Option HostRequest) : (s.applyRequest
    q).mem = s.mem := by
  cases q <;> rfl

@[simp] theorem State.applyRequest_cache (s : State) (q : Option HostRequest) : (s.applyRequest
    q).cache = s.cache := by
  cases q <;> rfl

@[simp] theorem State.applyRequest_stats (s : State) (q : Option HostRequest) : (s.applyRequest
    q).stats = s.stats := by
  cases q <;> rfl

@[simp] theorem State.applyRequest_run (s : State) (q : Option HostRequest) : (s.applyRequest
    q).run = s.run := by
  cases q <;> rfl

@[simp] theorem State.applyRequest_diagnostics (s : State) (q : Option HostRequest) :
    (s.applyRequest q).diagnostics = s.diagnostics := by
  cases q <;> rfl

@[simp] theorem State.applyRequest_cacheResults (s : State) (q : Option HostRequest) :
    (s.applyRequest q).cacheResults = s.cacheResults := by
  cases q <;> rfl

@[simp] theorem State.applyDiagnostic_cfg (s : State) (d : Option Diagnostic) : (s.applyDiagnostic
    d).cfg = s.cfg := by
  cases d <;> rfl

@[simp] theorem State.applyDiagnostic_rf (s : State) (d : Option Diagnostic) : (s.applyDiagnostic
    d).rf = s.rf := by
  cases d <;> rfl

@[simp] theorem State.applyDiagnostic_pc (s : State) (d : Option Diagnostic) : (s.applyDiagnostic
    d).pc = s.pc := by
  cases d <;> rfl

@[simp] theorem State.applyDiagnostic_ifid (s : State) (d : Option Diagnostic) : (s.applyDiagnostic
    d).ifid = s.ifid := by
  cases d <;> rfl

@[simp] theorem State.applyDiagnostic_idex (s : State) (d : Option Diagnostic) : (s.applyDiagnostic
    d).idex = s.idex := by
  cases d <;> rfl

@[simp] theorem State.applyDiagnostic_exmem (s : State) (d : Option Diagnostic) :
    (s.applyDiagnostic d).exmem = s.exmem := by
  cases d <;> rfl

@[simp] theorem State.applyDiagnostic_memwb (s : State) (d : Option Diagnostic) :
    (s.applyDiagnostic d).memwb = s.memwb := by
  cases d <;> rfl

@[simp] theorem State.applyDiagnostic_mem (s : State) (d : Option Diagnostic) : (s.applyDiagnostic
    d).mem = s.mem := by
  cases d <;> rfl

@[simp] theorem State.applyDiagnostic_cache (s : State) (d : Option Diagnostic) :
    (s.applyDiagnostic d).cache = s.cache := by
  cases d <;> rfl

@[simp] theorem State.applyDiagnostic_stats (s : State) (d : Option Diagnostic) :
    (s.applyDiagnostic d).stats = s.stats := by
  cases d <;> rfl

@[simp] theorem State.applyDiagnostic_run (s : State) (d : Option Diagnostic) : (s.applyDiagnostic
    d).run = s.run := by
  cases d <;> rfl

@[simp] theorem State.applyDiagnostic_hostRequests (s : State) (d : Option Diagnostic) :
    (s.applyDiagnostic d).hostRequests = s.hostRequests := by
  cases d <;> rfl

@[simp] theorem State.applyDiagnostic_cacheResults (s : State) (d : Option Diagnostic) :
    (s.applyDiagnostic d).cacheResults = s.cacheResults := by
  cases d <;> rfl

end Sys2Proof.Machine
end

