-- ==== Sys2Proof/Laws/Memory.lean ====
section
/-! SUPPORT. The memory: every operation keeps the canonical form, a read after a write gives the byte
written, and every other byte is left alone. -/

namespace Sys2Proof.Machine

namespace Memory

/-- Every listed address of a memory is at least `a`. -/
def From (a : Nat) (m : Memory) : Prop := ∀ cell ∈ m, a ≤ cell.1

/-- The canonical form of a non-empty memory. -/
theorem wf_cons {k : Nat} {b : Byte} {rest : Memory} :
    Memory.wf ((k, b) :: rest) = true ↔ b ≠ unlisted ∧ From (k + 1) rest ∧ Memory.wf rest = true := by
  induction rest generalizing k b with
  | nil => simp [Memory.wf, From]
  | cons c rest ih =>
    obtain ⟨k', b'⟩ := c
    have hi := @ih k' b'
    simp only [Memory.wf, Bool.and_eq_true, bne_iff_ne, decide_eq_true_eq, From] at *
    constructor
    · rintro ⟨⟨hb, hk⟩, hw⟩
      refine ⟨hb, ?_, hw⟩
      have h2 := hi.mp hw
      intro cell hc
      rcases List.mem_cons.mp hc with rfl | hc
      · exact hk
      · have := h2.2.1 cell hc; omega
    · rintro ⟨hb, hf, hw⟩
      exact ⟨⟨hb, hf (k', b') (by simp)⟩, hw⟩

/-- An address below every listed one reads as unlisted. -/
theorem readByte_of_from {m : Memory} {a k : Nat} (h : From k m) (ha : a < k) :
    readByte m a = unlisted := by
  induction m with
  | nil => rfl
  | cons c rest ih =>
    obtain ⟨k', b'⟩ := c
    have h1 := h (k', b') (by simp)
    simp only at h1
    have hne : k' ≠ a := by omega
    simp only [readByte, hne, if_false]
    exact ih fun cell hc => h cell (by simp [hc])

theorem readByte_consByte (a : Nat) (v : Byte) (rest : Memory) (x : Nat)
    (h : From (a + 1) rest) :
    readByte (consByte a v rest) x = if x = a then v else readByte rest x := by
  unfold consByte
  split
  · next hv =>
    split
    · next hx => subst hx; rw [hv]; exact readByte_of_from h (by omega)
    · rfl
  · simp [readByte, eq_comm]

/-- A write leaves every other byte alone, in any memory. -/
theorem readByte_writeByte_ne (m : Memory) (a x : Nat) (v : Byte) (hx : x ≠ a) :
    readByte (writeByte m a v) x = readByte m x := by
  have hc : ∀ rest, readByte (consByte a v rest) x = readByte rest x := by
    intro rest; unfold consByte; split
    · rfl
    · simp [readByte, Ne.symm hx]
  induction m with
  | nil => simp only [writeByte, hc]
  | cons c rest ih =>
    obtain ⟨k, b⟩ := c
    unfold writeByte
    split
    · simp only [hc]
    · split
      · next hak => simp only [hc, readByte]; rw [if_neg (by omega)]
      · simp only [readByte, ih]

/-- A read after a write to the same address, in a canonical memory. -/
theorem readByte_writeByte_self (m : Memory) (a : Nat) (v : Byte) (h : wf m = true) :
    readByte (writeByte m a v) a = v := by
  induction m with
  | nil => simp [writeByte, readByte_consByte a v [] a (by intro _ h; cases h)]
  | cons c rest ih =>
    obtain ⟨k, b⟩ := c
    obtain ⟨hb, hf, hw⟩ := wf_cons.mp h
    unfold writeByte
    split
    · next hak =>
      rw [readByte_consByte]
      · simp
      · intro cell hc
        rcases List.mem_cons.mp hc with rfl | hc
        · exact hak
        · have := hf cell hc; omega
    · split
      · next hak => subst hak; rw [readByte_consByte _ _ _ _ hf]; simp
      · next h1 h2 => simp only [readByte]; rw [if_neg (by omega)]; exact ih hw

theorem from_consByte {a k : Nat} {v : Byte} {rest : Memory} (hk : k ≤ a) (h : From k rest) :
    From k (consByte a v rest) := by
  unfold consByte; split
  · exact h
  · intro cell hc
    rcases List.mem_cons.mp hc with rfl | hc
    · exact hk
    · exact h cell hc

theorem from_writeByte {m : Memory} {a k : Nat} {v : Byte} (hk : k ≤ a) (h : From k m) :
    From k (writeByte m a v) := by
  induction m with
  | nil => exact from_consByte hk h
  | cons c rest ih =>
    obtain ⟨k', b⟩ := c
    have hr : From k rest := fun cell hc => h cell (by simp [hc])
    unfold writeByte
    split
    · exact from_consByte hk h
    · split
      · exact from_consByte hk hr
      · intro cell hc
        rcases List.mem_cons.mp hc with rfl | hc
        · exact h _ (by simp)
        · exact ih hr cell hc

theorem wf_consByte {a : Nat} {v : Byte} {rest : Memory} (h : From (a + 1) rest)
    (hw : wf rest = true) : wf (consByte a v rest) = true := by
  unfold consByte; split
  · exact hw
  · next hv => exact wf_cons.mpr ⟨hv, h, hw⟩

/-- A write keeps the canonical form. -/
theorem wf_writeByte (m : Memory) (a : Nat) (v : Byte) (h : wf m = true) :
    wf (writeByte m a v) = true := by
  induction m with
  | nil => exact wf_consByte (by intro _ h; cases h) rfl
  | cons c rest ih =>
    obtain ⟨k, b⟩ := c
    obtain ⟨hb, hf, hw⟩ := wf_cons.mp h
    unfold writeByte
    split
    · next hak =>
      refine wf_consByte ?_ h
      intro cell hc
      rcases List.mem_cons.mp hc with rfl | hc
      · exact hak
      · have := hf cell hc; omega
    · split
      · next hak => subst hak; exact wf_consByte hf hw
      · next h1 h2 => exact wf_cons.mpr ⟨hb, from_writeByte (by omega) hf, ih hw⟩

/-- A store keeps the canonical form. -/
theorem wf_writeLE (m : Memory) (a n : Nat) (v : Word) (h : wf m = true) :
    wf (writeLE m a n v) = true := by
  induction n generalizing m a v with
  | zero => exact h
  | succ n ih => exact ih _ _ _ (wf_writeByte m a _ h)

/-- Loading bytes keeps the canonical form. -/
theorem wf_loadBytes (limit : Nat) (m : Memory) (a : Nat) (bytes : List Byte) (h : wf m = true) :
    wf (loadBytes limit m a bytes) = true := by
  induction bytes generalizing m a with
  | nil => exact h
  | cons b rest ih =>
    unfold loadBytes
    split
    · exact ih _ _ (wf_writeByte m a b h)
    · exact ih _ _ h

/-- Every listed address of a memory is below `limit`. -/
def Below (limit : Nat) (m : Memory) : Prop := ∀ cell ∈ m, cell.1 < limit

theorem below_consByte {limit a : Nat} {v : Byte} {rest : Memory} (ha : a < limit)
    (h : Below limit rest) : Below limit (consByte a v rest) := by
  unfold consByte; split
  · exact h
  · intro cell hc
    rcases List.mem_cons.mp hc with rfl | hc
    · exact ha
    · exact h cell hc

theorem below_writeByte {limit : Nat} {m : Memory} {a : Nat} {v : Byte} (ha : a < limit)
    (h : Below limit m) : Below limit (writeByte m a v) := by
  induction m with
  | nil => exact below_consByte ha h
  | cons c rest ih =>
    obtain ⟨k, b⟩ := c
    have hr : Below limit rest := fun cell hc => h cell (by simp [hc])
    unfold writeByte
    split
    · exact below_consByte ha h
    · split
      · exact below_consByte ha hr
      · intro cell hc
        rcases List.mem_cons.mp hc with rfl | hc
        · exact h _ (by simp)
        · exact ih hr cell hc

/-- A store inside the memory lists no byte outside it. -/
theorem below_writeLE {limit : Nat} {m : Memory} {a n : Nat} {v : Word} (ha : a + n ≤ limit)
    (h : Below limit m) : Below limit (writeLE m a n v) := by
  induction n generalizing m a v with
  | zero => exact h
  | succ n ih => exact ih (by omega) (below_writeByte (by omega) h)

theorem below_loadBytes {limit : Nat} {m : Memory} {a : Nat} {bytes : List Byte}
    (h : Below limit m) : Below limit (loadBytes limit m a bytes) := by
  induction bytes generalizing m a with
  | nil => exact h
  | cons b rest ih =>
    unfold loadBytes
    split
    · next ha => exact ih (below_writeByte ha h)
    · exact ih h

/-- Loading bytes leaves every byte outside them, or at or past the limit, alone. -/
theorem readByte_loadBytes_outside (limit : Nat) (m : Memory) (a x : Nat) (bytes : List Byte)
    (hx : x < a ∨ a + bytes.length ≤ x ∨ limit ≤ x) :
    readByte (loadBytes limit m a bytes) x = readByte m x := by
  induction bytes generalizing m a with
  | nil => rfl
  | cons b rest ih =>
    simp only [List.length_cons] at hx
    unfold loadBytes
    rw [ih _ _ (by omega)]
    split
    · exact readByte_writeByte_ne _ _ _ _ (by omega)
    · rfl

/-- A loaded byte below the limit reads back. -/
theorem readByte_loadBytes_inside (limit : Nat) (m : Memory) (a k : Nat) (bytes : List Byte)
    (h : wf m = true) (hk : k < bytes.length) (hl : a + k < limit) :
    readByte (loadBytes limit m a bytes) (a + k) = bytes[k] := by
  induction bytes generalizing m a k with
  | nil => simp at hk
  | cons b rest ih =>
    unfold loadBytes
    rw [if_pos (by omega)]
    cases k with
    | zero =>
      rw [readByte_loadBytes_outside _ _ _ _ _ (by omega)]
      exact readByte_writeByte_self m a b h
    | succ k =>
      rw [show a + (k + 1) = a + 1 + k by omega]
      exact ih _ _ _ (wf_writeByte m a b h) (by simpa using hk) (by omega)

/-- A store leaves every byte outside `a..a+n-1` alone. -/
theorem readByte_writeLE_outside (m : Memory) (a n x : Nat) (v : Word)
    (hx : x < a ∨ a + n ≤ x) : readByte (writeLE m a n v) x = readByte m x := by
  induction n generalizing m a v with
  | zero => rfl
  | succ n ih =>
    unfold writeLE
    rw [ih _ _ _ (by omega), readByte_writeByte_ne _ _ _ _ (by omega)]

/-- A store puts byte `k` of the value at `a + k` (R82). -/
theorem readByte_writeLE_inside (m : Memory) (a n k : Nat) (v : Word) (h : wf m = true)
    (hk : k < n) : readByte (writeLE m a n v) (a + k) = (v >>> (8 * k)).setWidth 8 := by
  induction n generalizing m a v k with
  | zero => omega
  | succ n ih =>
    unfold writeLE
    cases k with
    | zero =>
      rw [readByte_writeLE_outside _ _ _ _ _ (by omega)]
      simpa using readByte_writeByte_self m a (v.setWidth 8) h
    | succ k =>
      have := ih (writeByte m a (v.setWidth 8)) (a + 1) k (v >>> 8) (wf_writeByte m a _ h) (by omega)
      rw [show a + (k + 1) = a + 1 + k by omega, this, ← BitVec.shiftRight_add,
        show 8 + 8 * k = 8 * (k + 1) by omega]

/-- A read of `n` bytes depends only on those bytes. -/
theorem readLE_congr {m m' : Memory} {a n : Nat}
    (h : ∀ x, a ≤ x → x < a + n → readByte m x = readByte m' x) :
    readLE m a n = readLE m' a n := by
  induction n generalizing a with
  | zero => rfl
  | succ n ih =>
    unfold readLE
    rw [h a (by omega) (by omega), ih fun x h1 h2 => h x (by omega) (by omega)]

/-- A store leaves a disjoint read alone. -/
theorem readLE_writeLE_disjoint (m : Memory) (a n b k : Nat) (v : Word)
    (h : b + k ≤ a ∨ a + n ≤ b) : readLE (writeLE m a n v) b k = readLE m b k :=
  readLE_congr fun _ _ _ => readByte_writeLE_outside m a n _ v (by omega)

end Memory

end Sys2Proof.Machine
end

