-- ==== Sys2Proof/Laws/Register.lean ====
section
/-! SUPPORT. The register file: reading after writing (R30), and what leaves the registers alone. -/

namespace Sys2Proof.Machine

/-- x0 reads 0 in every state. -/
@[simp] theorem State.readReg_zero (s : State) : s.readReg 0#5 = 0#32 := rfl

/-- A write to x0 is discarded. -/
@[simp] theorem State.writeReg_zero (s : State) (v : Word) : s.writeReg 0#5 v = s := rfl

/-- Reading a register depends on RF alone. -/
theorem State.readReg_congr {s t : State} (h : s.rf = t.rf) (r : RegIdx) :
    s.readReg r = t.readReg r := by
  simp only [State.readReg, h]

/-- Reading the register written gives the value, unless it is x0. -/
theorem State.readReg_writeReg_self (s : State) (r : RegIdx) (v : Word) (h : r ≠ 0#5) :
    (s.writeReg r v).readReg r = v := by
  simp [State.readReg, State.writeReg, h]

/-- Writing a register leaves every other one alone. -/
theorem State.readReg_writeReg_ne (s : State) (r q : RegIdx) (v : Word) (h : q ≠ r) :
    (s.writeReg r v).readReg q = s.readReg q := by
  have hn : ¬ r.toNat = q.toNat := fun e => h (BitVec.eq_of_toNat_eq e.symm)
  unfold State.readReg State.writeReg
  by_cases hq : q = 0#5
  · simp [hq]
  · by_cases hr : r = 0#5
    · simp [hr]
    · simp [hq, hr, hn]

/-- Reading after writing, in one equation. -/
theorem State.readReg_writeReg (s : State) (r q : RegIdx) (v : Word) :
    (s.writeReg r v).readReg q = if q = r then (if r = 0#5 then 0#32 else v) else s.readReg q := by
  by_cases hq : q = r
  · subst hq
    by_cases h0 : q = 0#5
    · subst h0; simp
    · simp [h0, State.readReg_writeReg_self s q v h0]
  · simp [hq, State.readReg_writeReg_ne s r q v hq]

@[simp] theorem State.readReg_jumpTo (s : State) (v : Word) (r : RegIdx) :
    (s.jumpTo v).readReg r = s.readReg r := rfl

@[simp] theorem State.readReg_advance (s : State) (r : RegIdx) :
    s.advance.readReg r = s.readReg r := rfl

@[simp] theorem State.readReg_redirect (s : State) (v : Word) (r : RegIdx) :
    (s.redirect v).readReg r = s.readReg r := rfl

@[simp] theorem State.readReg_raiseFault (s : State) (k : FaultKind) (a : Word) (r : RegIdx) :
    (s.raiseFault k a).readReg r = s.readReg r := rfl

@[simp] theorem State.readReg_exit (s : State) (r : RegIdx) : s.exit.readReg r = s.readReg r := rfl

@[simp] theorem State.readReg_emitRequest (s : State) (q : HostRequest) (r : RegIdx) :
    (s.emitRequest q).readReg r = s.readReg r := rfl

@[simp] theorem State.readReg_emitDiagnostic (s : State) (d : Diagnostic) (r : RegIdx) :
    (s.emitDiagnostic d).readReg r = s.readReg r := rfl

@[simp] theorem State.readReg_accessCache (s : State) (a : Word) (r : RegIdx) :
    (s.accessCache a).readReg r = s.readReg r := State.readReg_congr (by simp) r

@[simp] theorem State.readReg_applyStore (s : State) (w : Option StoreRequest) (r : RegIdx) :
    (s.applyStore w).readReg r = s.readReg r := State.readReg_congr (by simp) r

/-- The storage behind x0 stays 0. -/
theorem State.RegsOk_writeReg {s : State} (h : s.rf[0] = 0#32) (r : RegIdx) (v : Word) :
    (s.writeReg r v).rf[0] = 0#32 := by
  unfold State.writeReg
  split
  · exact h
  · next hr =>
    have hn : ¬ r.toNat = 0 := fun e => hr (BitVec.eq_of_toNat_eq e)
    simp [hn, h]

/-- The register view of Decode on x0 (R603). -/
@[simp] theorem State.rfView_zero (s : State) : s.rfView 0#5 = 0#32 := rfl

end Sys2Proof.Machine
end

