-- ==== Sys2Proof/Laws/Staged.lean ====
section
/-! SUPPORT. The stages one record passes alone (`IfId.stagedAlone`) give the shared shapes of the
sequential
meanings, and respect `ArchEq`. -/

namespace Sys2Proof.Machine

/-! ### The shapes of the meanings -/

/-- The assembled immediate of `srai` shifts by its shift amount (R151). -/
theorem shiftAmount_shamt (sh : BitVec 5) : shiftAmount (0x400#32 + shamtWord sh) = shiftAmount
    (shamtWord sh) := by
  revert sh; decide

/-- The access the Memory stage requests is the one the sequential meaning makes. -/
theorem applyAccess_accessFor (u t : State) (a : Word) (h : t.cfg = u.cfg) : t.applyAccess
    (u.accessFor a) = t.accessCache a := by
  unfold State.accessFor State.accessCache
  rw [h]
  split
  · next hc => simp [State.applyAccess, State.accessCache, h, hc]
  · rfl

/-- A load. -/
theorem staged_load (n : Width) (rd rs1 imm) (u : State) (f : IfId) (i : Instr) (hf : f.fault =
    none) (hd : f.dec = .admitted i)
   (h1 : i.source1 = some rs1) (hc : i.ctrl = Ctrl.load n) (hr : i.destReg = rd) (hi : i.immediate
       = sext12 imm) :
    load n rd rs1 imm u = .next (f.stagedAlone u) := by
  have ha : (f.executedBy u).aluResult = effectiveAddress (u.readReg rs1) imm := by
    simp [IfId.executedBy, IfId.readBy, IdEx.executeWith, IfId.decodeWith, IdEx.aluResult, hd,
        Decoded.ctrl, hc, Ctrl.load, operandA, operandB, Decoded.source1, h1, Decoded.immediate,
            hi, effectiveAddress, alu, aluAdd, Ctrl.zero]
  have hfa : (f.executedBy u).fault = none := hf
  have hct : (f.executedBy u).ctrl = Ctrl.load n := by
    show f.dec.ctrl = _
    rw [hd]; exact hc
  have hrd : (f.executedBy u).rd = rd := by
    show f.dec.destReg = _
    rw [hd]; exact hr
  have ho : (f.readBy u).outcome (f.readBy u).v1 (f.readBy u).v2 = none := by
    simp [IdEx.outcome, IfId.readBy, IfId.decodeWith, hd, Decoded.ctrl, hc, Ctrl.load, Ctrl.zero]
  unfold load IfId.stagedAlone
  simp only [State.memoryOf, hfa, hct, ha, ho]
  cases hm : u.memRead (effectiveAddress (u.readReg rs1) imm) n.bytes with
  | none => simp [Ctrl.load, ExMem.faulted, ha, hm]
  | some raw =>
    simp only [Ctrl.load, hm]
    simp [ExMem.loaded, ExMem.passOn, hfa, hct, hrd, Ctrl.load, Ctrl.zero, MemWb.wbValue,
        applyAccess_accessFor, State.applyStore, State.advance, State.jumpTo]

/-- A store. -/
theorem staged_store (n : Width) (rs1 rs2 imm) (u : State) (f : IfId) (i : Instr) (hf : f.fault =
    none) (hd : f.dec = .admitted i)
   (h1 : i.source1 = some rs1) (h2 : i.source2 = some rs2) (hc : i.ctrl = Ctrl.store n) (hi :
       i.immediate = sext12 imm) :
    store n rs1 rs2 imm u = .next (f.stagedAlone u) := by
  have ha : (f.executedBy u).aluResult = effectiveAddress (u.readReg rs1) imm := by
    simp [IfId.executedBy, IfId.readBy, IdEx.executeWith, IfId.decodeWith, IdEx.aluResult, hd,
        Decoded.ctrl, hc, Ctrl.store, operandA, operandB, Decoded.source1, h1, Decoded.immediate,
            hi, effectiveAddress, alu, aluAdd, Ctrl.zero]
  have hs : (f.executedBy u).storeData = u.readReg rs2 := by
    simp [IfId.executedBy, IfId.readBy, IdEx.executeWith, IfId.decodeWith, hd, Decoded.source2, h2]
  have hfa : (f.executedBy u).fault = none := hf
  have hct : (f.executedBy u).ctrl = Ctrl.store n := by
    show f.dec.ctrl = _
    rw [hd]; exact hc
  have ho : (f.readBy u).outcome (f.readBy u).v1 (f.readBy u).v2 = none := by
    simp [IdEx.outcome, IfId.readBy, IfId.decodeWith, hd, Decoded.ctrl, hc, Ctrl.store, Ctrl.zero]
  unfold store IfId.stagedAlone
  simp only [State.memoryOf, hfa, hct, ha, ho, hs]
  by_cases hir : u.inRange (effectiveAddress (u.readReg rs1) imm) n.bytes
  · simp [State.memRead, State.memWrite, hir, ExMem.passOn, hfa, hct, ha, hs, Ctrl.store,
      Ctrl.zero, ExMem.storeRequest, applyAccess_accessFor, State.applyStore, State.advance,
          State.jumpTo]
  · simp [State.memRead, State.memWrite, hir, Ctrl.store, ExMem.faulted, ha, Ctrl.zero]

/-- A branch. -/
theorem staged_branch (b : Bool) (off) (rs1 rs2) (sel : AluSel) (u : State) (f : IfId) (i : Instr)
    (hf : f.fault = none) (hd : f.dec = .admitted i)
   (hpc : f.pc = u.pc)
   (h1 : i.source1 = some rs1) (h2 : i.source2 = some rs2) (hc : i.ctrl = Ctrl.ofBranch sel) (hi :
       i.immediate = sext13 off)
   (hb : branchTaken i (zeroFlag (alu sel (u.readReg rs1) (u.readReg rs2))) = b) :
    branchOn b off u = .next (f.stagedAlone u) := by
  have hfa : (f.executedBy u).fault = none := hf
  have hct : (f.executedBy u).ctrl = Ctrl.ofBranch sel := by
    show f.dec.ctrl = _
    rw [hd]; exact hc
  have ho : (f.readBy u).outcome (f.readBy u).v1 (f.readBy u).v2 = if b then some (pcRelative u.pc
      (sext13 off)) else none := by
    simp [IdEx.outcome, IfId.readBy, IfId.decodeWith, hd, Decoded.ctrl, hc, Ctrl.ofBranch,
        Ctrl.zero, IdEx.aluResult, Decoded.source1, Decoded.source2, h1, h2, operandA, operandB,
            hb, hpc, Decoded.immediate, hi]
  unfold branchOn IfId.stagedAlone
  simp only [State.memoryOf, hfa, hct, ho]
  cases b
  · simp [ExMem.passOn, hfa, hct, Ctrl.ofBranch, Ctrl.zero, State.applyAccess, State.applyStore,
      State.advance, State.jumpTo]
  · simp [ExMem.passOn, hfa, hct, Ctrl.ofBranch, Ctrl.zero, State.applyAccess, State.applyStore,
      State.redirect, State.jumpTo]

/-- An instruction that writes an ALU result and moves on. -/
theorem staged_alu (rd : RegIdx) (v : Word) (u : State) (f : IfId) (i : Instr) (hf : f.fault =
    none) (hd : f.dec = .admitted i)
   (hr : i.destReg = rd) (c : Ctrl) (hcc : c = { Ctrl.zero with regWrite := true, aluA := c.aluA, aluB := c.aluB, aluSel := c.aluSel }) (hc : i.ctrl = c)
   (hv : (f.readBy u).aluResult (f.readBy u).v1 (f.readBy u).v2 = v) :
    (Host.Outcome.next (u.writeReg rd v).advance : Result) = .next (f.stagedAlone u) := by
  have hfa : (f.executedBy u).fault = none := hf
  have hct : (f.executedBy u).ctrl = c := by
    show f.dec.ctrl = _
    rw [hd]; exact hc
  have hrd : (f.executedBy u).rd = rd := by
    show f.dec.destReg = _
    rw [hd]; exact hr
  have hrr : (f.executedBy u).aluResult = v := hv
  have ho : (f.readBy u).outcome (f.readBy u).v1 (f.readBy u).v2 = none := by
    simp only [IdEx.outcome, IfId.readBy, IfId.decodeWith, hd, Decoded.ctrl, hc]
    rw [hcc]; simp [Ctrl.zero]
  unfold IfId.stagedAlone
  simp only [State.memoryOf, hfa, hct, ho]
  rw [hcc]
  simp [ExMem.passOn, hfa, hct, hrd, hrr, Ctrl.zero, State.applyAccess, State.applyStore,
      State.advance, State.jumpTo, MemWb.wbValue]
  rw [hcc]
  simp [Ctrl.zero]

/-- A jump. -/
theorem staged_jump (rd : RegIdx) (tgt : Word) (u : State) (f : IfId) (i : Instr) (hf : f.fault =
    none) (hd : f.dec = .admitted i) (hpc : f.pc = u.pc)
   (hr : i.destReg = rd) (a : AluA) (hc : i.ctrl = Ctrl.ofJump a)
   (hv : (f.readBy u).outcome (f.readBy u).v1 (f.readBy u).v2 = some tgt) :
    (Host.Outcome.next ((u.writeReg rd (linkValue u.pc)).redirect tgt) : Result) = .next
        (f.stagedAlone u) := by
  have hfa : (f.executedBy u).fault = none := hf
  have hct : (f.executedBy u).ctrl = Ctrl.ofJump a := by
    show f.dec.ctrl = _
    rw [hd]; exact hc
  have hrd : (f.executedBy u).rd = rd := by
    show f.dec.destReg = _
    rw [hd]; exact hr
  have hl : (f.executedBy u).link = linkValue u.pc := by rw [← hpc]; rfl
  unfold IfId.stagedAlone
  simp only [State.memoryOf, hfa, hct, hv]
  simp [ExMem.passOn, hfa, hct, hrd, hl, Ctrl.ofJump, Ctrl.zero, State.applyAccess,
      State.applyStore, State.redirect, State.jumpTo, MemWb.wbValue]

/-- An invalid record (R455). -/
theorem staged_invalid (raw : Word) (u : State) :
    execInvalid raw u = .next (IfId.stagedAlone ⟨u.pc, raw, .invalid, none⟩ u) := by
  rfl

/-- The record of a failed fetch (R503). -/
theorem staged_faultRecord (u : State) (tag : FaultTag) :
    IfId.stagedAlone ⟨u.pc, 0, .faultRecord, some tag⟩ u = u.raiseFault tag.kind tag.addr := by
  rfl

/-! ### What each function depends on -/

/-- `ArchEq` is reflexive. -/
theorem ArchEq.refl (u : State) : ArchEq u u := ⟨rfl, rfl, rfl, rfl, rfl, rfl, rfl, rfl, rfl, rfl,
    rfl, fun _ => rfl⟩

/-- `MemRead` depends on the memory and its size. -/
theorem memRead_congr {u v : State} (hm : u.mem = v.mem) (hc : u.cfg = v.cfg) : u.memRead =
    v.memRead := by
  funext a n; unfold State.memRead State.inRange; rw [hm, hc]

/-- So does the Memory stage. -/
theorem memoryOf_congr {u v : State} (hm : u.mem = v.mem) (hc : u.cfg = v.cfg) (r : ExMem) :
    u.memoryOf r = v.memoryOf r := by
  have : u.memRead = v.memRead := memRead_congr hm hc
  simp only [State.memoryOf, State.accessFor, this, hc]

/-- So does a fetch. -/
theorem fetchAt_congr {u v : State} (hm : u.mem = v.mem) (hc : u.cfg = v.cfg) (pc : Word) :
    u.fetchAt pc = v.fetchAt pc := by
  have : (u.jumpTo pc).memRead = (v.jumpTo pc).memRead := memRead_congr hm hc
  simp only [State.fetchAt, State.fetchStage, State.fetchWord, this, State.jumpTo_pc]

/-- A cache access depends on the configuration and the cache with its counters. -/
theorem applyAccess_arch {u v : State} (hc : u.cfg = v.cfg) (hk : u.cache = v.cache) (h1 :
    u.stats.hits = v.stats.hits) (h2 : u.stats.misses = v.stats.misses) (h3 : u.stats.evictions =
        v.stats.evictions) (hr : u.cacheResults = v.cacheResults) (a : Option Word) :
   (u.applyAccess a).cache = (v.applyAccess a).cache ∧ (u.applyAccess a).stats.hits =
       (v.applyAccess a).stats.hits ∧ (u.applyAccess a).stats.misses = (v.applyAccess
           a).stats.misses ∧ (u.applyAccess a).stats.evictions = (v.applyAccess a).stats.evictions
               ∧ (u.applyAccess a).cacheResults = (v.applyAccess a).cacheResults := by
  cases a with
  | none => exact ⟨hk, h1, h2, h3, hr⟩
  | some a =>
    simp only [State.applyAccess, State.accessCache, hc, hk, hr]
    split
    · refine ⟨rfl, ?_, ?_, ?_, rfl⟩ <;> (simp only [Stats.countAccess]; split <;> simp [h1, h2, h3])
    · exact ⟨hk, h1, h2, h3, hr⟩

/-- A store depends on the memory. -/
theorem applyStore_mem {u v : State} (hm : u.mem = v.mem) (w : Option StoreRequest) : (u.applyStore
    w).mem = (v.applyStore w).mem := by
  cases w <;> simp [State.applyStore, hm]

/-- A register write depends on RF. -/
theorem writeReg_rf {u v : State} (h : u.rf = v.rf) (r : RegIdx) (x : Word) : (u.writeReg r x).rf =
    (v.writeReg r x).rf := by
  simp only [State.writeReg]; split <;> simp [h]

/-- The host request depends on RF. -/
theorem requestOf_congr {u v : State} (h : u.rf = v.rf) : u.requestOf = v.requestOf := by
  simp only [State.requestOf, State.readReg_congr h]

/-- The exit test depends on RF and the configuration. -/
theorem exitRequested_congr {u v : State} (h : u.rf = v.rf) (hc : u.cfg = v.cfg) : u.exitRequested
    = v.exitRequested := by
  simp only [State.exitRequested, State.readReg_congr h, hc]

/-- The operands read depend on RF. -/
theorem readBy_congr {u v : State} (h : u.rf = v.rf) (f : IfId) : f.readBy u = f.readBy v := by
  have : u.readReg = v.readReg := funext (State.readReg_congr h)
  simp only [IfId.readBy, this]

/-- So does the executed record. -/
theorem executedBy_congr {u v : State} (h : u.rf = v.rf) (f : IfId) : f.executedBy u = f.executedBy
    v := by
  simp only [IfId.executedBy, readBy_congr h]

/-- Architecturally equal running states stay equal. -/
theorem stagedAlone_arch {u v : State} (h : ArchEq u v) (hrun : u.run = .running) (f : IfId) :
    ArchEq (f.stagedAlone u) (f.stagedAlone v) := by
  have hpc := h.pc hrun
  have hm := memoryOf_congr h.mem h.cfg (f.executedBy u)
  simp only [IfId.stagedAlone, executedBy_congr h.rf f ▸ hm, readBy_congr h.rf f,
      exitRequested_congr h.rf h.cfg, requestOf_congr h.rf, hpc]
  rw [executedBy_congr h.rf f] at hm
  rw [executedBy_congr h.rf f, hm]
  generalize v.memoryOf (f.executedBy v) = m
  obtain ⟨hc, hrf, hme, hk, h1, h2, h3, hru, hq, hd, hcr, _⟩ := h
  split
  · exact ⟨hc, hrf, hme, hk, h1, h2, h3, rfl, hq, hd, hcr, fun _ => hpc⟩
  · obtain ⟨a1, a2, a3, a4, a5⟩ := applyAccess_arch (u := u.applyStore m.write) (v := v.applyStore
      m.write) (by simp [hc]) (by simp [hk]) (by simp [h1]) (by simp [h2]) (by simp [h3]) (by simp
          [hcr]) m.access
    have b1 := applyStore_mem hme m.write
    have b2 := @writeReg_rf ((u.applyStore m.write).applyAccess m.access) ((v.applyStore
        m.write).applyAccess m.access) (by simp [hrf])
    cases m.out.ctrl.regWrite <;> cases m.out.ctrl.trap <;> cases m.out.ctrl.invalid <;>
      constructor <;> simp [hc, hrf, hk, hru, hq, hd, hcr, a1, a2, a3, a4, a5, b1, b2]

end Sys2Proof.Machine
end

