-- ==== Sys2Proof/Laws/Pipeline.lean ====
section
/-! SUPPORT. What a commit leaves in each field, in terms of `archView`, and everything the Memory
stage can do
with a record. -/

namespace Sys2Proof.Machine

/-! ### The commit -/

/-- The view keeps the configuration. -/
@[simp] theorem archView_cfg (s : State) : s.archView.cfg = s.cfg := by simp [State.archView]

/-- The view keeps the memory. -/
@[simp] theorem archView_mem (s : State) : s.archView.mem = s.mem := by simp [State.archView]

/-- The view stands at the oldest instruction not past Memory. -/
@[simp] theorem archView_pc (s : State) : s.archView.pc = s.oldestPc := by simp [State.archView]

/-- A commit keeps the configuration. -/
@[simp] theorem commit_cfg (s : State) : s.commit.cfg = s.cfg := by simp [State.commit]

/-- RF after a commit is RF of the view. -/
theorem commit_rf (s : State) : s.commit.rf = s.archView.rf := by
  simp [State.commit, State.archView]

/-- MEM after a commit. -/
theorem commit_mem (s : State) : s.commit.mem = (s.archView.applyStore s.storeRequest).mem := by
  simp only [State.commit, State.applyDiagnostic_mem, State.applyRequest_mem, State.applyAccess_mem]
  exact applyStore_mem (by simp [State.archView]) _

/-- The cache and its counters after a commit. -/
theorem commit_access (s : State) : s.commit.cache = (s.archView.applyAccess s.accessRequest).cache
   ∧ s.commit.stats.hits = (s.archView.applyAccess s.accessRequest).stats.hits
   ∧ s.commit.stats.misses = (s.archView.applyAccess s.accessRequest).stats.misses
   ∧ s.commit.stats.evictions = (s.archView.applyAccess s.accessRequest).stats.evictions
   ∧ s.commit.cacheResults = (s.archView.applyAccess s.accessRequest).cacheResults := by
  have := applyAccess_arch (u := (s.applyRfWrite s.rfWrite).applyStore s.storeRequest) (v :=
      s.archView) (by simp [State.archView]) (by simp [State.archView]) (by simp [State.archView])
          (by simp [State.archView]) (by simp [State.archView]) (by simp [State.archView])
              s.accessRequest
  simpa [State.commit, State.countCycle] using this

/-- The host requests after a commit. -/
theorem commit_hostRequests (s : State) : s.commit.hostRequests = s.archView.hostRequests := by
  simp only [State.commit, State.archView, State.applyDiagnostic_hostRequests]
  cases s.wbRequest <;> simp [State.applyRequest]

/-- The diagnostics after a commit. -/
theorem commit_diagnostics (s : State) : s.commit.diagnostics = s.archView.diagnostics := by
  simp only [State.commit, State.archView]
  cases s.wbDiagnostic <;> simp [State.applyDiagnostic]

/-- A running view means: no fault retires, no exit retires, and the run goes on. -/
theorem archView_running {s : State} (h : s.archView.run = .running) : s.wbFault = none ∧ s.wbExit
    = false ∧ s.run = .running := by
  have h' : s.pendingRun = .running := h
  unfold State.pendingRun at h'
  split at h'
  · cases h'
  · next hf =>
    split at h'
    · cases h'
    · next he => exact ⟨hf, by simpa using he, h'⟩

/-- RUN after a commit under a running view. -/
theorem commit_run {s : State} (h : s.archView.run = .running) : s.commit.run = .running := by
  obtain ⟨h1, h2, h3⟩ := archView_running h
  simp [State.commit, h2, h3]

/-! ### The view by what MEM/WB holds -/

/-- Nothing retires. -/
theorem archView_bubble {t : State} (h : t.memwb = .bubble) :
    t.archView = { t with pc := t.oldestPc, ifid := .bubble, idex := .bubble, exmem := .bubble, memwb := .bubble } := by
  simp [State.archView, State.rfWrite, State.retiring, h, State.applyRfWrite, State.wbRequest,
      State.wbDiagnostic, State.applyRequest, State.applyDiagnostic, State.pendingRun,
          State.wbFault, State.wbExit]

/-- A fault retires. -/
theorem archView_fault {t : State} {o : MemWb} {tag : FaultTag} (h : t.memwb = .occupied o) (ho :
    o.fault = some tag) :
    t.archView = { t with pc := t.oldestPc, ifid := .bubble, idex := .bubble, exmem := .bubble, memwb := .bubble, run := .faulted tag.kind tag.addr } := by
  simp [State.archView, State.rfWrite, State.retiring, h, ho, State.applyRfWrite, State.wbRequest,
      State.wbDiagnostic, State.applyRequest, State.applyDiagnostic, State.pendingRun,
          State.wbFault]

/-- A record without a fault retires. -/
theorem archView_retiring {t : State} {o : MemWb} (h : t.memwb = .occupied o) (ho : o.fault = none)
    :
    t.archView.rf = (if o.ctrl.regWrite then t.writeReg o.rd o.wbValue else t).rf
    ∧ t.archView.hostRequests = (if o.ctrl.trap then t.hostRequests ++ [t.requestOf] else
        t.hostRequests)
    ∧ t.archView.diagnostics = (if o.ctrl.invalid then t.diagnostics ++ [{ pc := o.pc, raw := o.raw }] else t.diagnostics)
    ∧ t.archView.run = (if o.ctrl.trap && t.exitRequested then .exited else t.run) := by
  have hr : t.retiring = some o := by simp [State.retiring, h, ho]
  refine ⟨?_, ?_, ?_, ?_⟩
  · simp only [State.archView, State.applyDiagnostic_rf, State.applyRequest_rf, State.rfWrite, hr]
    by_cases h0 : o.rd = 0#5 <;> cases o.ctrl.regWrite <;> simp [h0, State.applyRfWrite]
  · simp only [State.archView, State.applyDiagnostic_hostRequests, State.wbRequest, hr]
    cases o.ctrl.trap <;> simp [State.applyRequest]
  · simp only [State.archView, State.wbDiagnostic, hr]
    cases o.ctrl.invalid <;> simp [State.applyDiagnostic]
  · simp only [State.archView, State.pendingRun, State.wbFault, h, ho, State.wbExit, hr]

/-- What the record in MEM/WB does not touch any more. -/
theorem archView_other (t : State) : t.archView.cache = t.cache ∧ t.archView.stats = t.stats ∧
    t.archView.cacheResults = t.cacheResults := by
  simp [State.archView]

/-! ### The Memory stage -/

/-- Everything the Memory stage can do with a record (R612). -/
theorem memoryOf_cases (s : State) (r : ExMem) :
    (s.memoryOf r = ⟨r.passOn, none, none⟩ ∧ (r.fault.isSome = true ∨ r.ctrl.memRead = false ∧
        r.ctrl.memWrite = false))
    ∨ (s.memoryOf r = ⟨r.faulted, none, none⟩ ∧ r.fault = none ∧ (r.ctrl.memRead = true ∨
        r.ctrl.memWrite = true) ∧ s.memRead r.aluResult r.ctrl.width.bytes = none)
    ∨ (∃ raw, s.memoryOf r = ⟨r.loaded raw, none, s.accessFor r.aluResult⟩ ∧ r.fault = none ∧
        r.ctrl.memRead = true ∧ s.memRead r.aluResult r.ctrl.width.bytes = some raw)
    ∨ (∃ raw, s.memoryOf r = ⟨r.passOn, some r.storeRequest, s.accessFor r.aluResult⟩ ∧ r.fault =
        none ∧ r.ctrl.memRead = false ∧ r.ctrl.memWrite = true ∧ s.memRead r.aluResult
            r.ctrl.width.bytes = some raw) := by
  unfold State.memoryOf
  cases hf : r.fault with
  | some t => left; simp
  | none =>
    cases h1 : r.ctrl.memRead <;> cases h2 : r.ctrl.memWrite <;>
      cases hm : s.memRead r.aluResult r.ctrl.width.bytes <;> simp

/-- A record that leaves with a fault makes no access. -/
theorem memoryOf_fault {s : State} {r : ExMem} {tag} (h : (s.memoryOf r).out.fault = some tag) :
    (s.memoryOf r).write = none ∧ (s.memoryOf r).access = none := by
  rcases memoryOf_cases s r with ⟨e, _⟩ | ⟨e, _⟩ | ⟨raw, e, hf, _⟩ | ⟨raw, e, hf, _⟩ <;>
    rw [e] at h ⊢
  · simp
  · simp
  · rw [show (r.loaded raw).fault = r.fault from rfl, hf] at h; cases h
  · rw [show r.passOn.fault = r.fault from rfl, hf] at h; cases h

/-- The Memory stage keeps the pc. -/
theorem memoryOf_pc (s : State) (r : ExMem) : (s.memoryOf r).out.pc = r.pc := by
  rcases memoryOf_cases s r with ⟨e, _⟩ | ⟨e, _⟩ | ⟨raw, e, _⟩ | ⟨raw, e, _⟩ <;> rw [e] <;> rfl

/-- The Memory stage keeps the word. -/
theorem memoryOf_raw (s : State) (r : ExMem) : (s.memoryOf r).out.raw = r.raw := by
  rcases memoryOf_cases s r with ⟨e, _⟩ | ⟨e, _⟩ | ⟨raw, e, _⟩ | ⟨raw, e, _⟩ <;> rw [e] <;> rfl

/-- The Memory stage keeps the destination. -/
theorem memoryOf_rd (s : State) (r : ExMem) : (s.memoryOf r).out.rd = r.rd := by
  rcases memoryOf_cases s r with ⟨e, _⟩ | ⟨e, _⟩ | ⟨raw, e, _⟩ | ⟨raw, e, _⟩ <;> rw [e] <;> rfl

end Sys2Proof.Machine
end

