-- ==== Sys2Proof/Laws/Commute.lean ====
section
/-! SUPPORT. One commit, seen through `archView`, is the record in EX/MEM passing alone. -/

namespace Sys2Proof.Machine

/-- `ArchEq` without the pc. -/
structure ArchCore (u v : State) : Prop where
  cfg : u.cfg = v.cfg
  rf : u.rf = v.rf
  mem : u.mem = v.mem
  cache : u.cache = v.cache
  hits : u.stats.hits = v.stats.hits
  misses : u.stats.misses = v.stats.misses
  evictions : u.stats.evictions = v.stats.evictions
  run : u.run = v.run
  hostRequests : u.hostRequests = v.hostRequests
  diagnostics : u.diagnostics = v.diagnostics
  cacheResults : u.cacheResults = v.cacheResults

/-- With the pc it is `ArchEq`. -/
theorem ArchCore.withPc {u v : State} (h : ArchCore u v) (hp : u.run = .running → u.pc = v.pc) :
    ArchEq u v :=
  ⟨h.cfg, h.rf, h.mem, h.cache, h.hits, h.misses, h.evictions, h.run, h.hostRequests,
      h.diagnostics, h.cacheResults, hp⟩

/-- The commit of the record in EX/MEM, up to the pc. -/
theorem commuteCore (s : State) (hu : s.archView.run = .running) {r : ExMem} (hr : s.exmem =
    .occupied r) (f : IfId)
    (hc : r = f.executedBy s.archView) (hfpc : f.pc = s.archView.pc) :
    ArchCore s.commit.archView (f.stagedAlone s.archView) := by
  have hm : s.archView.memoryOf (f.executedBy s.archView) = s.memoryOf r := by
    rw [← hc]; exact memoryOf_congr (by simp) (by simp) r
  have hw : s.commit.memwb = .occupied (s.memoryOf r).out := by simp [State.commit, State.memOut,
      hr]
  have hsr : s.storeRequest = (s.memoryOf r).write := by simp [State.storeRequest, hr]
  have har : s.accessRequest = (s.memoryOf r).access := by simp [State.accessRequest, hr]
  have c1 := commit_rf s
  have c2 := commit_mem s
  obtain ⟨c3, c4, c5, c6, c7⟩ := commit_access s
  have c8 := commit_hostRequests s
  have c9 := commit_diagnostics s
  have c10 := commit_run hu
  obtain ⟨o1, o2, o3⟩ := archView_other s.commit
  rw [hsr] at c2
  rw [har] at c3 c4 c5 c6 c7
  unfold IfId.stagedAlone
  simp only [hm]
  cases hfl : (s.memoryOf r).out.fault with
  | some tag =>
    obtain ⟨w1, w2⟩ := memoryOf_fault hfl
    rw [w1] at c2; rw [w2] at c3 c4 c5 c6 c7
    rw [archView_fault hw hfl]
    exact ⟨by simp, c1, c2, c3, c4, c5, c6, rfl, c8, c9, c7⟩
  | none =>
    obtain ⟨v1, v2, v3, v4⟩ := archView_retiring hw hfl
    have e1 := exitRequested_congr (u := s.commit) (v := s.archView) c1 (by simp)
    have e2 := requestOf_congr (u := s.commit) (v := s.archView) c1
    have e3 := @writeReg_rf s.commit ((s.archView.applyStore (s.memoryOf r).write).applyAccess
        (s.memoryOf r).access) (by simp [c1])
    have hopc : (s.memoryOf r).out.pc = s.archView.pc := by
      have := memoryOf_pc s r
      rw [this, hc]; exact hfpc
    obtain ⟨a1, a2, a3, a4, a5⟩ := applyAccess_arch (u := s.archView.applyStore (s.memoryOf
        r).write) (v := s.archView) (by simp) (by simp) (by simp) (by simp) (by simp) (by simp)
            (s.memoryOf r).access
    cases h1 : (s.memoryOf r).out.ctrl.regWrite <;> cases h2 : (s.memoryOf r).out.ctrl.trap <;>
        cases h3 : (s.memoryOf r).out.ctrl.invalid <;>
      simp only [h1, h2, h3, if_true, if_false, Bool.false_eq_true, Bool.true_and, Bool.false_and]
          at v1 v2 v3 v4 ⊢ <;>
      (constructor <;> simp [o1, o2, o3, c1, c2, c3, c4, c5, c6, c7, c8, c9, c10, v1, v2, v3, v4,
          e1, e2, e3, hu, hopc, memoryOf_raw, a1, a2, a3, a4, a5])

/-- A commit with nothing in EX/MEM leaves the view. -/
theorem commute_bubble (s : State) (hu : s.archView.run = .running) (hr : s.exmem = .bubble)
    (hpc : s.commit.oldestPc = s.archView.pc) :
    ArchEq s.commit.archView s.archView := by
  have hw : s.commit.memwb = .bubble := by simp [State.commit, State.memOut, hr]
  have hsr : s.storeRequest = none := by simp [State.storeRequest, hr]
  have har : s.accessRequest = none := by simp [State.accessRequest, hr]
  have c1 := commit_rf s
  have c2 := commit_mem s
  obtain ⟨c3, c4, c5, c6, c7⟩ := commit_access s
  have c8 := commit_hostRequests s
  have c9 := commit_diagnostics s
  have c10 := commit_run hu
  rw [hsr] at c2; rw [har] at c3 c4 c5 c6 c7
  rw [archView_bubble hw]
  exact ⟨by simp, c1, c2, c3, c4, c5, c6, by simp [c10, hu], c8, c9, c7, fun _ => hpc⟩

/-- A fetched record carries its address. -/
theorem fetchAt_pc (s : State) (p : Word) : (s.fetchAt p).pc = p := by
  unfold State.fetchAt State.fetchStage; split <;> rfl

/-- The view after EX/MEM, in a coherent state. -/
theorem viewAfterExMem_eq {s : State} (hu : s.archView.run = .running) (hs : s.Coherent) {r : ExMem} (hr : s.exmem = .occupied r) :
    s.viewAfterExMem = (s.fetchAt s.archView.pc).stagedAlone s.archView := by
  have h := hs.exmem_record hu r hr
  unfold State.viewAfterExMem
  rw [hr]
  simp only
  rw [show r.fetched = s.fetchAt s.archView.pc by rw [h]; rfl]

/-- The address of the instruction in ID/EX, in a coherent state. -/
theorem idex_pc {s : State} (hu : s.archView.run = .running) (hs : s.Coherent) (hu1 :
    s.viewAfterExMem.run = .running) {q : IdEx} (hq : s.idex = .occupied q) :
   q.pc = s.viewAfterExMem.pc := by
  have := congrArg IdEx.pc (hs.idex_record hu hu1 q hq)
  simpa [IfId.readBy, IfId.decodeWith, fetchAt_pc] using this

/-- The view after ID/EX, in a coherent state. -/
theorem viewAfterIdEx_eq {s : State} (hu : s.archView.run = .running) (hs : s.Coherent) (hu1 :
    s.viewAfterExMem.run = .running) {q : IdEx} (hq : s.idex = .occupied q) :
    s.viewAfterIdEx = (s.fetchAt s.viewAfterExMem.pc).stagedAlone s.viewAfterExMem := by
  have h := hs.idex_record hu hu1 q hq
  have h' : q.fetched = s.fetchAt s.viewAfterExMem.pc := by
    have := congrArg IdEx.fetched h
    exact this
  unfold State.viewAfterIdEx
  rw [hq]
  simp only
  rw [h']

/-- The oldest pc after a commit. -/
theorem oldestPc_commit {s : State} (hu : s.archView.run = .running) (hs : s.Coherent) (hu1 :
    s.viewAfterExMem.run = .running) :
    s.commit.oldestPc = s.viewAfterExMem.pc := by
  obtain ⟨hf, he, hrun⟩ := archView_running hu
  cases hq : s.idex with
  | occupied q =>
    have : s.commit.exmem = .occupied (q.executeWith (s.fwd1 q) (s.fwd2 q)) := by
      simp [State.commit, State.executeStage, hq]
    simp only [State.oldestPc, this]
    exact idex_pc hu hs hu1 hq
  | bubble =>
    have ht : s.takenTarget = none := by simp [State.takenTarget, hq]
    have hst : s.stall = false := by simp [State.stall, hq]
    have hd : s.decision = .advance := by simp [State.decision, hf, ht, hst]
    have h2 : s.viewAfterIdEx = s.viewAfterExMem := by simp [State.viewAfterIdEx, hq]
    have hx : s.commit.exmem = .bubble := by simp [State.commit, State.executeStage, hq]
    cases hi : s.ifid with
    | occupied f =>
      have hx2 : s.commit.idex = .occupied (f.decodeWith s.rfView) := by
        simp [State.commit, State.nextIdex, hd, State.decodeStage, hi]
      simp only [State.oldestPc, hx, hx2]
      have := (hs.ifid_record hu hu1 (h2 ▸ hu1) ht f hi).1
      rw [this, h2]
      show (s.fetchAt s.viewAfterExMem.pc).pc = _
      exact fetchAt_pc _ _
    | bubble =>
      have hx2 : s.commit.idex = .bubble := by
        simp [State.commit, State.nextIdex, hd, State.decodeStage, hi]
      have hx3 : s.commit.ifid = .occupied s.fetchStage := by
        simp [State.commit, State.nextIfid, hd]
      simp only [State.oldestPc, hx, hx2, hx3]
      have := hs.fetch_pc hu hu1 (h2 ▸ hu1) ht hi
      rw [← h2, ← this]
      exact fetchAt_pc s s.pc

/-- The commit of the record in EX/MEM. -/
theorem commute (s : State) (hu : s.archView.run = .running) {r : ExMem} (hr : s.exmem = .occupied
    r) (f : IfId)
    (hc : r = f.executedBy s.archView) (hfpc : f.pc = s.archView.pc)
    (hpc : (f.stagedAlone s.archView).run = .running → s.commit.oldestPc = (f.stagedAlone
        s.archView).pc) :
    ArchEq s.commit.archView (f.stagedAlone s.archView) := by
  have h := commuteCore s hu hr f hc hfpc
  exact h.withPc fun hrun => by rw [archView_pc]; exact hpc (h.run ▸ hrun)

/-- One commit of a coherent state is the record in EX/MEM passing alone. -/
theorem archEq_commit {s : State} (hu : s.archView.run = .running) (hs : s.Coherent) :
    ArchEq s.commit.archView s.viewAfterExMem := by
  cases hr : s.exmem with
  | bubble =>
    have hv : s.viewAfterExMem = s.archView := by simp [State.viewAfterExMem, hr]
    rw [hv]
    exact commute_bubble s hu hr (by rw [← hv]; exact oldestPc_commit hu hs (hv ▸ hu))
  | occupied r =>
    have hv := viewAfterExMem_eq hu hs hr
    rw [hv]
    exact commute s hu hr _ (hs.exmem_record hu r hr) (fetchAt_pc _ _) fun h => by
      rw [← hv]
      exact oldestPc_commit hu hs (hv ▸ h)

end Sys2Proof.Machine
end

