-- ==== Sys2Proof/Laws/Forward.lean ====
section
/-! SUPPORT. Forwarding: the operand that Execute gets is the one the instructions before leave
(R603 to R605). -/

namespace Sys2Proof.Machine

/-- The view's registers, by the write of this cycle. -/
theorem archView_readReg (t : State) (r : RegIdx) :
    t.archView.readReg r = (t.applyRfWrite t.rfWrite).readReg r :=
  State.readReg_congr (by simp [State.archView]) r

/-- Decode's view of a register is the view's, when the write of this cycle is seen or goes
elsewhere. -/
theorem rfView_eq {t : State} {r : RegIdx}
    (h : t.cfg.rfWriteFirst = true ∨ ∀ q v, t.rfWrite = some (q, v) → q ≠ r) :
    t.rfView r = t.archView.readReg r := by
  rw [archView_readReg]
  unfold State.rfView
  by_cases h0 : r = 0#5
  · subst h0; simp
  · rw [if_neg h0]
    cases hw : t.rfWrite with
    | none => cases t.cfg.rfWriteFirst <;> rfl
    | some w =>
      obtain ⟨q, v⟩ := w
      have hq : q ≠ 0#5 := by
        unfold State.rfWrite at hw
        split at hw
        · cases hw
        · split at hw
          · next hc =>
            simp only [Option.some.injEq, Prod.mk.injEq] at hw; rw [← hw.1]; simp_all
          · cases hw
      simp only [State.applyRfWrite, State.readReg_writeReg]
      rcases h with h | h
      · rw [h]
        by_cases hqr : q = r
        · subst hqr; simp [hq]
        · simp [hqr, Ne.symm hqr]
      · have hqr := h q v hw
        cases t.cfg.rfWriteFirst <;> simp [hqr, Ne.symm hqr]

/-- Reading a register that MEM/WB may produce. -/
theorem archView_readReg_memwb {t : State} (hf : t.wbFault = none) (r : RegIdx) :
    t.archView.readReg r = (match t.memwb with
      | .bubble => t.readReg r
      | .occupied o => if o.produces r then o.wbValue else t.readReg r) := by
  rw [archView_readReg]
  unfold State.wbFault at hf
  cases hm : t.memwb with
  | bubble => simp [State.rfWrite, State.retiring, hm, State.applyRfWrite]
  | occupied o =>
    rw [hm] at hf
    have hf : o.fault = none := hf
    simp only [State.rfWrite, State.retiring, hm, hf]
    by_cases h0 : o.rd = 0#5
    · simp [h0, State.applyRfWrite, MemWb.produces]
    · cases hw : o.ctrl.regWrite
      · simp [State.applyRfWrite, MemWb.produces, hw]
      · simp only [Option.isNone_none, if_true, Bool.true_and, bne_iff_ne, ne_eq, h0,
          not_false_eq_true, State.applyRfWrite, State.readReg_writeReg, MemWb.produces, hw]
        by_cases hr : o.rd = r
        · subst hr; simp [h0]
        · simp [hr, Ne.symm hr]

/-- An instruction that writes a register is no store and no trap, and only a load writes memory
data. -/
theorem ctrl_regWrite (i : Instr) (h : i.ctrl.regWrite = true) : i.ctrl.memWrite = false ∧
    i.ctrl.trap = false ∧ (i.ctrl.memRead = false → i.ctrl.wbSel ≠ .mem) := by
  revert h
  cases i <;> simp [Instr.ctrl, Ctrl.zero, Ctrl.regReg, Ctrl.regImm, Ctrl.load, Ctrl.store,
      Ctrl.ofBranch, Ctrl.upper, Ctrl.ofJump]

/-- So for a decoded record. -/
theorem decoded_ctrl_regWrite (d : Decoded) (h : d.ctrl.regWrite = true) : d.ctrl.memWrite = false ∧
    d.ctrl.trap = false ∧ (d.ctrl.memRead = false → d.ctrl.wbSel ≠ .mem) := by
  cases d with
  | admitted i => exact ctrl_regWrite i h
  | invalid => cases h
  | faultRecord => cases h

/-- Reading a register after a record has passed. -/
theorem stagedAlone_readReg (f : IfId) (u : State) (hrun : (f.stagedAlone u).run = .running) (r :
    RegIdx) :
    (f.stagedAlone u).readReg r = if (u.memoryOf (f.executedBy u)).out.produces r then (u.memoryOf
        (f.executedBy u)).out.wbValue else u.readReg r := by
  revert hrun
  unfold IfId.stagedAlone
  simp only
  generalize hm : u.memoryOf (f.executedBy u) = m
  cases hfl : m.out.fault with
  | some tag => intro h; simp at h
  | none =>
    intro _
    simp only
    have key : ∀ (a b c : State) , ((if m.out.ctrl.invalid then (if m.out.ctrl.trap then
        a.emitRequest u.requestOf else a).emitDiagnostic {pc := m.out.pc, raw := m.out.raw} else (if
        m.out.ctrl.trap then a.emitRequest u.requestOf else a))).rf = a.rf := by
      intro a b c; split <;> split <;> rfl
    rw [State.readReg_congr (t := (if m.out.ctrl.regWrite = true then ((u.applyStore
        m.write).applyAccess m.access).writeReg m.out.rd m.out.wbValue else (u.applyStore
        m.write).applyAccess m.access)) (by simp only; exact key _ u u)]
    have hbase : ∀ r, ((u.applyStore m.write).applyAccess m.access).readReg r = u.readReg r := fun r
        => State.readReg_congr (by simp) r
    unfold MemWb.produces
    cases hw : m.out.ctrl.regWrite
    · simp [hbase]
    · simp only [if_true, State.readReg_writeReg, hbase, Bool.true_and]
      by_cases h0 : m.out.rd = 0#5
      · by_cases hr : r = 0#5
        · subst hr; simp [h0]
        · simp [h0, hr]
      · by_cases hr : r = m.out.rd
        · subst hr; simp [h0]
        · simp [hr, Ne.symm hr]

/-- What a passing record produces, when it is no load. -/
theorem memoryOf_produces {u : State} {e : ExMem} (hc : e.ctrl = e.dec.ctrl) (hnl : e.ctrl.memRead =
    false) (r : RegIdx) :
    (u.memoryOf e).out.produces r = e.produces r ∧ (e.produces r = true → (u.memoryOf e).out.wbValue
        = e.produced) := by
  by_cases hw : e.ctrl.regWrite = true
  · have h := decoded_ctrl_regWrite e.dec (hc ▸ hw)
    rw [← hc] at h
    have hm : (u.memoryOf e).out = e.passOn := by
      unfold State.memoryOf; simp [hnl, h.1]
    rw [hm]
    refine ⟨rfl, fun _ => ?_⟩
    have := h.2.2 hnl
    simp only [MemWb.wbValue, ExMem.produced, ExMem.passOn]
    cases hs : e.ctrl.wbSel <;> simp_all
  · have hw : e.ctrl.regWrite = false := by simpa using hw
    have : (u.memoryOf e).out.ctrl.regWrite = false := by
      rcases memoryOf_cases u e with ⟨h, _⟩ | ⟨h, _⟩ | ⟨raw, h, _⟩ | ⟨raw, h, _⟩ <;> rw [h] <;> simp
          [ExMem.passOn, ExMem.faulted, ExMem.loaded, hw]
    simp [MemWb.produces, ExMem.produces, this, hw]

/-- A record produces its destination only. -/
theorem memoryOf_produces_ne {u : State} {e : ExMem} {r : RegIdx} (hne : e.rd ≠ r) : (u.memoryOf
    e).out.produces r = false := by
  simp [MemWb.produces, memoryOf_rd, hne]

/-- Forwarding is right: with the record in EX/MEM that of the sequential run, and no load in it
whose result is wanted, an operand has the value the instructions before leave. -/
theorem fwd_correct {t : State} (hu : t.archView.run = .running) (hx : ∀ e, t.exmem = .occupied e →
    e = (e.fetched).executedBy t.archView)
    (hv : t.viewAfterExMem.run = .running) (r : RegIdx)
    (hnl : ∀ e, t.exmem = .occupied e → e.ctrl.memRead = true → e.rd ≠ r) :
    t.fwd true r (t.readReg r) = t.viewAfterExMem.readReg r := by
  have hf := (archView_running hu).1
  have hav := archView_readReg_memwb hf r
  have hmw : (if t.memWbProduces r then
      (match t.memwb with
        | .bubble => t.readReg r
        | .occupied o => o.wbValue)
      else t.readReg r) = t.archView.readReg r := by
    rw [hav]; unfold State.memWbProduces
    cases t.memwb <;> rfl
  cases he : t.exmem with
  | bubble =>
    have hv' : t.viewAfterExMem = t.archView := by simp [State.viewAfterExMem, he]
    rw [hv', ← hmw]
    have h1 : t.exMemProduces r = false := by simp [State.exMemProduces, he]
    unfold State.fwd State.fwdSource
    simp only [h1]
    cases t.memWbProduces r <;> (simp; try rfl)
  | occupied e =>
    have hv' : t.viewAfterExMem = e.fetched.stagedAlone t.archView
        := by simp [State.viewAfterExMem, he]
    have hex := hx e he
    have hread := stagedAlone_readReg e.fetched t.archView (hv' ▸ hv) r
    rw [← hex] at hread
    rw [hv', hread]
    have h1 : t.exMemProduces r = e.produces r := by simp [State.exMemProduces, he]
    have hce : e.ctrl = e.dec.ctrl := by rw [hex]; rfl
    cases hml : e.ctrl.memRead with
    | true =>
      have hne := hnl e he hml
      rw [memoryOf_produces_ne hne]
      have h2 : e.produces r = false := by simp [ExMem.produces, hne]
      simp only [Bool.false_eq_true, if_false]
      rw [← hmw]
      unfold State.fwd State.fwdSource
      simp only [h1, h2]
      cases t.memWbProduces r <;> (simp; try rfl)
    | false =>
      obtain ⟨p1, p2⟩ := memoryOf_produces (u := t.archView) hce hml r
      rw [p1]
      cases hp : e.produces r with
      | true =>
        rw [p2 hp]
        unfold State.fwd State.fwdSource
        simp [h1, hp, he]
      | false =>
        simp only [Bool.false_eq_true, if_false]
        rw [← hmw]
        unfold State.fwd State.fwdSource
        simp only [h1, hp]
        cases t.memWbProduces r <;> (simp; try rfl)

/-- A store that does not touch a word is apart from it. -/
theorem touches_false {w : StoreRequest} {p : Word} (h : w.touches p = false) : p.toNat + 4 ≤
    w.addr.toNat ∨ w.addr.toNat + w.bytes ≤ p.toNat := by
  simp only [StoreRequest.touches, Bool.and_eq_false_iff, decide_eq_false_iff_not] at h
  omega

/-- A commit leaves the words already fetched (R94). -/
theorem commit_fetchAt {s : State} (hz : s.storeHazardFree = true) {p : Word} (hp : p ∈
    s.fetchedPcs) :
    s.commit.fetchAt p = s.fetchAt p := by
  have hm : s.commit.mem = (s.applyStore s.storeRequest).mem := by
    rw [commit_mem]; exact applyStore_mem (by simp) _
  have h4 : s.commit.mem.readLE p.toNat 4 = s.mem.readLE p.toNat 4 := by
    rw [hm]
    unfold State.storeHazardFree at hz
    cases hw : s.storeRequest with
    | none => rfl
    | some w =>
      rw [hw] at hz
      have := List.all_eq_true.mp hz p hp
      have ht : w.touches p = false := by simpa using this
      exact Memory.readLE_writeLE_disjoint _ _ _ _ _ _ (touches_false ht)
  have : (s.commit.jumpTo p).fetchWord p = (s.jumpTo p).fetchWord p := by
    simp only [State.fetchWord, State.memRead, State.inRange, State.jumpTo_mem, State.jumpTo_cfg,
        h4, commit_cfg]
    rfl
  simp only [State.fetchAt, State.fetchStage, State.jumpTo_pc, this]

/-- Where a passing record leaves the pc. -/
theorem stagedAlone_pc {f : IfId} {u : State} (hrun : (f.stagedAlone u).run = .running) :
    (f.stagedAlone u).pc = ((f.readBy u).outcome (f.readBy u).v1 (f.readBy u).v2).getD (u.pc + 4) :=
        by
  revert hrun
  unfold IfId.stagedAlone
  simp only
  split
  · simp
  · simp only
    intro h
    split
    · next hx => rw [if_pos hx] at h; cases h
    · rfl


end Sys2Proof.Machine
end

