-- ==== Sys2Proof/Laws/Coherent.lean ====
section
/-! SUPPORT. A commit keeps the latches those of the sequential run. -/

namespace Sys2Proof.Machine

/-- The view after EX/MEM, after a commit, is the view after ID/EX. -/
theorem archEq_viewAfterExMem {s : State} (hu : s.archView.run = .running) (hs : s.Coherent) (h1 :
    s.viewAfterExMem.run = .running) :
    ArchEq s.commit.viewAfterExMem s.viewAfterIdEx := by
  have hr := archEq_commit hu hs
  have hur : s.commit.archView.run = .running := hr.run ▸ h1
  cases hq : s.idex with
  | bubble =>
    have : s.commit.exmem = .bubble := by simp [State.commit, State.executeStage, hq]
    simpa [State.viewAfterExMem, State.viewAfterIdEx, this, hq] using hr
  | occupied q =>
    have : s.commit.exmem = .occupied (q.executeWith (s.fwd1 q) (s.fwd2 q))
        := by simp [State.commit, State.executeStage, hq]
    have h2 : s.commit.viewAfterExMem = q.fetched.stagedAlone s.commit.archView := by
      unfold State.viewAfterExMem; rw [this]; rfl
    have h3 : s.viewAfterIdEx = q.fetched.stagedAlone s.viewAfterExMem := by
      unfold State.viewAfterIdEx; rw [hq]
    rw [h2, h3]
    exact stagedAlone_arch hr hur _

/-- When every latch advances. -/
theorem decision_advance {s : State} (hf : s.wbFault = none) (h : s.decision = .advance) :
    s.takenTarget = none ∧ s.stall = false := by
  unfold State.decision at h
  rw [hf] at h
  cases ht : s.takenTarget <;> cases hs : s.stall <;> simp_all

/-- When the front holds. -/
theorem decision_stall {s : State} (hf : s.wbFault = none) (h : s.decision = .stall) : s.takenTarget
    = none ∧ s.stall = true := by
  unfold State.decision at h
  rw [hf] at h
  cases ht : s.takenTarget <;> cases hs : s.stall <;> simp_all

/-- When a branch or jump is taken. -/
theorem decision_redirect {s : State} {t : Word} (hf : s.wbFault = none) (h : s.decision = .redirect
    t) : s.takenTarget = some t := by
  unfold State.decision at h
  rw [hf] at h
  cases ht : s.takenTarget <;> cases hs : s.stall <;> simp_all

/-- No faulting cycle without a fault. -/
theorem decision_nofault {s : State} (hf : s.wbFault = none) (tag : FaultTag) : s.decision ≠ .fault
    tag := by
  unfold State.decision
  rw [hf]
  cases ht : s.takenTarget <;> cases hs : s.stall <;> simp_all

/-- A commit keeps the state coherent, without hazards H1 and H2. -/
theorem coherent_commit {s : State} (hu : s.archView.run = .running) (hs : s.Coherent) (hh :
    s.rfHazardFree = true) (hz : s.storeHazardFree = true) :
    s.commit.Coherent := by
  obtain ⟨hf, he, hrun⟩ := archView_running hu
  have hr := archEq_commit hu hs
  -- fetched words are kept
  have hex : ∀ q, s.idex = .occupied q → s.commit.archView.run = .running →
      q.executeWith (s.fwd1 q) (s.fwd2 q) = (s.commit.fetchAt s.commit.archView.pc).executedBy
          s.commit.archView := by
    intro q hq h0
    have h1 : s.viewAfterExMem.run = .running := hr.run ▸ h0
    have hi := hs.idex_record hu h1 q hq
    have hpc := hr.pc h0
    have hqp := idex_pc hu hs h1 hq
    have hmem : s.viewAfterExMem.pc ∈ s.fetchedPcs := by
      simp [State.fetchedPcs, hq, hqp]
    rw [hpc, commit_fetchAt hz hmem, executedBy_congr hr.rf]
    unfold IfId.executedBy
    rw [← hi]
    rfl
  have part2 : s.commit.archView.run = .running → s.commit.viewAfterExMem.run = .running → ∀ q,
      s.commit.idex = .occupied q → { q with v1 := s.commit.fwd1 q, v2 := s.commit.fwd2 q } =
      (s.commit.fetchAt s.commit.viewAfterExMem.pc).readBy s.commit.viewAfterExMem := by
    intro h0 h1' q' hq'
    have h1 : s.viewAfterExMem.run = .running := hr.run ▸ h0
    have hv2 := archEq_viewAfterExMem hu hs h1
    have h2 : s.viewAfterIdEx.run = .running := hv2.run ▸ h1'
    have hnx : s.nextIdex = .occupied q' := hq'
    have hd : s.decision = .advance := by
      unfold State.nextIdex at hnx
      cases hd : s.decision with
      | fault tag => exact absurd hd (decision_nofault hf tag)
      | redirect t => rw [hd] at hnx; cases hnx
      | stall => rw [hd] at hnx; cases hnx
      | advance => rfl
    obtain ⟨ht, hst⟩ := decision_advance hf hd
    have hnd : s.decodeStage = .occupied q'
        := by unfold State.nextIdex at hnx; rw [hd] at hnx; exact hnx
    cases hi : s.ifid with
    | bubble => simp [State.decodeStage, hi] at hnd
    | occupied f =>
      have hq : q' = f.decodeWith s.rfView := by simp [State.decodeStage, hi] at hnd; exact hnd.symm
      have hff := (hs.ifid_record hu h1 h2 ht f hi).1
      have hpc : s.commit.viewAfterExMem.pc = s.viewAfterIdEx.pc := hv2.pc h1'
      have hmem : s.viewAfterIdEx.pc ∈ s.fetchedPcs := by
        have : f.pc = s.viewAfterIdEx.pc := by rw [hff]; exact fetchAt_pc _ _
        simp [State.fetchedPcs, hnx, hq, IfId.decodeWith, this]
      rw [hpc, commit_fetchAt hz hmem, ← hff]
      -- operands
      have hx : ∀ e, s.commit.exmem = .occupied e → e = (e.fetched).executedBy s.commit.archView :=
          by
        intro e hee
        cases hq : s.idex with
        | bubble => simp [State.commit, State.executeStage, hq] at hee
        | occupied q =>
          have h3 : e = q.executeWith (s.fwd1 q) (s.fwd2 q) := by
            simp [State.commit, State.executeStage, hq] at hee; exact hee.symm
          have h4 := hex q hq h0
          have h5 : e.fetched = s.commit.fetchAt s.commit.archView.pc := by rw [h3, h4]; rfl
          rw [h5, h3]; exact h4
      have hreg : ∀ r, f.dec.reads r = true → s.commit.fwd true r (s.rfView r) =
          s.commit.viewAfterExMem.readReg r := by
        intro r hrr
        have hwf : s.cfg.rfWriteFirst = true ∨ ∀ q v, s.rfWrite = some (q, v) → q ≠ r := by
          unfold State.rfHazardFree at hh
          rcases Bool.or_eq_true_iff.mp hh with hh | hh
          · exact .inl hh
          · refine .inr fun q v hqv e => ?_
            rw [hqv, hnx] at hh
            simp only [hq, IfId.decodeWith, e, hrr, Bool.not_true, Bool.false_eq_true] at hh
        rw [rfView_eq hwf, State.readReg_congr (commit_rf s).symm]
        refine fwd_correct h0 hx h1' r ?_
        intro e hee hml
        cases hq : s.idex with
        | bubble => simp [State.commit, State.executeStage, hq] at hee
        | occupied q =>
          have h3 : e = q.executeWith (s.fwd1 q) (s.fwd2 q) := by
            simp [State.commit, State.executeStage, hq] at hee; exact hee.symm
          intro hrd
          have hm : q.ctrl.memRead = true := by rw [h3] at hml; exact hml
          have hd' : q.rd = r := by rw [h3] at hrd; exact hrd
          have : s.stall = true := by simp [State.stall, hq, hi, hm, hd', hrr]
          rw [this] at hst; cases hst
      rw [hq]
      simp only [IfId.readBy, IfId.decodeWith, State.fwd1, State.fwd2, IdEx.mk.injEq, true_and,
          and_true]
      have hfalse : ∀ (t : State) (q : RegIdx) (v : Word), t.fwd false q v = v := fun t q v
          => by simp [State.fwd, State.fwdSource]
      constructor
      · cases h1s : f.dec.source1 with
        | none => simp [hfalse]
        | some r => simpa using hreg r (by simp [Decoded.reads, h1s])
      · cases h1s : f.dec.source2 with
        | none => simp [hfalse]
        | some r => simpa using hreg r (by simp [Decoded.reads, h1s])
  refine ⟨?_, ?_, ?_, ?_⟩
  · intro h0 e hex'
    cases hq : s.idex with
    | bubble => simp [State.commit, State.executeStage, hq] at hex'
    | occupied q =>
      have : e = q.executeWith (s.fwd1 q) (s.fwd2 q) := by
        simp [State.commit, State.executeStage, hq] at hex'; exact hex'.symm
      rw [this]; exact hex q hq h0
  · exact part2
  · intro h0 h1' h2' ht' f' hf'
    have h1 : s.viewAfterExMem.run = .running := hr.run ▸ h0
    have hv2 := archEq_viewAfterExMem hu hs h1
    have h2 : s.viewAfterIdEx.run = .running := hv2.run ▸ h1'
    have hpc : s.commit.viewAfterExMem.pc = s.viewAfterIdEx.pc := hv2.pc h1'
    have hnf : s.nextIfid = .occupied f' := hf'
    cases hd : s.decision with
    | fault tag => exact absurd hd (decision_nofault hf tag)
    | redirect t => simp [State.nextIfid, hd] at hnf
    | stall =>
      obtain ⟨ht, hst⟩ := decision_stall hf hd
      have hni : s.ifid = .occupied f' := by simpa [State.nextIfid, hd] using hnf
      have hb : s.commit.idex = .bubble := by simp [State.commit, State.nextIdex, hd]
      have hpcs : s.commit.pc = s.pc := by simp [State.commit, State.nextPc, hd]
      have hv : s.commit.viewAfterIdEx = s.commit.viewAfterExMem
          := by simp [State.viewAfterIdEx, hb]
      obtain ⟨hff, hpp⟩ := hs.ifid_record hu h1 h2 ht f' hni
      have hfp : f'.pc = s.viewAfterIdEx.pc := by rw [hff]; exact fetchAt_pc _ _
      refine ⟨?_, by rw [hpcs, hpp]⟩
      rw [hv, hpc, commit_fetchAt hz (by simp [State.fetchedPcs, hnf, hfp])]
      exact hff
    | advance =>
      obtain ⟨ht, hst⟩ := decision_advance hf hd
      have hfs : f' = s.fetchStage := by simp [State.nextIfid, hd] at hnf; exact hnf.symm
      have hpcs : s.commit.pc = s.pc + 4 := by simp [State.commit, State.nextPc, hd]
      have hfp : f'.pc = s.pc := by rw [hfs]; exact fetchAt_pc s s.pc
      have hmem : s.pc ∈ s.fetchedPcs := by simp [State.fetchedPcs, hnf, hfp]
      have hpc2 : s.commit.viewAfterIdEx.pc = s.pc := by
        cases hi : s.ifid with
        | bubble =>
          have hb : s.commit.idex = .bubble
              := by simp [State.commit, State.nextIdex, hd, State.decodeStage, hi]
          have hv : s.commit.viewAfterIdEx = s.commit.viewAfterExMem
              := by simp [State.viewAfterIdEx, hb]
          rw [hv, hpc]
          exact (hs.fetch_pc hu h1 h2 ht hi).symm
        | occupied f =>
          obtain ⟨hff, hpp⟩ := hs.ifid_record hu h1 h2 ht f hi
          have hb : s.commit.idex = .occupied (f.decodeWith s.rfView)
              := by simp [State.commit, State.nextIdex, hd, State.decodeStage, hi]
          have h3 := part2 h0 h1' _ hb
          have h4 : s.commit.viewAfterIdEx = (s.commit.fetchAt
              s.commit.viewAfterExMem.pc).stagedAlone s.commit.viewAfterExMem := by
            unfold State.viewAfterIdEx; rw [hb]
            show IfId.stagedAlone (IdEx.fetched (f.decodeWith s.rfView)) _ = _
            rw [show IdEx.fetched (f.decodeWith s.rfView) = s.commit.fetchAt
                s.commit.viewAfterExMem.pc from congrArg IdEx.fetched h3]
          have hfp : f.pc = s.viewAfterIdEx.pc := by rw [hff]; exact fetchAt_pc _ _
          rw [h4, stagedAlone_pc (h4 ▸ h2'), ← h3]
          have h5 : (f.decodeWith s.rfView).outcome (s.commit.fwd1 (f.decodeWith s.rfView))
              (s.commit.fwd2 (f.decodeWith s.rfView)) = none := by
            simpa [State.takenTarget, hb] using ht'
          show ((f.decodeWith s.rfView).outcome (s.commit.fwd1 (f.decodeWith s.rfView))
              (s.commit.fwd2 (f.decodeWith s.rfView))).getD _ = _
          rw [h5, hpc, ← hfp, ← hpp]; rfl
      refine ⟨?_, by rw [hpcs, hfp]⟩
      rw [hpc2, commit_fetchAt hz hmem, hfs]
      rfl
  · intro h0 h1' h2' ht' hb'
    have h1 : s.viewAfterExMem.run = .running := hr.run ▸ h0
    have hv2 := archEq_viewAfterExMem hu hs h1
    have h2 : s.viewAfterIdEx.run = .running := hv2.run ▸ h1'
    have hpc : s.commit.viewAfterExMem.pc = s.viewAfterIdEx.pc := hv2.pc h1'
    have hnf : s.nextIfid = .bubble := hb'
    cases hd : s.decision with
    | fault tag => exact absurd hd (decision_nofault hf tag)
    | advance => simp [State.nextIfid, hd] at hnf
    | stall =>
      obtain ⟨ht, hst⟩ := decision_stall hf hd
      have hni : s.ifid = .bubble := by simpa [State.nextIfid, hd] using hnf
      simp [State.stall, hni] at hst
    | redirect t =>
      have ht := decision_redirect hf hd
      have hb : s.commit.idex = .bubble := by simp [State.commit, State.nextIdex, hd]
      have hpcs : s.commit.pc = t := by simp [State.commit, State.nextPc, hd]
      have hv : s.commit.viewAfterIdEx = s.commit.viewAfterExMem
          := by simp [State.viewAfterIdEx, hb]
      rw [hpcs, hv, hpc]
      cases hq : s.idex with
      | bubble => simp [State.takenTarget, hq] at ht
      | occupied q =>
        have hvi := viewAfterIdEx_eq hu hs h1 hq
        have hi := hs.idex_record hu h1 q hq
        rw [hvi, stagedAlone_pc (hvi ▸ h2), ← hi]
        have : q.outcome (s.fwd1 q) (s.fwd2 q) = some t := by simpa [State.takenTarget, hq] using ht
        show t = (q.outcome (s.fwd1 q) (s.fwd2 q)).getD _
        rw [this]; rfl


/-- A state with nothing in flight is coherent. -/
theorem coherent_of_drained {s : State} (h1 : s.ifid = .bubble) (h2 : s.idex = .bubble) (h3 :
    s.exmem = .bubble) : s.Coherent := by
  refine ⟨?_, ?_, ?_, ?_⟩
  · intro _ r h; rw [h3] at h; cases h
  · intro _ _ r h; rw [h2] at h; cases h
  · intro _ _ _ _ r h; rw [h1] at h; cases h
  · intros
    simp [State.viewAfterIdEx, h2, State.viewAfterExMem, h3, State.oldestPc, h1]

end Sys2Proof.Machine
end

