-- ==== Sys2Proof/Laws/Exec.lean ====
section
/-! SUPPORT. What the shared shapes of the sequential meanings change and what they leave alone,
and the arithmetic
of their operands. -/

namespace Sys2Proof.Machine

/-! ### Operands -/

/-- The shift amount is operand B mod 32 (R204 to R206). -/
theorem shiftAmount_eq (b : Word) : shiftAmount b = b.toNat % 32 := by
  simp only [shiftAmount, BitVec.toNat_and]
  rw [show (31#32).toNat = 2^5-1 from rfl, Nat.and_two_pow_sub_one_eq_mod]

/-- A shift amount field shifts by its value. -/
theorem shiftAmount_shamt_eq (b : BitVec 5) : shiftAmount (shamtWord b) = b.toNat := by
  rw [shiftAmount_eq]; simp [shamtWord]; omega

/-- `MUL` is the product modulo 2^32 (R209). -/
theorem alu_mul_eq (a b : Word) : alu .mul a b = a * b := by
  apply BitVec.eq_of_toNat_eq; simp [alu, aluMul, BitVec.toNat_mul]

/-- Sign extension keeps the signed value (R12). -/
theorem sext12_toInt (imm : BitVec 12) : (sext12 imm).toInt = imm.toInt := by
  simp only [sext12]; exact BitVec.toInt_signExtend_of_le (by decide)

/-- The U-immediate is its field shifted left by 12 (R154). -/
theorem upperImm_eq (imm : BitVec 20) : upperImm imm = imm.setWidth 32 <<< 12 := by
  apply BitVec.eq_of_getLsbD_eq; intro i hi
  simp only [upperImm, BitVec.getLsbD_append, BitVec.getLsbD_shiftLeft, BitVec.getLsbD_setWidth]
  by_cases h : i < 12
  · simp [h]
  · simp [h, hi]; intro; omega

/-- The zero flag of `SUB` says that the operands are equal (R350). -/
theorem zeroFlag_sub (a b : Word) : zeroFlag (alu .sub a b) = decide (a = b) := by
  rw [Bool.eq_iff_iff]; simp only [zeroFlag, alu, aluSub, beq_iff_eq, decide_eq_true_eq]; bv_omega

/-- The zero flag of `SLT` says that the first operand is not less (R350). -/
theorem zeroFlag_slt (a b : Word) : zeroFlag (alu .slt a b) = !decide (a.toInt < b.toInt) := by
  by_cases h : a.toInt < b.toInt <;> simp [zeroFlag, alu, aluSlt, h]

/-! ### Shapes -/

/-- A register write that moves on. -/
theorem onlyRegister_writeReg (rd v) (s : State) : OnlyRegister rd v s (s.writeReg rd v).advance :=
    by
  refine ⟨?_, fun _ => by simp, ⟨by simp, by simp, by simp, by simp, by simp⟩, by simp, by simp, ⟨by simp, by simp⟩, ⟨by simp, by simp, by simp, by simp, by simp, by simp, by simp, by simp, by simp⟩⟩
  intro r
  rw [State.readReg_advance, State.readReg_writeReg]
  by_cases h0 : r = 0#5
  · subst h0; by_cases h : (0#5) = rd
    · subst h; simp
    · simp [h]
  · by_cases h : r = rd
    · subst h; simp [h0]
    · simp [h0, h]

/-- A jump. -/
theorem onlyLink_redirect (rd v x) (s : State) : OnlyLink rd v s ((s.writeReg rd v).redirect x) :=
    by
  refine ⟨?_, fun _ => by simp, ⟨by simp, by simp, by simp, by simp, by simp⟩, by simp, by simp, ⟨by simp, by simp⟩, ⟨by simp, by simp, by simp, by simp, by simp, by simp, by simp, by simp, by simp⟩⟩
  exact (onlyRegister_writeReg rd v s).regs

/-- A taken branch. -/
theorem onlyBranch_redirect (x) (s : State) : OnlyBranch true s (s.redirect x) := by
  refine ⟨fun _ => rfl, fun _ => rfl,
      ⟨by simp, by simp, by simp, by simp, by simp⟩, by simp, by simp, ⟨by simp, by simp⟩, ⟨by simp, by simp, by simp, by simp, by simp, by simp, by simp, by simp, by simp⟩⟩

/-- A branch not taken. -/
theorem onlyBranch_advance (s : State) : OnlyBranch false s s.advance := by
  refine ⟨fun _ => rfl, fun _ => rfl,
      ⟨by simp, by simp, by simp, by simp, by simp⟩, by simp, by simp, ⟨by simp, by simp⟩, ⟨by simp, by simp, by simp, by simp, by simp, by simp, by simp, by simp, by simp⟩⟩

/-- A branch, whatever its condition. -/
theorem branchOn_next (b : Bool) (p : Prop) [Decidable p] (h : b = decide p) (off) (s : State) : ∃
    t, branchOn b off s = .next t ∧ t.pc = (if p then s.pc + off.signExtend 32 else s.pc + 4) ∧
    OnlyBranch (decide p) s t := by
  by_cases hp : p
  · have : b = true := by simpa [hp] using h
    subst this
    exact ⟨_, rfl, by simp [hp, pcRelative, sext13], by simpa [hp] using onlyBranch_redirect _ s⟩
  · have : b = false := by simpa [hp] using h
    subst this
    exact ⟨_, rfl, by simp [hp], by simpa [hp] using onlyBranch_advance s⟩

/-! ### Loads and stores -/

/-- A read inside memory. -/
theorem memRead_some {s : State} {a : Word} {n : Nat} (h : a.toNat + n ≤ s.cfg.memSize) : s.memRead
    a n = some (s.mem.readLE a.toNat n) := by
  simp [State.memRead, State.inRange, h]

/-- A read past memory. -/
theorem memRead_none {s : State} {a : Word} {n : Nat} (h : s.cfg.memSize < a.toNat + n) : s.memRead
    a n = none := by
  have : ¬ a.toNat + n ≤ s.cfg.memSize := by omega
  simp [State.memRead, State.inRange, this]

/-- Every access is a hit or a miss (R112). -/
theorem countAccess_sum (st : Stats) (r : CacheResult) : (st.countAccess r).hits + (st.countAccess
    r).misses = st.hits + st.misses + 1 := by
  cases r <;> simp [Stats.countAccess] <;> omega

/-- One cache access. -/
theorem cacheAccessed_accessCache (s : State) (a : Word) : CacheAccessed a s (s.accessCache a) := by
  refine ⟨?_, ?_, ?_, ?_⟩ <;> intro h
  · have : s.accessCache a = s := by simp [State.accessCache, h]
    rw [this]; exact ⟨rfl, rfl, rfl, rfl, rfl⟩
  · simp [State.accessCache, h]
  · simp [State.accessCache, h]
  · simp [State.accessCache, h, countAccess_sum]

/-- What a cache access changes is all that it changes. -/
theorem CacheAccessed.congr {a : Word} {s t t' : State} (h : CacheAccessed a s t) (h1 : t'.cache =
    t.cache) (h2 : t'.cacheResults = t.cacheResults) (h3 : t'.stats = t.stats) : CacheAccessed a s
    t' := by
  obtain ⟨a1, a2, a3, a4⟩ := h
  refine ⟨fun h => ?_, fun h => ?_, fun h => ?_, fun h => ?_⟩
  · obtain ⟨b1, b2, b3, b4, b5⟩ := a1 h
    exact ⟨by rw [h1, b1], by rw [h3, b2], by rw [h3, b3], by rw [h3, b4], by rw [h2, b5]⟩
  · rw [h1, a2 h]
  · rw [h2, a3 h]
  · rw [h3, a4 h]

/-- A cache access leaves the timing counters alone. -/
theorem accessCache_timing (s : State) (a : Word) : (s.accessCache a).stats.cycles = s.stats.cycles
    ∧ (s.accessCache a).stats.stalls = s.stats.stalls ∧ (s.accessCache a).stats.branchesTaken =
    s.stats.branchesTaken ∧ (s.accessCache a).stats.fwdFromExMem = s.stats.fwdFromExMem ∧
    (s.accessCache a).stats.fwdFromMemWb = s.stats.fwdFromMemWb := by
  unfold State.accessCache
  split
  · simp only [Stats.countAccess]; split <;> simp
  · simp

/-- What a load changes. -/
theorem onlyLoad_accessCache (rd v a) (s : State) : OnlyLoad rd v a s ((s.accessCache a).writeReg rd
    v).advance := by
  obtain ⟨h1, h2, h3, h4, h5⟩ := accessCache_timing s a
  refine ⟨?_, fun _ => by simp, CacheAccessed.congr (cacheAccessed_accessCache s a) (by simp) (by simp) (by simp), by simp [h3], by simp, ⟨by simp, by simp⟩, ⟨by simp, by simp, by simp, by simp, by simp, by simp [h1], by simp [h2], by simp [h4], by simp [h5]⟩⟩
  intro r
  have := (onlyRegister_writeReg rd v (s.accessCache a)).regs r
  simpa using this

/-- A load inside memory (R301). -/
theorem load_next (n : Width) (rd rs1 imm) (s : State) (h : (effectiveAddress (s.readReg rs1)
    imm).toNat + n.bytes ≤ s.cfg.memSize) :
   ∃ raw t, s.memRead (effectiveAddress (s.readReg rs1) imm) n.bytes = some raw ∧ load n rd rs1 imm
       s = .next t ∧ t.pc = s.pc + 4 ∧ OnlyLoad rd (extendLoaded n raw) (effectiveAddress (s.readReg
       rs1) imm) s t := by
  refine ⟨_, _, memRead_some
      h, by simp only [load, memRead_some h], by simp, onlyLoad_accessCache _ _ _ _⟩

/-- What a store changes. -/
theorem onlyStore_accessCache (a v n) (s : State) : OnlyStore n a s
    (({ s with mem := s.mem.writeLE a.toNat n v } : State).accessCache a).advance := by
  obtain ⟨h1, h2, h3, h4, h5⟩ := accessCache_timing ({ s with mem := s.mem.writeLE a.toNat n v } :
      State) a
  refine ⟨fun r => ?_, fun x hx => ?_,
      ?_, by simp [h3], by simp, ⟨by simp, by simp⟩, ⟨by simp, by simp, by simp, by simp, by simp, by simp [h1], by simp [h2], by simp [h4], by simp [h5]⟩⟩
  · simp; exact State.readReg_congr rfl r
  · simp; exact Memory.readByte_writeLE_outside _ _ _ _ _ hx
  · have := cacheAccessed_accessCache ({ s with mem := s.mem.writeLE a.toNat n v } : State) a
    obtain ⟨a1, a2, a3, a4⟩ := this
    refine ⟨fun h => ?_, fun h => ?_, fun h => ?_, fun h => ?_⟩
    · obtain ⟨b1, b2, b3, b4, b5⟩ := a1 h
      exact ⟨by simp [b1], by simp [b2], by simp [b3], by simp [b4], by simp [b5]⟩
    · simp [a2 h]
    · simp [a3 h]
    · simp [a4 h]

/-- A store inside memory (R302). -/
theorem store_next (n : Width) (rs1 rs2 imm) (s : State) (hw : s.mem.wf = true) (h :
    (effectiveAddress (s.readReg rs1) imm).toNat + n.bytes ≤ s.cfg.memSize) :
   ∃ t, store n rs1 rs2 imm s = .next t ∧ t.pc = s.pc + 4 ∧ OnlyStore n.bytes (effectiveAddress
       (s.readReg rs1) imm) s t ∧ ∀ k < n.bytes, t.mem.readByte ((effectiveAddress (s.readReg rs1)
       imm).toNat + k) = (s.readReg rs2).extractLsb' (8 * k) 8 := by
  have hm : s.memWrite (effectiveAddress (s.readReg rs1) imm) n.bytes (s.readReg rs2) = some
      { s with mem := s.mem.writeLE (effectiveAddress (s.readReg rs1) imm).toNat n.bytes (s.readReg rs2) } := by
    simp [State.memWrite, State.inRange, h]
  refine ⟨_, by simp only [store, hm], by simp, onlyStore_accessCache _ (s.readReg rs2) _ _, ?_⟩
  intro k hk
  simp only [State.advance_mem, State.accessCache_mem]
  rw [Memory.readByte_writeLE_inside _ _ _ _ _ hw hk]
  apply BitVec.eq_of_getLsbD_eq; intro i hi
  simp [hi]

/-- A load past memory (R502). -/
theorem load_fault (n : Width) (rd rs1 imm) (s : State) (a) (ha : a = s.readReg rs1 + imm.signExtend
    32) (h : s.cfg.memSize < a.toNat + n.bytes) : load n rd rs1 imm s = .next
    { s with run := .faulted .data a } := by
  subst ha
  have : s.memRead (effectiveAddress (s.readReg rs1) imm) n.bytes = none := memRead_none h
  simp only [load, this]; rfl

/-- A store past memory (R502). -/
theorem store_fault (n : Width) (rs1 rs2 imm) (s : State) (a) (ha : a = s.readReg rs1 +
    imm.signExtend 32) (h : s.cfg.memSize < a.toNat + n.bytes) : store n rs1 rs2 imm s = .next
    { s with run := .faulted .data a } := by
  subst ha
  have h2 : ¬ (effectiveAddress (s.readReg rs1) imm).toNat + n.bytes ≤ s.cfg.memSize
      := by simp only [effectiveAddress, sext12]; omega
  have : s.memWrite (effectiveAddress (s.readReg rs1) imm) n.bytes (s.readReg rs2) = none
      := by simp [State.memWrite, State.inRange, h2]
  simp only [store, this]; rfl


end Sys2Proof.Machine
end

