-- ==== Sys2Proof/Laws/Invariant.lean ====
section
/-! SUPPORT. A commit keeps each part of the invariant. -/

namespace Sys2Proof.Machine

/-- Everything a cycle can answer as a next state. -/
theorem cycle_next {s t : State} (h : cycle s = .next t) : s.cfg.legal = true ∧ s.run = .running ∧ t
    = s.afterCycle := by
  unfold cycle at h
  split at h
  · next hl =>
    split at h
    · next hr => exact ⟨hl, hr, by simpa using h.symm⟩
    · cases h
    · cases h
  · cases h

/-- What every cycle keeps, every step keeps. -/
theorem runToRetirement_keeps {P : State → Prop} (hP : ∀ s t, P s → cycle s = .next t → P t) : ∀ n s
    t, P s → runToRetirement n s = .next t → P t := by
  intro n
  induction n with
  | zero => exact fun s t h1 h2 => hP s t h1 h2
  | succ n ih =>
    intro s t h1 h2
    unfold runToRetirement at h2
    split at h2
    · exact hP s t h1 h2
    · split at h2
      · next u hu => exact ih u t (hP s u h1 hu) h2
      · cases h2
      · cases h2

/-- The controller's choice in a cycle that is no faulting cycle (R625). -/
theorem decision_cases {s : State} (hf : s.wbFault = none) :
    (∃ t, s.decision = .redirect t ∧ s.takenTarget = some t) ∨ (s.decision = .stall ∧ s.takenTarget
        = none ∧ s.stall = true) ∨ (s.decision = .advance ∧ s.takenTarget = none ∧ s.stall = false)
        := by
  unfold State.decision
  rw [hf]
  cases ht : s.takenTarget <;> cases hs : s.stall <;> simp

/-- A store is requested only inside memory (R302). -/
theorem storeRequest_inRange {s : State} {w : StoreRequest} (h : s.storeRequest = some w) :
    w.addr.toNat + w.bytes ≤ s.cfg.memSize := by
  unfold State.storeRequest at h
  split at h
  · cases h
  · next r hr =>
    rcases memoryOf_cases s r with ⟨e, _⟩ | ⟨e, _⟩ | ⟨raw, e, hf, _⟩ | ⟨raw, e, hf, _, _, hm⟩ <;> rw
        [e] at h
    · cases h
    · cases h
    · cases h
    · simp only [Option.some.injEq] at h
      subst h
      unfold State.memRead at hm
      split at hm
      · next hi => exact of_decide_eq_true hi
      · cases hm

/-- The memory. -/
theorem commit_memoryOk {s : State} (h : s.MemoryOk) : s.commit.MemoryOk := by
  unfold State.MemoryOk
  rw [commit_mem, commit_cfg]
  cases hw : s.storeRequest with
  | none => simp only [State.applyStore, archView_mem]; exact h
  | some w =>
    have hr := storeRequest_inRange hw
    simp only [State.applyStore, archView_mem]
    exact ⟨Memory.wf_writeLE _ _ _ _ h.1, Memory.below_writeLE hr h.2⟩

/-- x0, in the view. -/
theorem archView_regsOk {s : State} (h : s.RegsOk) : s.archView.RegsOk := by
  unfold State.RegsOk
  simp only [State.archView, State.applyDiagnostic_rf, State.applyRequest_rf]
  have : ∀ w, (s.applyRfWrite w).rf[0] = 0#32 := by
    intro w
    cases w with
    | none => exact h
    | some p => exact State.RegsOk_writeReg h p.1 p.2
  exact this _

/-- x0. -/
theorem commit_regsOk {s : State} (h : s.RegsOk) : s.commit.RegsOk := by
  have := archView_regsOk h
  unfold State.RegsOk at this ⊢
  simp only [commit_rf]; exact this

/-- The cache. -/
theorem commit_cacheOk {s : State} (hl : s.cfg.legal = true) (h : s.CacheOk) : s.commit.CacheOk :=
    by
  obtain ⟨c1, c2, c3, _, _⟩ := commit_access s
  obtain ⟨o1, o2, o3⟩ := archView_other s
  have ha : s.archView.CacheOk := State.CacheOk.congr (by simp) o1 (by rw [o2]) (by rw [o2]) h
  refine State.CacheOk.congr (s := s.archView.applyAccess s.accessRequest) (by simp) c1 c2 c3 ?_
  cases s.accessRequest with
  | none => exact ha
  | some a => exact State.CacheOk.accessCache ha (by simpa using legal_index hl) a

/-- What Fetch makes. -/
theorem fetchStage_ok (s : State) : s.fetchStage.Ok := by
  unfold State.fetchStage
  split
  · exact Or.inl ⟨rfl, rfl⟩
  · exact Or.inr ⟨rfl, rfl, rfl⟩

/-- What Decode makes. -/
theorem decodeWith_ok {f : IfId} (h : f.Ok) (v : RegIdx → Word) : (f.decodeWith v).Ok := by
  refine ⟨h, rfl, rfl, rfl, rfl, rfl, ?_, ?_, rfl, rfl⟩ <;> intro hu <;> simp [IfId.decodeWith]
      at hu ⊢ <;> simp [hu]

/-- What Execute makes. -/
theorem executeWith_ok {q : IdEx} (h : q.Ok) (a b : Word) : (q.executeWith a b).Ok :=
  ⟨h.fetched, h.rd_eq, h.ctrl_eq, rfl⟩

/-- A fetched record without a fault holds its decoding. -/
theorem FetchedOk.decoded {pc raw dec fault} (h : FetchedOk pc raw dec fault) (hf : fault = none) :
    dec = Decoded.ofWord raw := by
  rcases h with ⟨_, h⟩ | ⟨h, _⟩
  · exact h
  · rw [hf] at h; cases h

/-- What the Memory stage makes. -/
theorem memoryOf_ok {s : State} {e : ExMem} (h : e.Ok) : (s.memoryOf e).out.Ok := by
  rcases memoryOf_cases s e with ⟨x, _⟩ | ⟨x, hf, ha, _⟩ | ⟨raw, x, hf, _⟩ | ⟨raw, x, hf, _⟩ <;> rw
      [x]
  · exact ⟨h.rd_eq, h.link_eq, Or.inl ⟨h.fetched, h.ctrl_eq⟩⟩
  · refine ⟨h.rd_eq, h.link_eq, Or.inr ⟨rfl, FetchedOk.decoded h.fetched hf, ?_, ?_⟩⟩
    · have := h.ctrl_eq
      show e.dec.ctrl.memRead = true ∨ e.dec.ctrl.memWrite = true
      rw [← this]; exact ha
    · show { e.ctrl with regWrite := false } = _
      rw [h.ctrl_eq]; rfl
  · exact ⟨h.rd_eq, h.link_eq, Or.inl ⟨h.fetched, h.ctrl_eq⟩⟩
  · exact ⟨h.rd_eq, h.link_eq, Or.inl ⟨h.fetched, h.ctrl_eq⟩⟩

/-- The latches. -/
theorem commit_latchesOk {s : State} (hf : s.wbFault = none) (h : s.LatchesOk) : s.commit.LatchesOk
    := by
  have hdec : ∀ q, s.decodeStage = .occupied q → ∃ f, s.ifid = .occupied f ∧ q = f.decodeWith
      s.rfView := by
    intro q hq
    unfold State.decodeStage at hq
    split at hq
    · cases hq
    · next f hf => exact ⟨f, hf, by simpa using hq.symm⟩
  refine ⟨?_, ?_, ?_, ?_, ?_, ?_⟩
  · intro f (hi : s.nextIfid = _)
    unfold State.nextIfid at hi
    rcases decision_cases hf with ⟨t, hd, _⟩ | ⟨hd, _⟩ | ⟨hd, _⟩ <;> rw [hd] at hi
    · cases hi
    · exact h.ifid_ok f hi
    · simp only [Latch.occupied.injEq] at hi; rw [← hi]; exact fetchStage_ok s
  · intro q (hi : s.nextIdex = _)
    unfold State.nextIdex at hi
    rcases decision_cases hf with ⟨t, hd, _⟩ | ⟨hd, _⟩ | ⟨hd, _⟩ <;> rw [hd] at hi
    · cases hi
    · cases hi
    · obtain ⟨f, h1, h2⟩ := hdec q hi
      rw [h2]; exact decodeWith_ok (h.ifid_ok f h1) _
  · intro e (hi : s.executeStage = _)
    unfold State.executeStage at hi
    split at hi
    · cases hi
    · next q hq =>
        simp only [Latch.occupied.injEq] at hi; rw [← hi]; exact executeWith_ok (h.idex_ok q hq) _ _
  · intro m (hi : s.memOut = _)
    unfold State.memOut at hi
    split at hi
    · cases hi
    · next e he =>
        simp only [Latch.occupied.injEq] at hi; rw [← hi]; exact memoryOf_ok (h.exmem_ok e he)
  · show s.nextIdex.isOccupied = true → s.nextIfid.isOccupied = true
    unfold State.nextIdex State.nextIfid
    rcases decision_cases hf with ⟨t, hd, _⟩ | ⟨hd, _⟩ | ⟨hd, _⟩ <;> rw [hd] <;> simp
        [Latch.isOccupied]
  · intro e q (he : s.executeStage = _) (hi : s.nextIdex = _) hm
    unfold State.nextIdex at hi
    rcases decision_cases hf with ⟨t, hd, _⟩ | ⟨hd, _⟩ | ⟨hd, _, hst⟩ <;> rw [hd] at hi
    · cases hi
    · cases hi
    · obtain ⟨f, h1, h2⟩ := hdec q hi
      unfold State.executeStage at he
      split at he
      · cases he
      · next p hp =>
        simp only [Latch.occupied.injEq] at he
        rw [← he] at hm ⊢
        simp only [State.stall, hp, h1] at hst
        rw [show (p.executeWith (s.fwd1 p) (s.fwd2 p)).ctrl = p.ctrl from rfl] at hm
        rw [hm] at hst
        rw [h2]; exact (Bool.true_and _).symm.trans hst

/-- At most two forwards in a cycle (R606). -/
theorem fwdCount_le (s : State) : s.fwdCount .exMem + s.fwdCount .memWb ≤ 2 := by
  unfold State.fwdCount
  cases s.idex with
  | bubble => simp
  | occupied r =>
    simp only
    cases s.fwdSource r.use1 r.rs1 <;> cases s.fwdSource r.use2 r.rs2 <;> simp

/-- What an access counts. -/
theorem applyAccess_counts (u : State) (a : Option Word) :
    (u.applyAccess a).stats.hits + (u.applyAccess a).stats.misses ≤ u.stats.hits + u.stats.misses +
        1
   ∧ (u.stats.evictions ≤ u.stats.misses → (u.applyAccess a).stats.evictions ≤ (u.applyAccess
       a).stats.misses)
   ∧ (u.cacheResults.length = u.stats.hits + u.stats.misses → (u.applyAccess a).cacheResults.length
       = (u.applyAccess a).stats.hits + (u.applyAccess a).stats.misses) := by
  cases a with
  | none => simp [State.applyAccess]
  | some a =>
    simp only [State.applyAccess, State.accessCache]
    split
    · simp only [Stats.countAccess, List.length_append, List.length_singleton]
      split <;> (refine ⟨?_, ?_, ?_⟩ <;> simp <;> omega)
    · simp

/-- The pipeline counters after a commit (R626). -/
theorem commit_timing (s : State) : s.commit.stats.cycles = s.stats.cycles + 1
    ∧ s.commit.stats.stalls = s.stats.stalls + (if s.decision = .stall then 1 else 0)
    ∧ s.commit.stats.branchesTaken = s.stats.branchesTaken + (if s.takenTarget.isSome then 1 else 0)
    ∧ s.commit.stats.fwdFromExMem = s.stats.fwdFromExMem + s.fwdCount .exMem
    ∧ s.commit.stats.fwdFromMemWb = s.stats.fwdFromMemWb + s.fwdCount .memWb := by
  have h : ∀ (u : State) a, (u.applyAccess a).stats.cycles = u.stats.cycles ∧ (u.applyAccess
      a).stats.stalls = u.stats.stalls ∧ (u.applyAccess a).stats.branchesTaken =
      u.stats.branchesTaken ∧ (u.applyAccess a).stats.fwdFromExMem = u.stats.fwdFromExMem ∧
      (u.applyAccess a).stats.fwdFromMemWb = u.stats.fwdFromMemWb := by
    intro u a
    cases a with
    | none => simp [State.applyAccess]
    | some a =>
      simp only [State.applyAccess, State.accessCache]
      split
      · simp only [Stats.countAccess]; split <;> simp
      · simp
  obtain ⟨h1, h2, h3, h4, h5⟩ := h ((s.applyRfWrite s.rfWrite).applyStore s.storeRequest)
      s.accessRequest
  simp [State.commit, State.countCycle, h1, h2, h3, h4, h5]

/-- The counters. -/
theorem commit_countersOk {s : State} (hf : s.wbFault = none) (h : s.CountersOk) :
    s.commit.CountersOk := by
  obtain ⟨t1, t2, t3, t4, t5⟩ := commit_timing s
  obtain ⟨_, c2, c3, c4, c5⟩ := commit_access s
  obtain ⟨o1, o2, o3⟩ := archView_other s
  obtain ⟨a1, a2, a3⟩ := applyAccess_counts s.archView s.accessRequest
  rw [o2] at a1 a2 a3; rw [o3] at a3
  obtain ⟨k1, k2, k3, k4, k5⟩ := h
  have hfc := fwdCount_le s
  refine ⟨?_, by omega, by omega, by rw [c4, c3]; exact a2 k4, by rw [c5, c2, c3]; exact a3 k5⟩
  rw [t1, t2, t3]
  rcases decision_cases hf with ⟨t, hd, ht⟩ | ⟨hd, ht, _⟩ | ⟨hd, ht, _⟩ <;> simp [hd, ht] <;> omega


/-- The latches of a state with nothing in flight. -/
theorem latchesOk_of_drained {s : State} (h1 : s.ifid = .bubble) (h2 : s.idex = .bubble)
    (h3 : s.exmem = .bubble) (h4 : s.memwb = .bubble) : s.LatchesOk where
  ifid_ok f h := by rw [h1] at h; cases h
  idex_ok r h := by rw [h2] at h; cases h
  exmem_ok r h := by rw [h3] at h; cases h
  memwb_ok r h := by rw [h4] at h; cases h
  younger h := by rw [h2] at h; cases h
  no_load_use r q h := by rw [h3] at h; cases h

end Sys2Proof.Machine
end

