-- ==== Sys2Proof/Laws/PerInstr.lean ====
section
/-! SUPPORT. Per instruction: its word falls under the row of spec/opcode_table.json that has its
mnemonic
(R162). -/

namespace Sys2Proof.Laws.Encoding

open Sys2Proof

/-- The instruction's word falls under the table row of its mnemonic. -/
def Statement (i : Instr) : Prop :=
  ∃ r ∈ opcodeTable, r.mnemonic = i.mnemonic ∧ r.covers (encode i) = true

/-! ### The fixed bits of each format -/

theorem packR_fixed (f7 : BitVec 7) (rs2 rs1 : RegIdx) (f3 : BitVec 3) (rd : RegIdx) (op : BitVec
    7) :
    packR f7 rs2 rs1 f3 rd op &&& 0xFE00707F#32 = packR f7 0 0 f3 0 op := by
  apply BitVec.eq_of_getLsbD_eq
  intro i hi
  change @BitVec.getLsbD (7 + 5 + 5 + 3 + 5 + 7) (HAnd.hAnd (α := BitVec (7 + 5 + 5 + 3 + 5 + 7))
    (f7 ++ rs2 ++ rs1 ++ f3 ++ rd ++ op) 0xFE00707F) i
    = @BitVec.getLsbD (7 + 5 + 5 + 3 + 5 + 7) (f7 ++ 0#5 ++ 0#5 ++ f3 ++ 0#5 ++ op) i
  simp only [BitVec.getLsbD_and, BitVec.getLsbD_append, BitVec.getLsbD_zero]
  interval_cases i <;> simp

theorem packI_fixed (imm : BitVec 12) (rs1 : RegIdx) (f3 : BitVec 3) (rd : RegIdx) (op : BitVec 7) :
    packI imm rs1 f3 rd op &&& 0x0000707F#32 = packI 0 0 f3 0 op := by
  apply BitVec.eq_of_getLsbD_eq
  intro i hi
  change @BitVec.getLsbD (12 + 5 + 3 + 5 + 7) (HAnd.hAnd (α := BitVec (12 + 5 + 3 + 5 + 7))
    (imm ++ rs1 ++ f3 ++ rd ++ op) 0x0000707F) i
    = @BitVec.getLsbD (12 + 5 + 3 + 5 + 7) (0#12 ++ 0#5 ++ f3 ++ 0#5 ++ op) i
  simp only [BitVec.getLsbD_and, BitVec.getLsbD_append, BitVec.getLsbD_zero]
  interval_cases i <;> simp

theorem packS_fixed (imm : BitVec 12) (rs2 rs1 : RegIdx) (f3 : BitVec 3) (op : BitVec 7) :
    packS imm rs2 rs1 f3 op &&& 0x0000707F#32 = packS 0 0 0 f3 op := by
  apply BitVec.eq_of_getLsbD_eq
  intro i hi
  change @BitVec.getLsbD (7 + 5 + 5 + 3 + 5 + 7) (HAnd.hAnd (α := BitVec (7 + 5 + 5 + 3 + 5 + 7))
    (imm.extractLsb' 5 7 ++ rs2 ++ rs1 ++ f3 ++ imm.extractLsb' 0 5 ++ op) 0x0000707F) i
    = @BitVec.getLsbD (7 + 5 + 5 + 3 + 5 + 7) (0#7 ++ 0#5 ++ 0#5 ++ f3 ++ 0#5 ++ op) i
  simp only [BitVec.getLsbD_and, BitVec.getLsbD_append, BitVec.getLsbD_zero]
  interval_cases i <;> simp

theorem packB_fixed (off : BitVec 13) (rs2 rs1 : RegIdx) (f3 : BitVec 3) (op : BitVec 7) :
    packB off rs2 rs1 f3 op &&& 0x0000707F#32 = packB 0 0 0 f3 op := by
  apply BitVec.eq_of_getLsbD_eq
  intro i hi
  change @BitVec.getLsbD (1 + 6 + 5 + 5 + 3 + 4 + 1 + 7) (HAnd.hAnd (α := BitVec (1 + 6 + 5 + 5 + 3
      + 4 + 1 + 7))
    (off.extractLsb' 12 1 ++ off.extractLsb' 5 6 ++ rs2 ++ rs1 ++ f3
      ++ off.extractLsb' 1 4 ++ off.extractLsb' 11 1 ++ op) 0x0000707F) i
    = @BitVec.getLsbD (1 + 6 + 5 + 5 + 3 + 4 + 1 + 7) (0#1 ++ 0#6 ++ 0#5 ++ 0#5 ++ f3 ++ 0#4 ++ 0#1
        ++ op) i
  simp only [BitVec.getLsbD_and, BitVec.getLsbD_append, BitVec.getLsbD_zero]
  interval_cases i <;> simp

theorem packU_fixed (imm : BitVec 20) (rd : RegIdx) (op : BitVec 7) :
    packU imm rd op &&& 0x0000007F#32 = packU 0 0 op := by
  apply BitVec.eq_of_getLsbD_eq
  intro i hi
  change @BitVec.getLsbD (20 + 5 + 7) (HAnd.hAnd (α := BitVec (20 + 5 + 7))
    (imm ++ rd ++ op) 0x0000007F) i
    = @BitVec.getLsbD (20 + 5 + 7) (0#20 ++ 0#5 ++ op) i
  simp only [BitVec.getLsbD_and, BitVec.getLsbD_append, BitVec.getLsbD_zero]
  interval_cases i <;> simp

theorem packJ_fixed (off : BitVec 21) (rd : RegIdx) (op : BitVec 7) :
    packJ off rd op &&& 0x0000007F#32 = packJ 0 0 op := by
  apply BitVec.eq_of_getLsbD_eq
  intro i hi
  change @BitVec.getLsbD (1 + 10 + 1 + 8 + 5 + 7) (HAnd.hAnd (α := BitVec (1 + 10 + 1 + 8 + 5 + 7))
    (off.extractLsb' 20 1 ++ off.extractLsb' 1 10 ++ off.extractLsb' 11 1
      ++ off.extractLsb' 12 8 ++ rd ++ op) 0x0000007F) i
    = @BitVec.getLsbD (1 + 10 + 1 + 8 + 5 + 7) (0#1 ++ 0#10 ++ 0#1 ++ 0#8 ++ 0#5 ++ op) i
  simp only [BitVec.getLsbD_and, BitVec.getLsbD_append, BitVec.getLsbD_zero]
  interval_cases i <;> simp

/-! ### One lemma per instruction -/

theorem add (rd rs1 rs2 : RegIdx) : Statement (.add rd rs1 rs2) := by
  refine ⟨⟨"add", 0x00000033, 0xFE00707F⟩, by decide, rfl, ?_⟩
  exact beq_iff_eq.mpr ((packR_fixed _ _ _ _ _ _).trans (by decide))

theorem sub (rd rs1 rs2 : RegIdx) : Statement (.sub rd rs1 rs2) := by
  refine ⟨⟨"sub", 0x40000033, 0xFE00707F⟩, by decide, rfl, ?_⟩
  exact beq_iff_eq.mpr ((packR_fixed _ _ _ _ _ _).trans (by decide))

theorem sll (rd rs1 rs2 : RegIdx) : Statement (.sll rd rs1 rs2) := by
  refine ⟨⟨"sll", 0x00001033, 0xFE00707F⟩, by decide, rfl, ?_⟩
  exact beq_iff_eq.mpr ((packR_fixed _ _ _ _ _ _).trans (by decide))

theorem slt (rd rs1 rs2 : RegIdx) : Statement (.slt rd rs1 rs2) := by
  refine ⟨⟨"slt", 0x00002033, 0xFE00707F⟩, by decide, rfl, ?_⟩
  exact beq_iff_eq.mpr ((packR_fixed _ _ _ _ _ _).trans (by decide))

theorem xor (rd rs1 rs2 : RegIdx) : Statement (.xor rd rs1 rs2) := by
  refine ⟨⟨"xor", 0x00004033, 0xFE00707F⟩, by decide, rfl, ?_⟩
  exact beq_iff_eq.mpr ((packR_fixed _ _ _ _ _ _).trans (by decide))

theorem srl (rd rs1 rs2 : RegIdx) : Statement (.srl rd rs1 rs2) := by
  refine ⟨⟨"srl", 0x00005033, 0xFE00707F⟩, by decide, rfl, ?_⟩
  exact beq_iff_eq.mpr ((packR_fixed _ _ _ _ _ _).trans (by decide))

theorem sra (rd rs1 rs2 : RegIdx) : Statement (.sra rd rs1 rs2) := by
  refine ⟨⟨"sra", 0x40005033, 0xFE00707F⟩, by decide, rfl, ?_⟩
  exact beq_iff_eq.mpr ((packR_fixed _ _ _ _ _ _).trans (by decide))

theorem or (rd rs1 rs2 : RegIdx) : Statement (.or rd rs1 rs2) := by
  refine ⟨⟨"or", 0x00006033, 0xFE00707F⟩, by decide, rfl, ?_⟩
  exact beq_iff_eq.mpr ((packR_fixed _ _ _ _ _ _).trans (by decide))

theorem and (rd rs1 rs2 : RegIdx) : Statement (.and rd rs1 rs2) := by
  refine ⟨⟨"and", 0x00007033, 0xFE00707F⟩, by decide, rfl, ?_⟩
  exact beq_iff_eq.mpr ((packR_fixed _ _ _ _ _ _).trans (by decide))

theorem mul (rd rs1 rs2 : RegIdx) : Statement (.mul rd rs1 rs2) := by
  refine ⟨⟨"mul", 0x02000033, 0xFE00707F⟩, by decide, rfl, ?_⟩
  exact beq_iff_eq.mpr ((packR_fixed _ _ _ _ _ _).trans (by decide))

theorem mulh (rd rs1 rs2 : RegIdx) : Statement (.mulh rd rs1 rs2) := by
  refine ⟨⟨"mulh", 0x02001033, 0xFE00707F⟩, by decide, rfl, ?_⟩
  exact beq_iff_eq.mpr ((packR_fixed _ _ _ _ _ _).trans (by decide))

theorem div (rd rs1 rs2 : RegIdx) : Statement (.div rd rs1 rs2) := by
  refine ⟨⟨"div", 0x02004033, 0xFE00707F⟩, by decide, rfl, ?_⟩
  exact beq_iff_eq.mpr ((packR_fixed _ _ _ _ _ _).trans (by decide))

theorem rem (rd rs1 rs2 : RegIdx) : Statement (.rem rd rs1 rs2) := by
  refine ⟨⟨"rem", 0x02006033, 0xFE00707F⟩, by decide, rfl, ?_⟩
  exact beq_iff_eq.mpr ((packR_fixed _ _ _ _ _ _).trans (by decide))

theorem addi (rd rs1 : RegIdx) (imm : BitVec 12) : Statement (.addi rd rs1 imm) := by
  refine ⟨⟨"addi", 0x00000013, 0x0000707F⟩, by decide, rfl, ?_⟩
  exact beq_iff_eq.mpr ((packI_fixed _ _ _ _ _).trans (by decide))

theorem slti (rd rs1 : RegIdx) (imm : BitVec 12) : Statement (.slti rd rs1 imm) := by
  refine ⟨⟨"slti", 0x00002013, 0x0000707F⟩, by decide, rfl, ?_⟩
  exact beq_iff_eq.mpr ((packI_fixed _ _ _ _ _).trans (by decide))

theorem xori (rd rs1 : RegIdx) (imm : BitVec 12) : Statement (.xori rd rs1 imm) := by
  refine ⟨⟨"xori", 0x00004013, 0x0000707F⟩, by decide, rfl, ?_⟩
  exact beq_iff_eq.mpr ((packI_fixed _ _ _ _ _).trans (by decide))

theorem ori (rd rs1 : RegIdx) (imm : BitVec 12) : Statement (.ori rd rs1 imm) := by
  refine ⟨⟨"ori", 0x00006013, 0x0000707F⟩, by decide, rfl, ?_⟩
  exact beq_iff_eq.mpr ((packI_fixed _ _ _ _ _).trans (by decide))

theorem andi (rd rs1 : RegIdx) (imm : BitVec 12) : Statement (.andi rd rs1 imm) := by
  refine ⟨⟨"andi", 0x00007013, 0x0000707F⟩, by decide, rfl, ?_⟩
  exact beq_iff_eq.mpr ((packI_fixed _ _ _ _ _).trans (by decide))

theorem slli (rd rs1 : RegIdx) (shamt : BitVec 5) : Statement (.slli rd rs1 shamt) := by
  refine ⟨⟨"slli", 0x00001013, 0xFE00707F⟩, by decide, rfl, ?_⟩
  exact beq_iff_eq.mpr ((packR_fixed _ _ _ _ _ _).trans (by decide))

theorem srli (rd rs1 : RegIdx) (shamt : BitVec 5) : Statement (.srli rd rs1 shamt) := by
  refine ⟨⟨"srli", 0x00005013, 0xFE00707F⟩, by decide, rfl, ?_⟩
  exact beq_iff_eq.mpr ((packR_fixed _ _ _ _ _ _).trans (by decide))

theorem srai (rd rs1 : RegIdx) (shamt : BitVec 5) : Statement (.srai rd rs1 shamt) := by
  refine ⟨⟨"srai", 0x40005013, 0xFE00707F⟩, by decide, rfl, ?_⟩
  exact beq_iff_eq.mpr ((packR_fixed _ _ _ _ _ _).trans (by decide))

theorem lb (rd rs1 : RegIdx) (imm : BitVec 12) : Statement (.lb rd rs1 imm) := by
  refine ⟨⟨"lb", 0x00000003, 0x0000707F⟩, by decide, rfl, ?_⟩
  exact beq_iff_eq.mpr ((packI_fixed _ _ _ _ _).trans (by decide))

theorem lh (rd rs1 : RegIdx) (imm : BitVec 12) : Statement (.lh rd rs1 imm) := by
  refine ⟨⟨"lh", 0x00001003, 0x0000707F⟩, by decide, rfl, ?_⟩
  exact beq_iff_eq.mpr ((packI_fixed _ _ _ _ _).trans (by decide))

theorem lw (rd rs1 : RegIdx) (imm : BitVec 12) : Statement (.lw rd rs1 imm) := by
  refine ⟨⟨"lw", 0x00002003, 0x0000707F⟩, by decide, rfl, ?_⟩
  exact beq_iff_eq.mpr ((packI_fixed _ _ _ _ _).trans (by decide))

theorem sb (rs1 rs2 : RegIdx) (imm : BitVec 12) : Statement (.sb rs1 rs2 imm) := by
  refine ⟨⟨"sb", 0x00000023, 0x0000707F⟩, by decide, rfl, ?_⟩
  exact beq_iff_eq.mpr ((packS_fixed _ _ _ _ _).trans (by decide))

theorem sh (rs1 rs2 : RegIdx) (imm : BitVec 12) : Statement (.sh rs1 rs2 imm) := by
  refine ⟨⟨"sh", 0x00001023, 0x0000707F⟩, by decide, rfl, ?_⟩
  exact beq_iff_eq.mpr ((packS_fixed _ _ _ _ _).trans (by decide))

theorem sw (rs1 rs2 : RegIdx) (imm : BitVec 12) : Statement (.sw rs1 rs2 imm) := by
  refine ⟨⟨"sw", 0x00002023, 0x0000707F⟩, by decide, rfl, ?_⟩
  exact beq_iff_eq.mpr ((packS_fixed _ _ _ _ _).trans (by decide))

theorem beq (rs1 rs2 : RegIdx) (offset : BitVec 13) : Statement (.beq rs1 rs2 offset) := by
  refine ⟨⟨"beq", 0x00000063, 0x0000707F⟩, by decide, rfl, ?_⟩
  exact beq_iff_eq.mpr ((packB_fixed _ _ _ _ _).trans (by decide))

theorem bne (rs1 rs2 : RegIdx) (offset : BitVec 13) : Statement (.bne rs1 rs2 offset) := by
  refine ⟨⟨"bne", 0x00001063, 0x0000707F⟩, by decide, rfl, ?_⟩
  exact beq_iff_eq.mpr ((packB_fixed _ _ _ _ _).trans (by decide))

theorem blt (rs1 rs2 : RegIdx) (offset : BitVec 13) : Statement (.blt rs1 rs2 offset) := by
  refine ⟨⟨"blt", 0x00004063, 0x0000707F⟩, by decide, rfl, ?_⟩
  exact beq_iff_eq.mpr ((packB_fixed _ _ _ _ _).trans (by decide))

theorem bge (rs1 rs2 : RegIdx) (offset : BitVec 13) : Statement (.bge rs1 rs2 offset) := by
  refine ⟨⟨"bge", 0x00005063, 0x0000707F⟩, by decide, rfl, ?_⟩
  exact beq_iff_eq.mpr ((packB_fixed _ _ _ _ _).trans (by decide))

theorem lui (rd : RegIdx) (imm : BitVec 20) : Statement (.lui rd imm) := by
  refine ⟨⟨"lui", 0x00000037, 0x0000007F⟩, by decide, rfl, ?_⟩
  exact beq_iff_eq.mpr ((packU_fixed _ _ _).trans (by decide))

theorem auipc (rd : RegIdx) (imm : BitVec 20) : Statement (.auipc rd imm) := by
  refine ⟨⟨"auipc", 0x00000017, 0x0000007F⟩, by decide, rfl, ?_⟩
  exact beq_iff_eq.mpr ((packU_fixed _ _ _).trans (by decide))

theorem jal (rd : RegIdx) (offset : BitVec 21) : Statement (.jal rd offset) := by
  refine ⟨⟨"jal", 0x0000006F, 0x0000007F⟩, by decide, rfl, ?_⟩
  exact beq_iff_eq.mpr ((packJ_fixed _ _ _).trans (by decide))

theorem jalr (rd rs1 : RegIdx) (imm : BitVec 12) : Statement (.jalr rd rs1 imm) := by
  refine ⟨⟨"jalr", 0x00000067, 0x0000707F⟩, by decide, rfl, ?_⟩
  exact beq_iff_eq.mpr ((packI_fixed _ _ _ _ _).trans (by decide))

theorem ecall : Statement .ecall := by
  refine ⟨⟨"ecall", 0x00000073, 0xFFFFFFFF⟩, by decide, rfl, ?_⟩
  decide

end Sys2Proof.Laws.Encoding
end

