-- ==== Sys2Proof/Tests/Slice0.lean ====
section
/-! SUPPORT. Tests. Expected results come from 95_test_vectors.md (sections named in the comments) or are worked
out by hand from the rules; and one witness for the hypotheses of every statement that has any. -/

namespace Sys2Proof.Tests

open Sys2Proof Sys2Proof.Machine

/-! ### Small states -/

/-- The state after reset with x1 and x2 as given. -/
def probe (a b : Word) : State := (State.reset.writeReg 1#5 a).writeReg 2#5 b

/-- `probe` with 80 82 34 12 at 0x2000..0x2003 (95_test_vectors.md 2.4). -/
def probeMem (a b : Word) : State :=
  { probe a b with mem := [(0x2000, 0x80), (0x2001, 0x82), (0x2002, 0x34), (0x2003, 0x12)] }

/-- The next state of an outcome, `State.reset` where there is none. -/
def nextOf (r : Result) : State :=
  match r with
  | .next t => t
  | .fault _ => State.reset
  | .refused _ => State.reset

/-- Whether an outcome is a next state. -/
def isNext (r : Result) : Bool :=
  match r with
  | .next _ => true
  | .fault _ => false
  | .refused _ => false

/-- x3 and the pc after an instruction. -/
def x3pc (r : Result) : Word × Word := ((nextOf r).readReg 3#5, (nextOf r).pc)

/-- The record Fetch makes of a word at 0x1000. -/
def fetched (raw : Word) : IfId :=
  { pc := 0x1000, raw := raw, dec := Decoded.ofWord raw, fault := none }

/-- Its record in ID/EX, in `s`. -/
def inIdEx (raw : Word) (s : State) : State := { s with idex := .occupied ((fetched raw).readBy s) }

/-- Its record in EX/MEM, in `s`. -/
def inExMem (raw : Word) (s : State) : State :=
  { s with exmem := .occupied ((fetched raw).executedBy s) }

/-- Its record in MEM/WB, in `s`. -/
def inMemWb (raw : Word) (s : State) : State :=
  { s with memwb := .occupied (s.memoryOf ((fetched raw).executedBy s)).out }

/-! ### WellFormed: an ill-formed term for each check -/

theorem test_odd_beq_refused : (Instr.beq 1 2 0x0FFF).wellFormed = false := by decide
theorem test_odd_bne_refused : (Instr.bne 1 2 1).wellFormed = false := by decide
theorem test_odd_blt_refused : (Instr.blt 1 2 3).wellFormed = false := by decide
theorem test_odd_bge_refused : (Instr.bge 1 2 0x1001).wellFormed = false := by decide
theorem test_odd_jal_refused : (Instr.jal 1 0x1FFFFF).wellFormed = false := by decide

/-! ### Decode: words of 95_test_vectors.md 2.1 to 2.6, and one word per format bit by bit -/

theorem test_decode_bits :
    decode (0b0000000#7 ++ 0b00010#5 ++ 0b00001#5 ++ 0b000#3 ++ 0b00011#5 ++ 0b0110011#7)
        = some (.add 3 1 2)
      ∧ decode (0b111111111111#12 ++ 0b00001#5 ++ 0b000#3 ++ 0b00011#5 ++ 0b0010011#7)
        = some (.addi 3 1 0xFFF)
      ∧ decode (0b0000000#7 ++ 0b00010#5 ++ 0b00001#5 ++ 0b010#3 ++ 0b01000#5 ++ 0b0100011#7)
        = some (.sw 1 2 8)
      ∧ decode (0b1111111#7 ++ 0b00010#5 ++ 0b00001#5 ++ 0b000#3 ++ 0b10001#5 ++ 0b1100011#7)
        = some (.beq 1 2 0x1FF0)
      ∧ decode (0b00010010001101000101#20 ++ 0b00011#5 ++ 0b0110111#7) = some (.lui 3 0x12345)
      ∧ decode (0b1#1 ++ 0b1111111100#10 ++ 0b1#1 ++ 0b11111111#8 ++ 0b00001#5 ++ 0b1101111#7)
        = some (.jal 1 0x1FFFF8) := by decide

theorem test_decode_regReg :
    decode 0x002081B3 = some (.add 3 1 2) ∧ decode 0x402081B3 = some (.sub 3 1 2)
      ∧ decode 0x002091B3 = some (.sll 3 1 2) ∧ decode 0x0020A1B3 = some (.slt 3 1 2)
      ∧ decode 0x0020C1B3 = some (.xor 3 1 2) ∧ decode 0x0020D1B3 = some (.srl 3 1 2)
      ∧ decode 0x4020D1B3 = some (.sra 3 1 2) ∧ decode 0x0020E1B3 = some (.or 3 1 2)
      ∧ decode 0x0020F1B3 = some (.and 3 1 2) ∧ decode 0x022081B3 = some (.mul 3 1 2)
      ∧ decode 0x022091B3 = some (.mulh 3 1 2) ∧ decode 0x0220C1B3 = some (.div 3 1 2)
      ∧ decode 0x0220E1B3 = some (.rem 3 1 2) := by decide

theorem test_decode_regImm :
    decode 0xFFF08193 = some (.addi 3 1 0xFFF) ∧ decode 0x0050A193 = some (.slti 3 1 5)
      ∧ decode 0xFFF0C193 = some (.xori 3 1 0xFFF) ∧ decode 0x0F00E193 = some (.ori 3 1 0xF0)
      ∧ decode 0x0FF0F193 = some (.andi 3 1 0xFF) ∧ decode 0x00409193 = some (.slli 3 1 4)
      ∧ decode 0x0040D193 = some (.srli 3 1 4) ∧ decode 0x4040D193 = some (.srai 3 1 4)
      ∧ decode 0x40000013 = some (.addi 0 0 0x400) := by decide

theorem test_decode_loadStore :
    decode 0xFFC08183 = some (.lb 3 1 0xFFC) ∧ decode 0xFFE09183 = some (.lh 3 1 0xFFE)
      ∧ decode 0xFFC0A183 = some (.lw 3 1 0xFFC) ∧ decode 0x00208423 = some (.sb 1 2 8)
      ∧ decode 0x00209423 = some (.sh 1 2 8) ∧ decode 0x0020A423 = some (.sw 1 2 8) := by decide

theorem test_decode_branch :
    decode 0xFE2088E3 = some (.beq 1 2 0x1FF0) ∧ decode 0x00209863 = some (.bne 1 2 16)
      ∧ decode 0x0020C863 = some (.blt 1 2 16) ∧ decode 0xFE20D8E3 = some (.bge 1 2 0x1FF0)
      ∧ decode 0x7E000FE3 = some (.beq 0 0 4094) ∧ decode 0x00000F63 = some (.beq 0 0 30) := by
  decide

theorem test_decode_upperJumpSystem :
    decode 0x123451B7 = some (.lui 3 0x12345) ∧ decode 0x00001197 = some (.auipc 3 1)
      ∧ decode 0x020000EF = some (.jal 1 32) ∧ decode 0x001000EF = some (.jal 1 2048)
      ∧ decode 0x000800EF = some (.jal 1 0x80000) ∧ decode 0x004280E7 = some (.jalr 1 5 4)
      ∧ decode 0x00000073 = some .ecall := by decide

/-- Every INVALID word of 2.1. -/
theorem test_decode_invalid :
    (([0x0020B1B3, 0x0220A1B3, 0x0220B1B3, 0x0220D1B3, 0x0220F1B3, 0x2020D1B3, 0x02009193,
      0x4200D193, 0x40009193, 0x00003013, 0x00100073, 0x000000F3, 0x30200073, 0x0000000F] : List Word) ++
      [0x00000000, 0xFFFFFFFF, 0x00004183, 0x00005183, 0x00003183, 0x0020B023, 0x0020A063,
        0x0020E063, 0x000090E7, 0x0000001B]).all (fun w => decode w == none) = true := by
  decide

theorem test_decodeTableWord :
    decodeTableWord 32 0x022091B3 = some (.mulh 3 1 2) ∧ decodeTableWord 32 0 = none := by decide

/-! ### One instruction each (2.3 to 2.7) -/

theorem test_add : x3pc (exec (.add 3 1 2) (probe 0x7FFFFFFF 1)) = (0x80000000, 0x1004) := by decide
theorem test_sub : x3pc (exec (.sub 3 1 2) (probe 5 7)) = (0xFFFFFFFE, 0x1004) := by decide
theorem test_sll : x3pc (exec (.sll 3 1 2) (probe 1 0x20)) = (1, 0x1004) := by decide
theorem test_slt : x3pc (exec (.slt 3 1 2) (probe 0xFFFFFFFF 1)) = (1, 0x1004) := by decide
theorem test_xor :
    x3pc (exec (.xor 3 1 2) (probe 0xFF00FF00 0x0FF00FF0)) = (0xF0F0F0F0, 0x1004) := by decide
theorem test_srl : x3pc (exec (.srl 3 1 2) (probe 0x80000000 0x3F)) = (1, 0x1004) := by decide
theorem test_sra :
    x3pc (exec (.sra 3 1 2) (probe 0x80000000 0x1F)) = (0xFFFFFFFF, 0x1004) := by decide
theorem test_or : x3pc (exec (.or 3 1 2) (probe 0xF0 0x0F)) = (0xFF, 0x1004) := by decide
theorem test_and : x3pc (exec (.and 3 1 2) (probe 0xF0F0 0xFF00)) = (0xF000, 0x1004) := by decide
theorem test_mul :
    x3pc (exec (.mul 3 1 2) (probe 7 0xFFFFFFFD)) = (0xFFFFFFEB, 0x1004) := by decide
theorem test_mulh :
    x3pc (exec (.mulh 3 1 2) (probe 0x80000000 0x7FFFFFFF)) = (0xC0000000, 0x1004) := by decide
theorem test_div :
    x3pc (exec (.div 3 1 2) (probe 0xFFFFFFF9 2)) = (0xFFFFFFFD, 0x1004)
      ∧ x3pc (exec (.div 3 1 2) (probe 7 0)) = (0xFFFFFFFF, 0x1004) := by decide
theorem test_rem :
    x3pc (exec (.rem 3 1 2) (probe 0xFFFFFFF9 2)) = (0xFFFFFFFF, 0x1004)
      ∧ x3pc (exec (.rem 3 1 2) (probe 0x80000000 0xFFFFFFFF)) = (0, 0x1004) := by decide
theorem test_addi : x3pc (exec (.addi 3 1 0xFFF) (probe 0 0)) = (0xFFFFFFFF, 0x1004) := by decide
theorem test_slti : x3pc (exec (.slti 3 1 5) (probe 0xFFFFFFFF 0)) = (1, 0x1004) := by decide
theorem test_xori :
    x3pc (exec (.xori 3 1 0xFFF) (probe 0x0F0F0F0F 0)) = (0xF0F0F0F0, 0x1004) := by decide
theorem test_ori : x3pc (exec (.ori 3 1 0xF0) (probe 0x0F 0)) = (0xFF, 0x1004) := by decide
theorem test_andi : x3pc (exec (.andi 3 1 0xFF) (probe 0x12345678 0)) = (0x78, 0x1004) := by decide
theorem test_slli :
    x3pc (exec (.slli 3 1 4) (probe 0x12345678 0)) = (0x23456780, 0x1004) := by decide
theorem test_srli :
    x3pc (exec (.srli 3 1 4) (probe 0x80000000 0)) = (0x08000000, 0x1004) := by decide
theorem test_srai :
    x3pc (exec (.srai 3 1 4) (probe 0x80000000 0)) = (0xF8000000, 0x1004) := by decide

theorem test_lb :
    x3pc (exec (.lb 3 1 0xFFD) (probeMem 0x2004 0)) = (0xFFFFFF82, 0x1004) := by decide
theorem test_lh :
    x3pc (exec (.lh 3 1 0xFFC) (probeMem 0x2004 0)) = (0xFFFF8280, 0x1004) := by decide
theorem test_lw :
    x3pc (exec (.lw 3 1 0xFFC) (probeMem 0x2004 0)) = (0x12348280, 0x1004)
      ∧ x3pc (exec (.lw 3 1 0xFFD) (probeMem 0x2004 0)) = (0x00123482, 0x1004) := by decide
theorem test_lw_fault :
    (nextOf (exec (.lw 3 1 0xFFD) (probeMem 0x10000 0))).run = .faulted .data 0xFFFD := by decide
theorem test_sb :
    (nextOf (exec (.sb 1 2 8) (probe 0x2000 0x12345678))).mem = [(0x2008, 0x78)] := by decide
theorem test_sh :
    (nextOf (exec (.sh 1 2 8) (probe 0x2000 0x12345678))).mem
      = [(0x2008, 0x78), (0x2009, 0x56)] := by decide
theorem test_sh_fault :
    (nextOf (exec (.sh 1 2 8) (probe 0xFFF7 1))).run = .faulted .data 0xFFFF
      ∧ (nextOf (exec (.sh 1 2 8) (probe 0xFFF7 1))).mem = [] := by decide
theorem test_sw :
    (nextOf (exec (.sw 1 2 8) (probe 0x2000 0x12345678))).mem
      = [(0x2008, 0x78), (0x2009, 0x56), (0x200A, 0x34), (0x200B, 0x12)] := by decide

theorem test_beq :
    (nextOf (exec (.beq 1 2 0x1FF0) ((probe 3 3).jumpTo 0x1010))).pc = 0x1000
      ∧ (nextOf (exec (.beq 1 2 0x1FF0) (probe 3 4))).pc = 0x1004 := by decide
theorem test_bne :
    (nextOf (exec (.bne 1 2 16) (probe 1 2))).pc = 0x1010
      ∧ (nextOf (exec (.bne 1 2 16) (probe 5 5))).pc = 0x1004 := by decide
theorem test_blt :
    (nextOf (exec (.blt 1 2 16) (probe 0x80000000 0x7FFFFFFF))).pc = 0x1010
      ∧ (nextOf (exec (.blt 1 2 16) (probe 0x7FFFFFFF 0x80000000))).pc = 0x1004 := by decide
theorem test_bge :
    (nextOf (exec (.bge 1 2 0x1FF0) (probe 5 5))).pc = 0xFF0
      ∧ (nextOf (exec (.bge 1 2 0x1FF0) (probe 0x80000000 0x7FFFFFFF))).pc = 0x1004 := by decide

theorem test_lui : x3pc (exec (.lui 3 0x12345) (probe 0 0)) = (0x12345000, 0x1004) := by decide
theorem test_auipc : x3pc (exec (.auipc 3 1) (probe 0 0)) = (0x2000, 0x1004) := by decide
theorem test_jal :
    (nextOf (exec (.jal 1 0x1FFFF8) ((probe 0 0).jumpTo 0x1008))).pc = 0x1000
      ∧ (nextOf (exec (.jal 1 0x1FFFF8) ((probe 0 0).jumpTo 0x1008))).readReg 1 = 0x100C := by decide
/-- The source is also the destination. -/
theorem test_jalr :
    (nextOf (exec (.jalr 1 1 4) (probe 0x2001 0))).pc = 0x2004
      ∧ (nextOf (exec (.jalr 1 1 4) (probe 0x2001 0))).readReg 1 = 0x1004 := by decide
theorem test_ecall_print :
    let t := nextOf (exec .ecall ((State.reset.writeReg 10#5 1).writeReg 11#5 0xFFFFFFFF))
    t.hostRequests = [⟨1, 0xFFFFFFFF⟩] ∧ t.run = .running ∧ t.pc = 0x1004 := by decide
theorem test_ecall_exit :
    let t := nextOf (exec .ecall ((State.reset.writeReg 10#5 10).writeReg 11#5 0x1234))
    t.hostRequests = [⟨10, 0x1234⟩] ∧ t.run = .exited := by decide

/-- A write to x0 is discarded (R30). -/
theorem test_x0 : (nextOf (exec (.addi 0 0 1) (probe 0 0))).readReg 0 = 0 := by decide

/-! ### Cycles and steps (1.1, 1.2, 1.5, 2.7, 2.8) -/

theorem test_address :
    let c := { Config.initial with setIndexBits := 3, blockOffsetBits := 5 }
    blockAddress c 0x12345678 = 0x12345660 ∧ setIndex c 0x12345678 = 3
      ∧ tagOf c 0x12345678 = 0x123456 := by decide

/-- Step 5 of 1.5, where the policies differ. -/
theorem test_evict :
    let a : Line := { valid := true, tag := 0x30, block := 0x300, recency := 4, freq := 1 }
    ((CacheSet.access .lru 0x10 0x100
        { lines := [a, { valid := true, tag := 0x20, block := 0x200, recency := 3, freq := 1 }]
          clock := 4 }).2 = .missEvict 0x200 0x100)
      ∧ (CacheSet.access .lfu 0x10 0x100
        { lines := [a, { valid := true, tag := 0x20, block := 0x200, recency := 2, freq := 2 }]
          clock := 4 }).2 = .missEvict 0x300 0x100 := by decide

/-- The step runs the word placed: `sub x3, x1, x2` in 5 cycles. -/
theorem test_step :
    let t := nextOf (step ((probe 5 7).withFetchWord 32 0x402081B3))
    t.readReg 3 = 0xFFFFFFFE ∧ t.stats.cycles = 5 := by decide

/-- A retired invalid word emits its diagnostic (2.7). -/
theorem test_step_invalid :
    (nextOf (step (State.reset.withFetchWord 32 0x0020B1B3))).diagnostics
      = [⟨0x1000, 0x0020B1B3⟩] := by decide

/-- A load faults when it retires, not before (2.9). -/
theorem test_step_fault :
    let t := nextOf (step (State.reset.withFetchWord 32 0xFF802103))
    t.run = .faulted .data 0xFFFFFFF8 ∧ t.stats.cycles = 4 := by decide

/-! ### Witnesses: the hypotheses of each statement can be met -/

theorem test_witness_DecodeOfEncode :
    (Instr.jal 1 0x1FFFFE).wellFormed = true ∧ (Instr.beq 1 2 0x1000).wellFormed = true
      ∧ Instr.ecall.wellFormed = true := by decide

/-- For `EncodeOfDecode`, `ImmediateBits`, `JumpImmediateBits`, `OperandFields`: a word for every opcode; for
the immediates of 2.2 the extreme values, so bits 0 and 31 both ways. -/
theorem test_witness_decoded :
    (decode 0x002081B3 = some (.add 3 1 2) ∧ opcodeOf 0x002081B3 = 0x33#7)
      ∧ (decode 0x80000013 = some (.addi 0 0 0x800) ∧ opcodeOf 0x80000013 = 0x13#7
        ∧ (Instr.addi 0 0 0x800).immediate = 0xFFFFF800)
      ∧ (decode 0x7FF00013 = some (.addi 0 0 0x7FF) ∧ (Instr.addi 0 0 0x7FF).immediate = 0x7FF)
      ∧ (decode 0xFFC0A183 = some (.lw 3 1 0xFFC) ∧ opcodeOf 0xFFC0A183 = 0x03#7)
      ∧ (decode 0x004280E7 = some (.jalr 1 5 4) ∧ opcodeOf 0x004280E7 = 0x67#7)
      ∧ (decode 0x80000023 = some (.sb 0 0 0x800) ∧ opcodeOf 0x80000023 = 0x23#7
        ∧ (Instr.sb 0 0 0x800).immediate = 0xFFFFF800)
      ∧ (decode 0xFE000FA3 = some (.sb 0 0 0xFFF) ∧ (Instr.sb 0 0 0xFFF).immediate = 0xFFFFFFFF) := by
  decide

theorem test_witness_decoded_offsets :
    (decode 0x80000063 = some (.beq 0 0 0x1000) ∧ opcodeOf 0x80000063 = 0x63#7
        ∧ (Instr.beq 0 0 0x1000).immediate = 0xFFFFF000)
      ∧ (decode 0x7E000FE3 = some (.beq 0 0 4094) ∧ (Instr.beq 0 0 4094).immediate = 0xFFE)
      ∧ (decode 0xFFFFF037 = some (.lui 0 0xFFFFF) ∧ opcodeOf 0xFFFFF037 = 0x37#7
        ∧ (Instr.lui 0 0xFFFFF).immediate = 0xFFFFF000)
      ∧ (decode 0x00001197 = some (.auipc 3 1) ∧ opcodeOf 0x00001197 = 0x17#7)
      ∧ (decode 0x800000EF = some (.jal 1 0x100000) ∧ opcodeOf 0x800000EF = 0x6F#7
        ∧ (Instr.jal 1 0x100000).immediate = 0xFFF00000)
      ∧ (decode 0x7FFFF0EF = some (.jal 1 0xFFFFE) ∧ (Instr.jal 1 0xFFFFE).immediate = 0xFFFFE)
      ∧ (decode 0x00000073 = some .ecall ∧ opcodeOf 0x00000073 = 0x73#7) := by decide

/-- 1.2, and the ends n = 1 and n = 32 of the range. -/
theorem test_witness_SignExtensionLaws :
    sextN 12 0x800 = 0xFFFFF800 ∧ (0x7FF#32).getLsbD 11 = false ∧ sextN 12 0x7FF = 0x7FF
      ∧ sextN 1 3 = 0xFFFFFFFF ∧ sextN 32 0x80000000 = 0x80000000 ∧ zextN 1 3 = 1 := by decide

/-- 2.3: the two sides of the comparison, and the shift amounts 0 and 31 at bits 0 and 31. -/
theorem test_witness_Alu :
    ((0xFFFFFFFF#32).toInt < (1#32).toInt ∧ alu .slt 0xFFFFFFFF 1 = 1)
      ∧ ((5#32).toInt ≤ (5#32).toInt ∧ alu .slt 5 5 = 0)
      ∧ (alu .sll 1 0x20 = 1 ∧ alu .sll 1 0x1F = 0x80000000)
      ∧ (alu .srl 0x80000000 0x20 = 0x80000000 ∧ alu .srl 0x80000000 0x1F = 1)
      ∧ (alu .sra 0x80000000 0x20 = 0x80000000 ∧ alu .sra 0x80000000 0x1F = 0xFFFFFFFF)
      ∧ (alu .mul 0xFFFFFFFF 0xFFFFFFFF = 1 ∧ alu .mulh 0xFFFFFFFF 0xFFFFFFFF = 0) := by decide

/-- 2.3: each case of `AluDivide`. -/
theorem test_witness_AluDivide :
    (alu .div 0 0 = 0xFFFFFFFF ∧ alu .rem 0xFFFFFFF9 0 = 0xFFFFFFF9)
      ∧ (alu .div 0x80000000 0xFFFFFFFF = 0x80000000 ∧ alu .rem 0x80000000 0xFFFFFFFF = 0)
      ∧ (2#32 ≠ 0#32 ∧ ¬(0xFFFFFFF9#32 = 0x80000000#32 ∧ 2#32 = 0xFFFFFFFF#32)
        ∧ alu .div 0xFFFFFFF9 2 = 0xFFFFFFFD ∧ alu .rem 0xFFFFFFF9 2 = 0xFFFFFFFF) := by decide

/-- The last byte, half and word of memory, and the first address past each. -/
theorem test_witness_access :
    (probe 0xFFFF 0).mem.wf = true ∧ State.reset.cfg.memSize = 0x10000
      ∧ (effectiveAddress ((probe 0xFFFF 0).readReg 1) 0).toNat + 1 ≤ 0x10000
      ∧ (effectiveAddress ((probe 0xFFFE 0).readReg 1) 0).toNat + 2 ≤ 0x10000
      ∧ (effectiveAddress ((probe 0xFFFC 0).readReg 1) 0).toNat + 4 ≤ 0x10000
      ∧ 0x10000 < (effectiveAddress ((probe 0x10000 0).readReg 1) 0).toNat + 1
      ∧ 0x10000 < (effectiveAddress ((probe 0xFFFF 0).readReg 1) 0).toNat + 2
      ∧ 0x10000 < (effectiveAddress ((probe 0xFFFD 0).readReg 1) 0).toNat + 4 := by decide

theorem test_witness_EcallRequests :
    (State.reset.writeReg 10#5 10).readReg 10#5 = State.reset.cfg.exitCode
      ∧ State.reset.readReg 10#5 ≠ State.reset.cfg.exitCode := by decide

/-- The zero word at 0x1000, and the first pc whose word reaches past memory. -/
theorem test_witness_InvalidWordAndFetchFault :
    State.reset.cfg.legal = true ∧ State.reset.run = .running
      ∧ State.reset.fetchWord State.reset.pc = some 0 ∧ decode 0 = none
      ∧ State.reset.cfg.memSize < (State.reset.jumpTo 0xFFFD).pc.toNat + 4 := by decide

theorem test_witness_ReadsLittleEndian :
    (probeMem 0 0).memRead 0x2001 1 = some 0x82 ∧ (probeMem 0 0).memRead 0x2000 2 = some 0x8280
      ∧ (probeMem 0 0).memRead 0x2000 4 = some 0x12348280
      ∧ (probeMem 0 0).memRead 0xFFFC 4 = some 0 ∧ (probeMem 0 0).memRead 0xFFFD 4 = none := by decide

/-- For `WritesLittleEndian` and `ReadAfterWrite`. -/
theorem test_witness_write :
    (probeMem 0 0).mem.wf = true ∧ (probeMem 0 0).memWrite 0xFFFD 4 5 = none
      ∧ ((probeMem 0 0).memWrite 0xFFFC 4 5).isSome = true
      ∧ (0x2000#32).toNat + 4 ≤ (0xFFFC#32).toNat
      ∧ ((probeMem 0 0).memWrite 0x2000 4 5).isSome = true
      ∧ (0x1000#32).toNat + 4 ≤ (0x2000#32).toNat := by decide

/-- 1.1: both ends of the range of s + b. -/
theorem test_witness_AddressDecomposition :
    (let c := { Config.initial with setIndexBits := 16, blockOffsetBits := 16 };
      c.setIndexBits + c.blockOffsetBits ≤ 32 ∧ blockAddress c 0xDEADBEEF = 0xDEAD0000
        ∧ setIndex c 0xDEADBEEF = 0xDEAD ∧ tagOf c 0xDEADBEEF = 0)
      ∧ (let c := { Config.initial with setIndexBits := 0, blockOffsetBits := 0 };
        blockAddress c 0xDEADBEEF = 0xDEADBEEF ∧ setIndex c 0xDEADBEEF = 0
          ∧ tagOf c 0xDEADBEEF = 0xDEADBEEF) := by decide

/-- A set with one valid line and one free one (after access 1 of 1.4). -/
def halfSet : CacheSet :=
  { lines := [Line.installed 0x10 0x100 1, Line.empty], clock := 1 }

/-- A full set (after access 2 of 1.5). -/
def fullSet : CacheSet :=
  { lines := [Line.installed 0x10 0x100 1, Line.installed 0x20 0x200 2], clock := 2 }

theorem test_witness_CacheHit :
    halfSet.lines[0]? = some (Line.installed 0x10 0x100 1)
      ∧ (halfSet.lines.Pairwise fun x y => x.valid = true → y.valid = true → x.tag ≠ y.tag) := by
  decide

theorem test_witness_CacheMissFree :
    (∀ m ∈ halfSet.lines, m.valid = true → m.tag ≠ 0x20)
      ∧ halfSet.lines[1]? = some Line.empty ∧ Line.empty.valid = false
      ∧ ∀ j m, j < 1 → halfSet.lines[j]? = some m → m.valid = true := by
  refine ⟨by decide, by decide, by decide, fun j m hj hm => ?_⟩
  obtain rfl : j = 0 := by omega
  have : some (Line.installed 0x10 0x100 1) = some m := hm
  cases this
  rfl

theorem test_witness_CacheMissEvict :
    fullSet.lines ≠ [] ∧ ∀ m ∈ fullSet.lines, m.valid = true ∧ m.tag ≠ 0x30 := by decide

theorem test_witness_CacheAccessCounts :
    setIndex State.reset.cfg 0xFFFFFFFF < State.reset.cache.length
      ∧ State.reset.cfg.cacheEnabled = false
      ∧ (let s := { State.reset with cfg := { Config.initial with cacheEnabled := true } };
        setIndex s.cfg 0xFFFFFFFF < s.cache.length ∧ s.cfg.cacheEnabled = true) := by decide

/-- For `CacheNeverAffectsData` and `StepNeverTakesBack`. -/
theorem test_witness_next : isNext (cycle State.reset) = true ∧ isNext (step State.reset) = true := by
  decide

/-- A Bubble, a fault, each `wbSel`, no write, a trap and an invalid record in MEM/WB. -/
theorem test_witness_WritebackStage :
    let kind (raw : Word) := (inMemWb raw State.reset).retiring.map fun r =>
      (r.ctrl.regWrite, r.rd, r.ctrl.wbSel)
    State.reset.memwb = .bubble
      ∧ (inMemWb 0xFF802103 State.reset).wbFault = some ⟨.data, 0xFFFFFFF8⟩
      ∧ kind 0x002081B3 = some (true, 3#5, .alu) ∧ kind 0x0001A183 = some (true, 3#5, .mem)
      ∧ kind 0x020000EF = some (true, 1#5, .link) ∧ kind 0x00208033 = some (true, 0#5, .alu)
      ∧ kind 0x0020A423 = some (false, 0#5, .alu)
      ∧ (inMemWb 0x00000073 State.reset).wbRequest = some ⟨0, 0⟩
      ∧ (inMemWb 0x0020B1B3 State.reset).wbDiagnostic = some ⟨0x1000, 0x0020B1B3⟩ := by decide

/-- Producers in EX/MEM, with and without a link, in MEM/WB only, and nowhere; a write this cycle. -/
theorem test_witness_OperandSelection :
    (inExMem 0x002081B3 State.reset).exMemProduces 3 = true
      ∧ (inExMem 0x020000EF State.reset).exMemProduces 1 = true
      ∧ (inMemWb 0x002081B3 State.reset).memWbProduces 3 = true
      ∧ (inMemWb 0x002081B3 State.reset).exmem = .bubble
      ∧ (inMemWb 0x002081B3 State.reset).rfWrite = some (3#5, 0xFFFC)
      ∧ State.reset.rfWrite = none ∧ State.reset.cfg.rfWriteFirst = true
      ∧ State.reset.memWbProduces 3 = false := by decide

/-- A load of x3 in ID/EX with a reader of x3 in IF/ID. -/
def loadUse : State := { inIdEx 0x0001A183 State.reset with ifid := .occupied (fetched 0x00318233) }

/-- A taken branch, `beq x0, x0, 12`, in ID/EX. -/
def takenBranch : State :=
  { inIdEx 0x00000663 State.reset with ifid := .occupied (fetched 0x00200293) }

theorem test_witness_StallCondition_stall : loadUse.stall = true := by decide

theorem test_witness_StallCondition_taken :
    takenBranch.LatchesOk ∧ takenBranch.takenTarget = some 0x100C := by
  refine ⟨⟨?_, ?_, ?_, ?_, ?_, ?_⟩, by decide⟩
  · intro f h; cases h; exact Or.inl ⟨rfl, rfl⟩
  · intro r h; cases h; exact decodeWith_ok (Or.inl ⟨rfl, rfl⟩) _
  · intro r h; cases h
  · intro r h; cases h
  · intro _; rfl
  · intro r q h; cases h

/-- A fault passing by, an `add`, a load past memory, a load and a store inside. -/
theorem test_witness_MemoryStage :
    let e (raw : Word) := (fetched raw).executedBy State.reset
    State.reset.cfg.memSize = 0x10000
      ∧ { e 0 with fault := some ⟨.fetch, 0⟩ }.fault ≠ none
      ∧ ((e 0x002081B3).ctrl.memRead = false ∧ (e 0x002081B3).ctrl.memWrite = false)
      ∧ ((e 0xFF802103).ctrl.memRead = true ∧ (e 0xFF802103).fault = none
        ∧ ¬(e 0xFF802103).aluResult.toNat + (e 0xFF802103).ctrl.width.bytes ≤ 0x10000)
      ∧ ((e 0x0001A183).ctrl.memRead = true
        ∧ (e 0x0001A183).aluResult.toNat + (e 0x0001A183).ctrl.width.bytes ≤ 0x10000)
      ∧ ((e 0x0020A423).ctrl.memWrite = true ∧ (e 0x0020A423).ctrl.memRead = false
        ∧ (e 0x0020A423).aluResult.toNat + (e 0x0020A423).ctrl.width.bytes ≤ 0x10000) := by decide

/-- For `RedirectFlushes` and `FlushedHasNoEffect`. -/
theorem test_witness_redirect :
    takenBranch.cfg.legal = true ∧ takenBranch.run = .running ∧ takenBranch.wbFault = none
      ∧ takenBranch.takenTarget = some 0x100C := by decide

/-- For `StallAndAdvance` (both clauses) and `CountersAdvance`. -/
theorem test_witness_StallAndAdvance :
    loadUse.cfg.legal = true ∧ loadUse.run = .running ∧ loadUse.wbFault = none
      ∧ loadUse.takenTarget = none ∧ loadUse.stall = true
      ∧ State.reset.cfg.legal = true ∧ State.reset.run = .running ∧ State.reset.wbFault = none
      ∧ State.reset.takenTarget = none ∧ State.reset.stall = false := by decide

theorem test_witness_FaultingCycleCommitsNothing :
    (inMemWb 0xFF802103 State.reset).cfg.legal = true
      ∧ (inMemWb 0xFF802103 State.reset).run = .running
      ∧ (inMemWb 0xFF802103 State.reset).wbFault = some ⟨.data, 0xFFFFFFF8⟩ := by decide

theorem test_witness_OnlyRunningAdvances :
    { Config.initial with memSize := 0 }.legal = false
      ∧ { Config.initial with memSize := 2 ^ 32 }.legal = true
      ∧ { Config.initial with setIndexBits := 29 }.legal = false
      ∧ (State.reset.exit).cfg.legal = true ∧ (State.reset.exit).run ≠ .running
      ∧ State.reset.cfg.legal = true ∧ State.reset.run = .running := by decide

/-- The PC wraps past the end of the address space, and Fetch goes on at 0: after a fetch there when
MEM_SIZE = 2^32, and behind a fault record when memory is smaller (log entry 26). -/
theorem test_pc_wrap :
    let full : State := { State.reset with cfg := { Config.initial with memSize := 2 ^ 32 }, pc := 0xFFFFFFFC }
    let small := State.reset.jumpTo 0xFFFFFFFC
    full.fetchStage.fault = none ∧ full.nextPc = 0 ∧ full.commit.fetchStage.fault = none
      ∧ small.fetchStage.fault = some ⟨.fetch, 0xFFFFFFFC⟩ ∧ small.nextPc = 0
      ∧ small.commit.fetchStage.fault = none := by decide

/-- For `ResetState`, the clauses on MEM: a byte of one chunk, of two, none, and the first past memory. -/
theorem test_witness_ResetState_memory :
    let l : Launch :=
      { regs := resetRegs Config.initial, chunks := [(0x1000, [1, 2, 3]), (0x1001, [4]), (0xFFFF, [5, 6])] }
    l.chunks = [] ++ (0x1000, [1, 2, 3]) :: [(0x1001, [4]), (0xFFFF, [5, 6])]
      ∧ (∀ q ∈ [(0x1001, [(4 : Byte)]), (0xFFFF, [5, 6])], chunkCovers q (0x1000 + 2) = false)
      ∧ (∀ q ∈ l.chunks, chunkCovers q 0xFFF = false ∧ chunkCovers q 0x1003 = false)
      ∧ chunkCovers (0x1000, [1, 2, 3]) 0x1000 = true ∧ chunkCovers (0x1000, [1, 2, 3]) 0x1002 = true
      ∧ [0xFFF, 0x1000, 0x1001, 0x1002, 0x1003, 0xFFFF, 0x10000].map
          (State.resetWith Config.initial l).mem.readByte = [0, 1, 4, 3, 0, 5, 0] := by decide

/-- For `ResetState`, `LaunchSatisfiesInvariant` and `BootSequence`. -/
theorem test_witness_launch :
    let l := Launch.initial Config.initial
    l.chunks = [] ∧ Config.initial.legal = true ∧ Config.initial.resetPc.getLsbD 0 = false
      ∧ (State.resetWith Config.initial l).fetchWord Config.initial.resetPc = some 0 := by decide

/-- For `StepKeepsInvariant`, `StepKeepsPcsEven` and `CyclesCountInstructions`: a state other than reset. -/
theorem test_witness_invariant :
    (State.reset.jumpTo 0x2000).Inv ∧ (State.reset.jumpTo 0x2000).PcsEven
      ∧ isNext (step (State.reset.jumpTo 0x2000)) = true
      ∧ isNext (cycles 1 (State.reset.jumpTo 0x2000)) = true
      ∧ (nextOf (cycles 1 (State.reset.jumpTo 0x2000))).noFault = true := by
  refine ⟨⟨rfl, ⟨rfl, ?_⟩, rfl, ⟨rfl, ?_, rfl⟩, latchesOk_of_drained rfl rfl rfl rfl, ?_⟩,
    ⟨rfl, ?_, ?_, ?_, ?_⟩, by decide, by decide, by decide⟩
  · intro cell h; cases h
  · intro i set h
    have h' := List.mem_of_getElem? h
    have : set ∈ List.replicate 4 { lines := List.replicate 2 Line.empty, clock := 0 } := h'
    rw [(List.mem_replicate.mp this).2]
    refine ⟨rfl, ?_, by decide, by decide⟩
    intro l hl hv
    rw [(List.mem_replicate.mp hl).2] at hv
    cases hv
  · constructor <;> decide
  all_goals intro r h; cases h

/-- `sub x3, x1, x2` placed at the PC, nothing in flight. -/
def placed : State := (probe 5 7).withFetchWord 32 0x402081B3

theorem test_witness_StepRunsDecodedInstruction :
    placed.cfg.legal = true ∧ placed.run = .running ∧ placed.ifid = .bubble
      ∧ placed.idex = .bubble ∧ placed.exmem = .bubble ∧ placed.memwb = .bubble
      ∧ placed.fetchWord placed.pc = some 0x402081B3 ∧ decode 0x402081B3 = some (.sub 3 1 2)
      ∧ 4 ≤ placed.cfg.memSize ∧ placed.mem.wf = true := by decide

/-- Nothing in EX/MEM; then, three cycles on, an instruction in EX/MEM. -/
theorem test_witness_PipelineRefinesSequential :
    (placed.Coherent ∧ placed.archView.run = .running ∧ placed.exmem = .bubble
        ∧ placed.rfHazardFree = true ∧ placed.storeHazardFree = true)
      ∧ (placed.commit.commit.commit.Coherent
        ∧ placed.commit.commit.commit.archView.run = .running
        ∧ placed.commit.commit.commit.exmem ≠ .bubble
        ∧ placed.commit.commit.commit.rfHazardFree = true
        ∧ placed.commit.commit.commit.storeHazardFree = true) := by
  have h0 : placed.Coherent := coherent_of_drained rfl rfl rfl
  have h1 := coherent_commit (s := placed) (by decide) h0 (by decide) (by decide)
  have h2 := coherent_commit (s := placed.commit) (by decide) h1 (by decide) (by decide)
  have h3 := coherent_commit (s := placed.commit.commit) (by decide) h2 (by decide) (by decide)
  exact ⟨⟨h0, by decide, rfl, by decide, by decide⟩, h3, by decide, by decide, by decide, by decide⟩

/-- For `CountersAdvance` and `ExitCycleCompletes`: a load in EX/MEM with the cache enabled. -/
def cachedLoad : State :=
  let s := inExMem 0x0001A183 State.reset
  { s with cfg := { s.cfg with cacheEnabled := true } }

theorem test_witness_CountersAdvance :
    cachedLoad.cfg.legal = true ∧ cachedLoad.run = .running ∧ cachedLoad.wbFault = none
      ∧ cachedLoad.accessRequest = some 0x3000 ∧ (nextOf (cycle cachedLoad)).stats.misses = 1
      ∧ loadUse.accessRequest = none := by decide

/-- For `StepKeepsPcsEven`: all four latches occupied. -/
theorem test_witness_StepKeepsPcsEven :
    let s := State.reset.commit.commit.commit.commit
    s.PcsEven ∧ s.ifid.isOccupied = true ∧ s.idex.isOccupied = true ∧ s.exmem.isOccupied = true
      ∧ s.memwb.isOccupied = true := by
  refine ⟨⟨by decide, ?_, ?_, ?_, ?_⟩, by decide⟩ <;> (intro r h; cases h; decide)

/-- An exit in MEM/WB: alone, with a store or a load in EX/MEM, with a taken branch in ID/EX, and with a
stall. -/
theorem test_witness_ExitCycleCompletes :
    let s := State.reset.writeReg 10#5 10
    let x (t : State) : State := { t with rf := s.rf, memwb := (inMemWb 0x00000073 s).memwb }
    s.readReg 10#5 = 10
      ∧ ((x s).cfg.legal = true ∧ (x s).run = .running ∧ (x s).wbExit = true
        ∧ (x s).exitHazardFree = true ∧ (x s).storeRequest = none)
      ∧ ((x (inExMem 0x0020A423 s)).wbExit = true
        ∧ (x (inExMem 0x0020A423 s)).storeRequest = some ⟨8, 4, 0xFFFC⟩)
      ∧ ((x cachedLoad).wbExit = true ∧ (x cachedLoad).accessRequest = some 0x3000
        ∧ (x s).accessRequest = none)
      ∧ ((x takenBranch).wbExit = true ∧ (x takenBranch).takenTarget = some 0x100C)
      ∧ ((x loadUse).wbExit = true ∧ (x loadUse).stall = true ∧ (x loadUse).takenTarget = none) := by
  decide

end Sys2Proof.Tests
end

section
/-!
Sign and zero extension (spec/00_scope.md R12): what `sextN` and `zextN` are, bit by bit, and the two laws of `sextN`.
-/
namespace Sys2Proof.Machine

/-- The sign bit that `sextN` copies upwards. -/
theorem msb_setWidth_of_pos {n : Nat} (hn : 1 ≤ n) (v : Word) :
    (v.setWidth n).msb = v.getLsbD (n - 1) := by
  simp [BitVec.msb_setWidth, show 0 < n from hn]

theorem getLsbD_sextN {n k : Nat} (hn : 1 ≤ n) (hk : k < 32) (v : Word) :
    (sextN n v).getLsbD k = if k < n then v.getLsbD k else v.getLsbD (n - 1) := by
  rw [sextN, BitVec.getLsbD_signExtend, msb_setWidth_of_pos hn]
  by_cases hkn : k < n <;> simp [hk, hkn]

theorem getLsbD_zextN {n k : Nat} (hk : k < 32) (v : Word) :
    (zextN n v).getLsbD k = (decide (k < n) && v.getLsbD k) := by
  simp [zextN, BitVec.getLsbD_setWidth, hk]

/-- Sign extension keeps the `n` bits it extends. -/
theorem setWidth_sextN {n : Nat} (hn : n ≤ 32) (v : Word) :
    (sextN n v).setWidth n = v.setWidth n := by
  ext k hk
  rw [BitVec.getElem_setWidth, BitVec.getElem_setWidth,
    getLsbD_sextN (by omega) (by omega), if_pos hk]

/-- The first law of R12: `sextN n` reads only the low `n` bits, which it keeps. -/
theorem sextN_sextN {n : Nat} (hn : n ≤ 32) (v : Word) : sextN n (sextN n v) = sextN n v :=
  congrArg (BitVec.signExtend 32) (setWidth_sextN hn v)

/-- With a clear sign bit the two extensions agree. -/
theorem sextN_eq_zextN {n : Nat} {v : Word} (hn : 1 ≤ n) (hsign : v.getLsbD (n - 1) = false) :
    sextN n v = zextN n v :=
  BitVec.signExtend_eq_setWidth_of_msb_false ((msb_setWidth_of_pos hn v).trans hsign)

theorem toNat_zextN {n : Nat} (hn : n ≤ 32) (v : Word) : (zextN n v).toNat = v.toNat % 2 ^ n := by
  rw [zextN, BitVec.toNat_setWidth_of_le hn, BitVec.toNat_setWidth]

/-- Settles O8: the bits are those of the library's extensions, `sextN` is idempotent because it keeps
the low `n` bits, and it agrees with `zextN` where the sign bit is clear. -/
theorem signExtensionLaws : Obligations.SignExtensionLaws := by
  unfold Obligations.SignExtensionLaws
  intro n v hpos hle
  refine ⟨fun k hk => getLsbD_sextN hpos hk v, fun k hk => getLsbD_zextN hk v,
    sextN_sextN hle v, fun hsign => ?_⟩
  rw [sextN_eq_zextN hpos hsign, toNat_zextN hle]

end Sys2Proof.Machine
end

section
/-!
The I, S, B and U immediates of a decoded word (spec/30_encoding.md R150, R152 to R154): the immediate each
opcode's decoder assembles from the word, and the bits of each extended immediate.
-/
namespace Sys2Proof.Machine

/-! ### The bits of an extended immediate -/

/-- Sign extension copies bit `n` of an (n+1)-bit field into every bit above it (R12). -/
theorem getLsbD_signExtend_succ {n k : Nat} (hk : k < 32) (v : BitVec (n + 1)) :
    (v.signExtend 32).getLsbD k = if k < n then v.getLsbD k else v.getLsbD n := by
  rw [BitVec.getLsbD_signExtend, BitVec.msb_eq_getLsbD_last, Nat.add_sub_cancel]
  obtain hlt | rfl | hgt := Nat.lt_trichotomy k n
  · simp [hk, hlt, Nat.lt_succ_of_lt hlt]
  · simp [hk]
  · simp [hk, show ¬ k < n + 1 by omega, show ¬ k < n by omega]

theorem getLsbD_sext12_immIOf {k : Nat} (hk : k < 32) (w : Word) :
    (sext12 (immIOf w)).getLsbD k = if k < 11 then w.getLsbD (20 + k) else w.getLsbD 31 := by
  rw [sext12, getLsbD_signExtend_succ hk]
  by_cases hlow : k < 11
  · simp [immIOf, hlow, show k < 12 by omega]
  · simp [immIOf, hlow]

theorem getLsbD_sext12_immSOf {k : Nat} (hk : k < 32) (w : Word) :
    (sext12 (immSOf w)).getLsbD k
      = if k < 5 then w.getLsbD (7 + k) else if k < 11 then w.getLsbD (20 + k) else w.getLsbD 31 := by
  rw [sext12, getLsbD_signExtend_succ hk, immS_bit, immS_bit]
  by_cases hlow : k < 11
  · simp [hlow, show k < 12 by omega]
  · simp [hlow, show ¬ k < 5 by omega]

theorem getLsbD_sext13_immBOf {k : Nat} (hk : k < 32) (w : Word) :
    (sext13 (immBOf w)).getLsbD k
      = if k = 0 then false
        else if k < 5 then w.getLsbD (7 + k)
        else if k < 11 then w.getLsbD (20 + k)
        else if k = 11 then w.getLsbD 7
        else w.getLsbD 31 := by
  rw [sext13, getLsbD_signExtend_succ hk, immB_bit, immB_bit]
  obtain hlt | rfl | hgt := Nat.lt_trichotomy k 11
  · simp [hlt, show k < 12 by omega]
  · simp
  · simp [show ¬ k < 12 by omega, show ¬ k < 11 by omega, show ¬ k < 5 by omega,
      show k ≠ 0 by omega, show k ≠ 11 by omega]

theorem getLsbD_upperImm_immUOf {k : Nat} (hk : k < 32) (w : Word) :
    (upperImm (immUOf w)).getLsbD k = if k < 12 then false else w.getLsbD k := by
  rw [upperImm, BitVec.getLsbD_append]
  by_cases hlow : k < 12
  · simp [hlow]
  · simp [hlow, immUOf, show k - 12 < 20 by omega, show 12 + (k - 12) = k by omega]

/-! ### Shift-immediates: the shift amount is an I-immediate (R151) -/

/-- In a shift-immediate the I-immediate is `funct7` over the shift amount. -/
theorem immIOf_eq_append (w : Word) : immIOf w = funct7Of w ++ rs2Of w :=
  (BitVec.extractLsb'_append_extractLsb'_eq_extractLsb' (x := w) (start₁ := 20) (len₁ := 5)
    (start₂ := 25) (len₂ := 7) rfl).symm

theorem sext12_zero_append (shamt : BitVec 5) : sext12 (0b0000000#7 ++ shamt) = shamtWord shamt := by
  revert shamt; decide

theorem sext12_srai_append (shamt : BitVec 5) :
    sext12 (0b0100000#7 ++ shamt) = 0x400#32 + shamtWord shamt := by
  revert shamt; decide

/-! ### The immediate of a decoded word, by opcode -/

section
variable {w : Word} {i : Instr}

/-- Shift-immediates included: their shift amount word is the I-immediate of the whole word (R151). -/
theorem immediate_of_decodeOpImm (h : decodeOpImm w = some i) : i.immediate = sext12 (immIOf w) := by
  unfold decodeOpImm at h
  split at h
  case h_6 => -- `slli`
    split at h <;> cases h
    next hf7 => rw [immIOf_eq_append, hf7, sext12_zero_append]; rfl
  case h_7 => -- `srli`, `srai`
    split at h <;> cases h
    next hf7 => rw [immIOf_eq_append, hf7, sext12_zero_append]; rfl
    next hf7 => rw [immIOf_eq_append, hf7, sext12_srai_append]; rfl
  case h_8 => cases h
  all_goals cases h; rfl

theorem immediate_of_decodeLoad (h : decodeLoad w = some i) : i.immediate = sext12 (immIOf w) := by
  unfold decodeLoad at h
  split at h <;> cases h <;> rfl

theorem immediate_of_decodeJalr (h : decodeJalr w = some i) : i.immediate = sext12 (immIOf w) := by
  unfold decodeJalr at h
  split at h <;> cases h
  rfl

theorem immediate_of_decodeStore (h : decodeStore w = some i) : i.immediate = sext12 (immSOf w) := by
  unfold decodeStore at h
  split at h <;> cases h <;> rfl

theorem immediate_of_decodeBranch (h : decodeBranch w = some i) : i.immediate = sext13 (immBOf w) := by
  unfold decodeBranch at h
  split at h <;> cases h <;> rfl

theorem immediate_of_opcode_I (h : decode w = some i)
    (hop : opcodeOf w = 0x13#7 ∨ opcodeOf w = 0x03#7 ∨ opcodeOf w = 0x67#7) :
    i.immediate = sext12 (immIOf w) := by
  obtain hop | hop | hop := hop <;> simp only [decode, hop] at h
  · exact immediate_of_decodeOpImm h
  · exact immediate_of_decodeLoad h
  · exact immediate_of_decodeJalr h

theorem immediate_of_opcode_S (h : decode w = some i) (hop : opcodeOf w = 0x23#7) :
    i.immediate = sext12 (immSOf w) := by
  simp only [decode, hop] at h
  exact immediate_of_decodeStore h

theorem immediate_of_opcode_B (h : decode w = some i) (hop : opcodeOf w = 0x63#7) :
    i.immediate = sext13 (immBOf w) := by
  simp only [decode, hop] at h
  exact immediate_of_decodeBranch h

theorem immediate_of_opcode_U (h : decode w = some i)
    (hop : opcodeOf w = 0x37#7 ∨ opcodeOf w = 0x17#7) : i.immediate = upperImm (immUOf w) := by
  obtain hop | hop := hop <;> simp only [decode, hop] at h <;> cases h <;> rfl

end

/-- Settles O5: each opcode's decoder assembles the immediate field of its format, whose extension has
the stated bits. -/
theorem immediateBits : Obligations.ImmediateBits := by
  unfold Obligations.ImmediateBits
  intro w i h
  refine ⟨fun hop k hk => ?_, fun hop k hk => ?_, fun hop k hk => ?_, fun hop k hk => ?_⟩
  · rw [immediate_of_opcode_I h hop, getLsbD_sext12_immIOf hk]
  · rw [immediate_of_opcode_S h hop, getLsbD_sext12_immSOf hk]
  · rw [immediate_of_opcode_B h hop, getLsbD_sext13_immBOf hk]
  · rw [immediate_of_opcode_U h hop, getLsbD_upperImm_immUOf hk]

end Sys2Proof.Machine
end

section
/-!
The ALU (spec/40_alu_register.md R202 to R210): one rule per selector on integers or bit by bit, for addition and
subtraction, the signed comparison, the bitwise operations, the shifts and the multiplications.
-/
namespace Sys2Proof.Machine

/-! ### The shifts (R204 to R206) -/

theorem alu_sll_eq (a b : Word) : alu .sll a b = a <<< (b.toNat % 32) :=
  congrArg (a <<< ·) (shiftAmount_eq b)

theorem alu_srl_eq (a b : Word) : alu .srl a b = a >>> (b.toNat % 32) :=
  congrArg (a >>> ·) (shiftAmount_eq b)

theorem alu_sra_eq (a b : Word) : alu .sra a b = a.sshiftRight (b.toNat % 32) :=
  congrArg a.sshiftRight (shiftAmount_eq b)

theorem getLsbD_alu_sll {k : Nat} (hk : k < 32) (a b : Word) :
    (alu .sll a b).getLsbD k = (decide (b.toNat % 32 ≤ k) && a.getLsbD (k - b.toNat % 32)) := by
  rw [alu_sll_eq, BitVec.getLsbD_shiftLeft, ← decide_not]
  simp only [hk, decide_true, Bool.true_and, Nat.not_lt]

/-- What enters at the top are the bits of opA from 32 upwards, all zero. -/
theorem getLsbD_alu_srl (a b : Word) (k : Nat) :
    (alu .srl a b).getLsbD k
      = (decide (k + b.toNat % 32 < 32) && a.getLsbD (k + b.toNat % 32)) := by
  rw [alu_srl_eq, BitVec.getLsbD_ushiftRight, Nat.add_comm]
  by_cases hin : k + b.toNat % 32 < 32
  · simp [hin]
  · simp [hin, BitVec.getLsbD_of_ge a (k + b.toNat % 32) (by omega)]

theorem getLsbD_alu_sra {k : Nat} (hk : k < 32) (a b : Word) :
    (alu .sra a b).getLsbD k
      = if k + b.toNat % 32 < 32 then a.getLsbD (k + b.toNat % 32) else a.getLsbD 31 := by
  rw [alu_sra_eq, BitVec.getLsbD_sshiftRight, BitVec.msb_eq_getLsbD_last, Nat.add_comm]
  simp [hk]

/-- Settles O10: each shift is the library's by opB mod 32, whose bits are known. -/
theorem aluShifts : Obligations.AluShifts := by
  unfold Obligations.AluShifts
  exact fun a b k hk => ⟨getLsbD_alu_sll hk a b, getLsbD_alu_srl a b k, getLsbD_alu_sra hk a b⟩

/-! ### The multiplications (R209, R210) -/

/-- The low word does not depend on whether the operands are read signed or unsigned. -/
theorem alu_mul_eq_ofInt (a b : Word) : alu .mul a b = BitVec.ofInt 32 (a.toInt * b.toInt) := by
  rw [alu_mul_eq, BitVec.ofInt_mul, BitVec.ofInt_toInt, BitVec.ofInt_toInt]

/-- The high word of the signed product is a signed 32-bit number: the product lies between -2^62 and 2^62. -/
theorem toInt_alu_mulh (a b : Word) : (alu .mulh a b).toInt = (a.toInt * b.toInt) / 2 ^ 32 := by
  have hlow : -2 ^ 62 ≤ a.toInt * b.toInt := BitVec.le_toInt_mul_toInt
  have hhigh : a.toInt * b.toInt ≤ 2 ^ 62 := BitVec.toInt_mul_toInt_le
  exact BitVec.toInt_ofInt_eq_self (by decide) (by omega) (by omega)

/-- Bits 63:32 of an integer are its quotient by 2^32, for a negative integer too. -/
theorem extractLsb'_high_ofInt (p : Int) :
    (BitVec.ofInt 64 p).extractLsb' 32 32 = BitVec.ofInt 32 (p / 2 ^ 32) := by
  apply BitVec.eq_of_toNat_eq
  rw [BitVec.extractLsb'_toNat, BitVec.toNat_ofInt, BitVec.toNat_ofInt, Nat.shiftRight_eq_div_pow]
  omega

/-- Settles O11: `MUL` is multiplication of words, which both readings of the operands respect; for
`MULH` the signed product fits 64 bits, so its quotient by 2^32 fits a word and is the high word. -/
theorem aluMultiply : Obligations.AluMultiply := by
  unfold Obligations.AluMultiply
  intro a b
  refine ⟨?_, alu_mul_eq_ofInt a b, toInt_alu_mulh a b, (extractLsb'_high_ofInt _).symm⟩
  rw [alu_mul_eq, BitVec.toNat_mul]

/-! ### Addition, subtraction, comparison and the bitwise operations (R202, R203, R207, R208) -/

theorem toNat_alu_add (a b : Word) : (alu .add a b).toNat = (a.toNat + b.toNat) % 2 ^ 32 :=
  BitVec.toNat_add a b

theorem toNat_alu_sub (a b : Word) :
    ((alu .sub a b).toNat : Int) = ((a.toNat : Int) - (b.toNat : Int)) % 2 ^ 32 := by
  have hsub : (alu .sub a b).toNat = (2 ^ 32 - b.toNat + a.toNat) % 2 ^ 32 := BitVec.toNat_sub a b
  have hb : b.toNat < 2 ^ 32 := b.isLt
  omega

theorem alu_slt_of_lt {a b : Word} (h : a.toInt < b.toInt) : alu .slt a b = 1#32 := if_pos h

theorem alu_slt_of_ge {a b : Word} (h : b.toInt ≤ a.toInt) : alu .slt a b = 0#32 :=
  if_neg (Int.not_lt.mpr h)

/-- Settles O9: each operation is the library's on words, read as integers or bit by bit; `SLT` by the two
sides of the signed comparison. -/
theorem aluAddSubCompareBitwise : Obligations.AluAddSubCompareBitwise := by
  unfold Obligations.AluAddSubCompareBitwise
  intro a b
  exact ⟨toNat_alu_add a b, toNat_alu_sub a b, alu_slt_of_lt, alu_slt_of_ge, fun _ _ =>
    ⟨BitVec.getLsbD_xor, BitVec.getLsbD_or, BitVec.getLsbD_and⟩⟩

end Sys2Proof.Machine
end

section
/-!
One cycle of a legal running machine (spec/70_reset_and_hazards.md): what Writeback does with each content of MEM/WB
(R602), and what the controller does with the front of the pipeline when no branch or jump is taken (R622, R623).
-/
namespace Sys2Proof.Machine

section Cycle

variable {s : State}

theorem cycle_of_running (hlegal : s.cfg.legal = true) (hrun : s.run = .running) :
    cycle s = .next s.afterCycle := by
  simp [cycle, hlegal, hrun]

theorem afterCycle_of_fault {tag : FaultTag} (hfault : s.wbFault = some tag) :
    s.afterCycle = s.raiseFault tag.kind tag.addr := by
  simp [State.afterCycle, hfault]

theorem afterCycle_of_no_fault (hfault : s.wbFault = none) : s.afterCycle = s.commit := by
  simp [State.afterCycle, hfault]

theorem wbFault_of_bubble (h : s.memwb = .bubble) : s.wbFault = none := by
  simp [State.wbFault, h]

theorem wbFault_of_occupied {r : MemWb} (h : s.memwb = .occupied r) : s.wbFault = r.fault := by
  simp [State.wbFault, h]

end Cycle

/-! ### Writeback (R602) -/

section Writeback

variable {s : State}

theorem readReg_commit (s : State) (q : RegIdx) : s.commit.readReg q = s.archView.readReg q :=
  State.readReg_congr (commit_rf s) q

/-- RUN after a commit is RUN of the view, an exit included. -/
theorem commit_run_of_no_fault (hfault : s.wbFault = none) : s.commit.run = s.archView.run := by
  simp [State.commit, State.archView, State.pendingRun, hfault]

/-- A write through `writeReg` is a register write in the sense of R30 and R32, x0 included. -/
theorem regWritten_writeReg (s : State) (rd : RegIdx) (v : Word) :
    RegWritten rd v s (s.writeReg rd v) := by
  intro q
  rw [State.readReg_writeReg]
  by_cases hq : q = rd
  · simp [hq]
  · by_cases hzero : q = 0#5
    · subst hzero; simp [hq]
    · simp [hq, hzero]

theorem writeback_bubble (h : s.memwb = .bubble) (hrun : s.run = .running) :
    RegsKept s s.commit ∧ OutputsKept s s.commit ∧ s.commit.run = .running := by
  have hview := archView_bubble h
  refine ⟨fun q => ?_, ⟨?_, ?_⟩, ?_⟩
  · rw [readReg_commit, hview]; rfl
  · rw [commit_hostRequests, hview]
  · rw [commit_diagnostics, hview]
  · rw [commit_run_of_no_fault (wbFault_of_bubble h), hview, hrun]

variable {r : MemWb}

theorem commit_regWritten (h : s.memwb = .occupied r) (hfault : r.fault = none)
    (hwrite : r.ctrl.regWrite = true) : RegWritten r.rd r.wbValue s s.commit := by
  obtain ⟨hrf, -⟩ := archView_retiring h hfault
  rw [if_pos hwrite] at hrf
  intro q
  rw [readReg_commit, State.readReg_congr hrf]
  exact regWritten_writeReg s r.rd r.wbValue q

theorem commit_regsKept (h : s.memwb = .occupied r) (hfault : r.fault = none)
    (hnowrite : r.ctrl.regWrite = false ∨ r.rd = 0#5) : RegsKept s s.commit := by
  obtain ⟨hrf, -⟩ := archView_retiring h hfault
  intro q
  rw [readReg_commit, State.readReg_congr hrf]
  obtain hoff | hzero := hnowrite
  · simp [hoff]
  · simp [hzero]

theorem commit_hostRequests_of_retiring (h : s.memwb = .occupied r) (hfault : r.fault = none) :
    s.commit.hostRequests
      = if r.ctrl.trap = true then s.hostRequests ++ [s.requestOf] else s.hostRequests := by
  obtain ⟨-, hrequests, -⟩ := archView_retiring h hfault
  exact (commit_hostRequests s).trans hrequests

theorem commit_diagnostics_of_retiring (h : s.memwb = .occupied r) (hfault : r.fault = none) :
    s.commit.diagnostics
      = if r.ctrl.invalid = true then s.diagnostics ++ [{ pc := r.pc, raw := r.raw }]
        else s.diagnostics := by
  obtain ⟨-, -, hdiagnostics, -⟩ := archView_retiring h hfault
  exact (commit_diagnostics s).trans hdiagnostics

theorem commit_run_of_retiring (h : s.memwb = .occupied r) (hfault : r.fault = none) :
    s.commit.run
      = if r.ctrl.trap = true ∧ s.readReg 10#5 = s.cfg.exitCode then .exited else s.run := by
  obtain ⟨-, -, -, hrun⟩ := archView_retiring h hfault
  rw [commit_run_of_no_fault ((wbFault_of_occupied h).trans hfault), hrun]
  simp [State.exitRequested, regCode]

end Writeback

/-- Settles O38, by what MEM/WB holds: a commit leaves registers, outputs and RUN as the view has them,
and the view is known for a bubble and for a retiring record; a faulting cycle only raises the fault. -/
theorem writebackStage : Obligations.WritebackStage := by
  unfold Obligations.WritebackStage
  intro s hlegal hrun
  refine ⟨s.afterCycle, cycle_of_running hlegal hrun, fun hbubble => ?_, fun r hr =>
    ⟨fun tag htag => ?_, fun hfault => ?_⟩⟩
  · rw [afterCycle_of_no_fault (wbFault_of_bubble hbubble)]
    exact writeback_bubble hbubble hrun
  · rw [afterCycle_of_fault ((wbFault_of_occupied hr).trans htag)]
    exact ⟨rfl, fun _ => rfl, rfl, rfl⟩
  · rw [afterCycle_of_no_fault ((wbFault_of_occupied hr).trans hfault)]
    refine ⟨fun ⟨hwrite, _⟩ => ?_, commit_regsKept hr hfault,
      commit_hostRequests_of_retiring hr hfault, ?_, commit_diagnostics_of_retiring hr hfault⟩
    · have hwritten := commit_regWritten hr hfault hwrite
      refine ⟨fun hsel => ?_, fun hsel => ?_, fun hsel => ?_⟩ <;>
        simpa [MemWb.wbValue, hsel] using hwritten
    · rw [commit_run_of_retiring hr hfault, hrun]

/-! ### The front of the pipeline without a redirect (R622, R623) -/

section Front

variable {s : State}

theorem decision_of_stall (hfault : s.wbFault = none) (htaken : s.takenTarget = none)
    (hstall : s.stall = true) : s.decision = .stall := by
  simp [State.decision, hfault, htaken, hstall]

theorem decision_of_no_stall (hfault : s.wbFault = none) (htaken : s.takenTarget = none)
    (hstall : s.stall = false) : s.decision = .advance := by
  simp [State.decision, hfault, htaken, hstall]

theorem commit_of_stall (hdecision : s.decision = .stall) :
    s.commit.pc = s.pc ∧ s.commit.ifid = s.ifid ∧ s.commit.idex = .bubble
      ∧ s.commit.stats.stalls = s.stats.stalls + 1 := by
  obtain ⟨-, hstalls, -⟩ := commit_timing s
  rw [hstalls]
  simp [State.commit, State.nextPc, State.nextIfid, State.nextIdex, hdecision]

theorem commit_of_advance (hdecision : s.decision = .advance) :
    s.commit.pc = s.pc + 4 ∧ s.commit.ifid = .occupied s.fetchStage
      ∧ s.commit.idex = s.decodeStage ∧ s.commit.stats.stalls = s.stats.stalls := by
  obtain ⟨-, hstalls, -⟩ := commit_timing s
  rw [hstalls]
  simp [State.commit, State.nextPc, State.nextIfid, State.nextIdex, hdecision]

theorem commit_branchesTaken_of_no_redirect (htaken : s.takenTarget = none) :
    s.commit.stats.branchesTaken = s.stats.branchesTaken := by
  obtain ⟨-, -, hbranches, -⟩ := commit_timing s
  rw [hbranches, htaken]
  rfl

end Front

/-- Settles O44: with no fault and no redirect the stall alone decides, and each decision fixes the PC, the
front latches and the stall counter; EX/MEM and MEM/WB advance under both. -/
theorem stallAndAdvance : Obligations.StallAndAdvance := by
  unfold Obligations.StallAndAdvance
  intro s hlegal hrun hfault htaken
  refine ⟨s.commit, ?_, rfl, rfl, commit_branchesTaken_of_no_redirect htaken,
    fun hstall => commit_of_stall (decision_of_stall hfault htaken hstall),
    fun hstall => commit_of_advance (decision_of_no_stall hfault htaken hstall)⟩
  rw [cycle_of_running hlegal hrun, afterCycle_of_no_fault hfault]

end Sys2Proof.Machine
end

section
/-!
The codec as a whole (spec/30_encoding.md): decoding and encoding are inverse (R142 to R162), the decoder against the
opcode table (R160, R162), and the immediate and the operand fields of a decoded word (R141, R155, R163).
-/
namespace Sys2Proof

/-! ### Decoding an encoded instruction -/

/-- Settles O2, by the format of the instruction: the fields of a packed word select its own arm. -/
theorem decodeOfEncode : Obligations.DecodeOfEncode := by
  unfold Obligations.DecodeOfEncode
  intro i hwf
  cases i with
  | add | sub | sll | slt | xor | srl | sra | or | and | mul | mulh | div | rem =>
    simp [encode, decode, decodeOp, opcodeOf_packR, funct3Of_packR, funct7Of_packR, rdOf_packR,
      rs1Of_packR, rs2Of_packR]
  | slli | srli | srai =>
    simp [encode, decode, decodeOpImm, opcodeOf_packR, funct3Of_packR, funct7Of_packR, rdOf_packR,
      rs1Of_packR, rs2Of_packR]
  | addi | slti | xori | ori | andi =>
    simp [encode, decode, decodeOpImm, opcodeOf_packI, funct3Of_packI, rdOf_packI, rs1Of_packI,
      immIOf_packI]
  | lb | lh | lw | jalr =>
    simp [encode, decode, decodeLoad, decodeJalr, opcodeOf_packI, funct3Of_packI, rdOf_packI,
      rs1Of_packI, immIOf_packI]
  | sb | sh | sw =>
    simp [encode, decode, decodeStore, opcodeOf_packS, funct3Of_packS, rs1Of_packS, rs2Of_packS,
      immSOf_packS]
  | beq rs1 rs2 offset | bne rs1 rs2 offset | blt rs1 rs2 offset | bge rs1 rs2 offset =>
    have heven : offset.getLsbD 0 = false := by simpa [Instr.wellFormed] using hwf
    simp [encode, decode, decodeBranch, opcodeOf_packB, funct3Of_packB, rs1Of_packB, rs2Of_packB,
      immBOf_packB _ _ _ _ _ heven]
  | lui | auipc => simp [encode, decode, opcodeOf_packU, rdOf_packU, immUOf_packU]
  | jal rd offset =>
    have heven : offset.getLsbD 0 = false := by simpa [Instr.wellFormed] using hwf
    simp [encode, decode, opcodeOf_packJ, rdOf_packJ, immJOf_packJ _ _ _ heven]
  | ecall => decide

/-! ### Encoding a decoded word -/

section Decoded
variable {w : Word} {i : Instr}

theorem encode_of_decodeOp (hop : opcodeOf w = 0x33#7) (h : decodeOp w = some i) :
    i.wellFormed = true ∧ encode i = w := by
  unfold decodeOp at h
  split at h <;> cases h <;> exact ⟨rfl, packR_of_fields hop ‹_› ‹_›⟩

theorem encode_of_decodeOpImm (hop : opcodeOf w = 0x13#7) (h : decodeOpImm w = some i) :
    i.wellFormed = true ∧ encode i = w := by
  unfold decodeOpImm at h
  split at h
  case h_6 | h_7 => split at h <;> cases h <;> exact ⟨rfl, packR_of_fields hop ‹_› ‹_›⟩
  all_goals cases h <;> exact ⟨rfl, packI_of_fields hop ‹_›⟩

theorem encode_of_decodeLoad (hop : opcodeOf w = 0x03#7) (h : decodeLoad w = some i) :
    i.wellFormed = true ∧ encode i = w := by
  unfold decodeLoad at h
  split at h <;> cases h <;> exact ⟨rfl, packI_of_fields hop ‹_›⟩

theorem encode_of_decodeStore (hop : opcodeOf w = 0x23#7) (h : decodeStore w = some i) :
    i.wellFormed = true ∧ encode i = w := by
  unfold decodeStore at h
  split at h <;> cases h <;> exact ⟨rfl, packS_of_fields hop ‹_›⟩

theorem encode_of_decodeBranch (hop : opcodeOf w = 0x63#7) (h : decodeBranch w = some i) :
    i.wellFormed = true ∧ encode i = w := by
  have heven : (!(immBOf w).getLsbD 0) = true := by rw [immB_bit]; rfl
  unfold decodeBranch at h
  split at h <;> cases h <;> exact ⟨heven, packB_of_fields hop ‹_›⟩

theorem encode_of_decodeJalr (hop : opcodeOf w = 0x67#7) (h : decodeJalr w = some i) :
    i.wellFormed = true ∧ encode i = w := by
  unfold decodeJalr at h
  split at h <;> cases h
  exact ⟨rfl, packI_of_fields hop ‹_›⟩

theorem encode_of_decodeSystem (h : decodeSystem w = some i) :
    i.wellFormed = true ∧ encode i = w := by
  unfold decodeSystem at h
  split at h <;> cases h
  exact ⟨rfl, Eq.symm ‹_›⟩

theorem encode_of_decode (h : decode w = some i) : i.wellFormed = true ∧ encode i = w := by
  unfold decode at h
  split at h
  · exact encode_of_decodeOp ‹_› h
  · exact encode_of_decodeOpImm ‹_› h
  · exact encode_of_decodeLoad ‹_› h
  · exact encode_of_decodeStore ‹_› h
  · exact encode_of_decodeBranch ‹_› h
  · cases h; exact ⟨rfl, packU_of_fields ‹_›⟩
  · cases h; exact ⟨rfl, packU_of_fields ‹_›⟩
  · cases h
    have heven : (!(immJOf w).getLsbD 0) = true := by rw [immJ_bit]; rfl
    exact ⟨heven, packJ_of_fields ‹_›⟩
  · exact encode_of_decodeJalr ‹_› h
  · exact encode_of_decodeSystem h
  · cases h

end Decoded

/-- Settles O3: the arm a word takes fixes the fields its format packs. -/
theorem encodeOfDecode : Obligations.EncodeOfDecode := by
  unfold Obligations.EncodeOfDecode
  exact fun _ _ => encode_of_decode

/-! ### The decoder against the opcode table -/

open Laws.Encoding in
/-- The word of every instruction falls under the row of its mnemonic. -/
theorem encode_covered (i : Instr) : Statement i := by
  cases i
  exacts [add _ _ _, sub _ _ _, sll _ _ _, slt _ _ _, xor _ _ _, srl _ _ _, sra _ _ _, or _ _ _,
    and _ _ _, mul _ _ _, mulh _ _ _, div _ _ _, rem _ _ _, addi _ _ _, slti _ _ _, xori _ _ _,
    ori _ _ _, andi _ _ _, slli _ _ _, srli _ _ _, srai _ _ _, lb _ _ _, lh _ _ _, lw _ _ _,
    sb _ _ _, sh _ _ _, sw _ _ _, beq _ _ _, bne _ _ _, blt _ _ _, bge _ _ _, lui _ _, auipc _ _,
    jal _ _, jalr _ _ _, ecall]

/-- A row fixes every field of which its mask has all bits. -/
theorem TableRow.field_of_covers {r : TableRow} {w : Word} {start len : Nat} (h : r.covers w = true)
    (hmask : r.mask.extractLsb' start len = BitVec.allOnes len) :
    w.extractLsb' start len = r.pattern.extractLsb' start len := by
  rw [← beq_iff_eq.mp h, BitVec.extractLsb'_and, hmask, BitVec.and_allOnes]

/-- Whether a word decodes depends on its opcode, on `funct3` but for the U and J formats, on `funct7` for
the R-type words and the shift-immediates, and for opcode 0x73 on the whole word. -/
theorem decode_isSome_congr {w v : Word} (hop : opcodeOf w = opcodeOf v)
    (h3 : opcodeOf v ∉ [0x37#7, 0x17#7, 0x6F#7] → funct3Of w = funct3Of v)
    (h7 : opcodeOf v = 0x33#7 ∨ opcodeOf v = 0x13#7 ∧ funct3Of v ∈ [1#3, 5#3] →
      funct7Of w = funct7Of v)
    (hsys : opcodeOf v = 0x73#7 → w = v) : (decode w).isSome = (decode v).isSome := by
  unfold decode
  rw [hop]
  split
  case h_1 heq =>
    unfold decodeOp
    rw [h3 (by simp [heq]), h7 (.inl heq)]
    split <;> rfl
  case h_2 heq =>
    unfold decodeOpImm
    rw [h3 (by simp [heq])]
    split
    case h_6 hf3 | h_7 hf3 => rw [h7 (.inr ⟨heq, by simp [hf3]⟩)]; split <;> rfl
    all_goals rfl
  case h_3 heq => unfold decodeLoad; rw [h3 (by simp [heq])]; split <;> rfl
  case h_4 heq => unfold decodeStore; rw [h3 (by simp [heq])]; split <;> rfl
  case h_5 heq => unfold decodeBranch; rw [h3 (by simp [heq])]; split <;> rfl
  case h_9 heq => unfold decodeJalr; rw [h3 (by simp [heq])]; split <;> rfl
  case h_10 heq => rw [hsys heq]
  all_goals rfl

/-- The pattern of every row decodes, and its mask has the fields on which decoding depends. -/
theorem opcodeTable_masks : ∀ r ∈ opcodeTable, (decode r.pattern).isSome = true
    ∧ r.mask.extractLsb' 0 7 = BitVec.allOnes 7
    ∧ (opcodeOf r.pattern ∉ [0x37#7, 0x17#7, 0x6F#7] → r.mask.extractLsb' 12 3 = BitVec.allOnes 3)
    ∧ (opcodeOf r.pattern = 0x33#7 ∨ opcodeOf r.pattern = 0x13#7 ∧ funct3Of r.pattern ∈ [1#3, 5#3] →
      r.mask.extractLsb' 25 7 = BitVec.allOnes 7)
    ∧ (opcodeOf r.pattern = 0x73#7 → r.mask.extractLsb' 0 32 = BitVec.allOnes 32) := by
  decide

theorem decode_isSome_of_covers {r : TableRow} {w : Word} (hr : r ∈ opcodeTable)
    (h : r.covers w = true) : (decode w).isSome = true := by
  obtain ⟨hpattern, hop, h3, h7, hsys⟩ := opcodeTable_masks r hr
  rw [decode_isSome_congr (r.field_of_covers h hop) (fun hc => r.field_of_covers h (h3 hc))
    (fun hc => r.field_of_covers h (h7 hc)) (fun hc => ?_), hpattern]
  simpa using r.field_of_covers h (hsys hc)

/-- Two rows differ in a bit that both masks have. -/
theorem opcodeTable_disjoint :
    opcodeTable.Pairwise fun r q => ∀ w : Word, ¬(r.covers w = true ∧ q.covers w = true) := by
  have hbits : opcodeTable.Pairwise fun r q => r.pattern &&& q.mask ≠ q.pattern &&& r.mask := by decide
  refine hbits.imp fun hne w ⟨hr, hq⟩ => hne ?_
  rw [← beq_iff_eq.mp hr, ← beq_iff_eq.mp hq]
  ac_rfl

theorem filter_eq_singleton_of_pairwise {α : Type} {p : α → Bool} {l : List α} {x : α}
    (hdisjoint : l.Pairwise fun a b => ¬(p a = true ∧ p b = true)) (hx : x ∈ l) (hp : p x = true) :
    l.filter p = [x] := by
  induction hdisjoint with
  | nil => cases hx
  | @cons a l hhead _ ih =>
    obtain rfl | hx := List.mem_cons.mp hx
    · rw [List.filter_cons_of_pos hp, List.filter_eq_nil_iff.mpr fun b hb hpb => hhead b hb ⟨hp, hpb⟩]
    · rw [List.filter_cons_of_neg fun hpa => hhead x hx ⟨hpa, hp⟩, ih hx]

/-- Settles O4: a word that decodes falls under its mnemonic's row, by its encoding, and rows are disjoint;
a word under any row decodes. -/
theorem opcodeTableSelects : Obligations.OpcodeTableSelects := by
  unfold Obligations.OpcodeTableSelects
  refine ⟨opcodeTable_disjoint, fun w => ?_⟩
  cases hdec : decode w with
  | some i =>
    obtain ⟨r, hr, hname, hcov⟩ := encode_covered i
    rw [(encode_of_decode hdec).2] at hcov
    rw [filter_eq_singleton_of_pairwise (opcodeTable_disjoint.imp fun h => h w) hr hcov]
    simp [hname]
  | none =>
    have hnone : opcodeTable.filter (fun r => r.covers w) = [] :=
      List.filter_eq_nil_iff.mpr fun r hr hcov => by
        simpa [hdec] using decode_isSome_of_covers hr hcov
    simp [hnone]

/-! ### The J immediate and the operand fields -/

theorem getLsbD_sext21_immJOf {k : Nat} (hk : k < 32) (w : Word) :
    (Machine.sext21 (immJOf w)).getLsbD k
      = if k = 0 then false
        else if k < 11 then w.getLsbD (20 + k)
        else if k = 11 then w.getLsbD 20
        else if k < 20 then w.getLsbD k
        else w.getLsbD 31 := by
  rw [Machine.sext21, Machine.getLsbD_signExtend_succ hk, immJ_bit, immJ_bit]
  by_cases hlow : k < 20
  · rw [if_pos hlow]
    grind
  · simp [hlow, show ¬ k < 11 by omega, show k ≠ 0 by omega, show k ≠ 11 by omega]

/-- Settles O6: opcode 0x6F is `jal`, whose immediate is the extended J offset of the word. -/
theorem jumpImmediateBits : Obligations.JumpImmediateBits := by
  unfold Obligations.JumpImmediateBits
  intro w i h hop k hk
  simp only [decode, hop] at h
  cases h
  exact getLsbD_sext21_immJOf hk w

/-- Settles O7: the word is the encoding of the instruction, and the format packs exactly these fields. -/
theorem operandFields : Obligations.OperandFields := by
  unfold Obligations.OperandFields
  intro w i h
  obtain ⟨-, rfl⟩ := encode_of_decode h
  have hrd : (encode i).extractLsb' 7 5 = rdOf (encode i) := rfl
  have hrs1 : (encode i).extractLsb' 15 5 = rs1Of (encode i) := rfl
  have hrs2 : (encode i).extractLsb' 20 5 = rs2Of (encode i) := rfl
  rw [hrd, hrs1, hrs2]
  cases i with
  | add | sub | sll | slt | xor | srl | sra | or | and | mul | mulh | div | rem | slli | srli | srai =>
    simp [encode, opcodeOf_packR, rdOf_packR, rs1Of_packR, rs2Of_packR, Instr.destReg, Instr.source1,
      Instr.source2]
  | addi | slti | xori | ori | andi | lb | lh | lw | jalr =>
    simp [encode, opcodeOf_packI, rdOf_packI, rs1Of_packI, Instr.destReg, Instr.source1, Instr.source2]
  | sb | sh | sw =>
    simp [encode, opcodeOf_packS, rs1Of_packS, rs2Of_packS, Instr.destReg, Instr.source1, Instr.source2]
  | beq | bne | blt | bge =>
    simp [encode, opcodeOf_packB, rs1Of_packB, rs2Of_packB, Instr.destReg, Instr.source1, Instr.source2]
  | lui | auipc =>
    simp [encode, opcodeOf_packU, rdOf_packU, Instr.destReg, Instr.source1, Instr.source2]
  | jal => simp [encode, opcodeOf_packJ, rdOf_packJ, Instr.destReg, Instr.source1, Instr.source2]
  | ecall => simp [encode, opcodeOf, Instr.destReg, Instr.source1, Instr.source2]

/-- Settles O1: the decoder evaluated on each word. -/
theorem sampleWordsDecode : Obligations.SampleWordsDecode := by
  unfold Obligations.SampleWordsDecode
  decide

end Sys2Proof
end

section
/-!
Division (spec/40_alu_register.md R211, R212): `DIV` by a nonzero divisor and `REM` are the library's signed division and
remainder of words, the overflow case of decision D22 included.
-/
namespace Sys2Proof.Machine

theorem alu_div_zero (a : Word) : alu .div a 0#32 = 0xFFFFFFFF#32 := rfl

theorem alu_rem_zero (a : Word) : alu .rem a 0#32 = a := rfl

/-- The overflow case of D22 is the wrapped quotient, -2^31 itself. -/
theorem alu_div_eq_sdiv {a b : Word} (hb : b ≠ 0#32) : alu .div a b = a.sdiv b := by
  simp only [alu, aluDiv, if_neg hb]
  split
  next hover => rw [hover.1, hover.2]; decide
  next => exact BitVec.eq_of_toInt_eq (by rw [BitVec.toInt_ofInt, BitVec.toInt_sdiv])

/-- The overflow case of D22 leaves no remainder, as -1 divides every number. -/
theorem alu_rem_eq_srem (a b : Word) : alu .rem a b = a.srem b := by
  simp only [alu, aluRem]
  split
  next hb => rw [hb, BitVec.srem_zero]
  next =>
    split
    next hover => rw [hover.1, hover.2]; decide
    next =>
      have hrem : a.toInt - a.toInt.tdiv b.toInt * b.toInt = (a.srem b).toInt := by
        rw [BitVec.toInt_srem, Int.tmod_def, Int.mul_comm]
      rw [hrem, BitVec.ofInt_toInt]

/-- Dividend = quotient * divisor + remainder (R212), on words. -/
theorem sdiv_mul_add_srem (a b : Word) : a.sdiv b * b + a.srem b = a := by
  apply BitVec.eq_of_toInt_eq
  rw [BitVec.toInt_add, BitVec.toInt_mul, BitVec.toInt_sdiv, BitVec.toInt_srem, Int.bmod_mul_bmod,
    Int.bmod_add_bmod, Int.tdiv_mul_add_tmod, BitVec.toInt_bmod_cancel]

/-- Settles O12: both are the library's operations, whose signed values it knows; a zero divisor apart. -/
theorem aluDivide : Obligations.AluDivide := by
  unfold Obligations.AluDivide
  intro a b
  refine ⟨fun hb => ?_, fun hover => ?_, fun hb hover => ⟨?_, ?_⟩, ?_⟩
  · rw [hb]
    exact ⟨alu_div_zero a, alu_rem_zero a⟩
  · rw [hover.1, hover.2]
    decide
  · rw [alu_div_eq_sdiv hb]
    exact BitVec.toInt_sdiv_of_ne_or_ne a b (Decidable.not_and_iff_not_or_not.mp hover)
  · rw [alu_rem_eq_srem, BitVec.toInt_srem]
  · by_cases hb : b = 0#32
    · rw [hb, alu_rem_zero, BitVec.mul_zero, BitVec.zero_add]
    · rw [alu_div_eq_sdiv hb, alu_rem_eq_srem, sdiv_mul_add_srem]

end Sys2Proof.Machine
end

section
/-!
The sequential meaning of each instruction (spec/40_alu_register.md to spec/45_system.md): result, completion and frame,
by the shape its meaning has.
-/
namespace Sys2Proof.Machine

/-! ### Instructions that write one register and move on -/

/-- The shape of every ALU instruction, with the result in the words of its rule. -/
theorem writeReg_advance_next (rd : RegIdx) {v w : Word} (hv : v = w) (s : State) :
    ∃ t, (Host.Outcome.next (s.writeReg rd v).advance : Result) = .next t ∧ t.pc = s.pc + 4
      ∧ OnlyRegister rd w s t :=
  ⟨_, rfl, by simp, hv ▸ onlyRegister_writeReg rd v s⟩

/-- Settles O13: `ADD`, `SUB` and `SLT` are defined as these expressions. -/
theorem regRegArithmetic : Obligations.RegRegArithmetic := by
  unfold Obligations.RegRegArithmetic
  exact fun rd _ _ s => ⟨writeReg_advance_next rd rfl s, writeReg_advance_next rd rfl s,
    writeReg_advance_next rd rfl s⟩

/-- Settles O14: the ALU's bitwise operations are the library's. -/
theorem regRegLogic : Obligations.RegRegLogic := by
  unfold Obligations.RegRegLogic
  exact fun rd _ _ s => ⟨writeReg_advance_next rd rfl s, writeReg_advance_next rd rfl s,
    writeReg_advance_next rd rfl s⟩

/-- Settles O15: the ALU's shifts are the library's by x[rs2] mod 32. -/
theorem regRegShifts : Obligations.RegRegShifts := by
  unfold Obligations.RegRegShifts
  exact fun rd _ _ s => ⟨writeReg_advance_next rd (alu_sll_eq _ _) s,
    writeReg_advance_next rd (alu_srl_eq _ _) s, writeReg_advance_next rd (alu_sra_eq _ _) s⟩

/-- Settles O16: none of the four results depends on the divisor being nonzero. -/
theorem regRegMulDiv : Obligations.RegRegMulDiv := by
  unfold Obligations.RegRegMulDiv
  exact fun rd _ _ s => ⟨writeReg_advance_next rd (alu_mul_eq _ _) s, writeReg_advance_next rd rfl s,
    writeReg_advance_next rd rfl s, writeReg_advance_next rd rfl s⟩

theorem alu_slt_sext12 (a : Word) (imm : BitVec 12) :
    alu .slt a (sext12 imm) = if a.toInt < imm.toInt then 1 else 0 := by
  rw [← sext12_toInt]; rfl

/-- Settles O17: the immediate operand is the sign-extended field; for `slti` that keeps its signed value. -/
theorem regImmArithmetic : Obligations.RegImmArithmetic := by
  unfold Obligations.RegImmArithmetic
  exact fun rd _ _ s => ⟨writeReg_advance_next rd rfl s,
    writeReg_advance_next rd (alu_slt_sext12 _ _) s, writeReg_advance_next rd rfl s,
    writeReg_advance_next rd rfl s, writeReg_advance_next rd rfl s⟩

/-- Settles O18: a shift amount field is below 32, so the ALU shifts by its value. -/
theorem regImmShifts : Obligations.RegImmShifts := by
  unfold Obligations.RegImmShifts
  intro rd rs1 shamt s
  have hamount : shiftAmount (shamtWord shamt) = shamt.toNat := shiftAmount_shamt_eq shamt
  exact ⟨writeReg_advance_next rd (congrArg (s.readReg rs1 <<< ·) hamount) s,
    writeReg_advance_next rd (congrArg (s.readReg rs1 >>> ·) hamount) s,
    writeReg_advance_next rd (congrArg (s.readReg rs1).sshiftRight hamount) s⟩

/-- Settles O19: both add the U-immediate, its field shifted left by 12, to 0 and to the pc. -/
theorem upperImmediates : Obligations.UpperImmediates := by
  unfold Obligations.UpperImmediates
  intro rd imm s
  have hlui : alu .add 0#32 (upperImm imm) = imm.setWidth 32 <<< 12 :=
    (BitVec.zero_add _).trans (upperImm_eq imm)
  exact ⟨writeReg_advance_next rd hlui s,
    writeReg_advance_next rd (congrArg (s.pc + ·) (upperImm_eq imm)) s⟩

/-! ### Jumps and branches -/

/-- Bit 0 of a `jalr` target is cleared (R406). -/
theorem getLsbD_jalrTarget_zero (sum : Word) : (jalrTarget sum).getLsbD 0 = false := by
  simp [jalrTarget]

/-- Settles O20: both link and redirect; the target of `jalr` is taken before the register write. -/
theorem jumpAndLink : Obligations.JumpAndLink := by
  unfold Obligations.JumpAndLink
  intro rd rs1 offset imm s
  exact ⟨⟨_, rfl, rfl, onlyLink_redirect _ _ _ s⟩,
    ⟨_, rfl, rfl, getLsbD_jalrTarget_zero _, onlyLink_redirect _ _ _ s⟩⟩

/-- Settles O21: each condition is the zero flag of `SUB` or `SLT`, or its negation. -/
theorem branches : Obligations.Branches := by
  unfold Obligations.Branches
  intro rs1 rs2 offset s
  refine ⟨branchOn_next _ _ (zeroFlag_sub _ _) offset s, branchOn_next _ _ ?_ offset s,
    branchOn_next _ _ ?_ offset s, branchOn_next _ _ ?_ offset s⟩
  · rw [zeroFlag_sub, ← decide_not]
  · rw [zeroFlag_slt, Bool.not_not]
  · rw [zeroFlag_slt, ← decide_not]
    exact decide_eq_decide.mpr Int.not_lt

/-! ### Loads and stores -/

/-- Settles O22: a load by its width; the value of a byte or half is sign-extended. -/
theorem loadsInRange : Obligations.LoadsInRange := by
  unfold Obligations.LoadsInRange
  exact fun rd rs1 imm s => ⟨load_next .byte rd rs1 imm s, load_next .half rd rs1 imm s,
    load_next .word rd rs1 imm s⟩

/-- Settles O23: a store by its width. -/
theorem storesInRange : Obligations.StoresInRange := by
  unfold Obligations.StoresInRange
  intro rs1 rs2 imm s hwf
  refine ⟨fun hin => ?_, store_next .half rs1 rs2 imm s hwf, store_next .word rs1 rs2 imm s hwf⟩
  obtain ⟨t, hnext, hpc, honly, hbytes⟩ := store_next .byte rs1 rs2 imm s hwf hin
  exact ⟨t, hnext, hpc, honly, hbytes 0 Nat.zero_lt_one⟩

/-- Settles O24: a failed range check, by the width of the access. -/
theorem loadStoreFaults : Obligations.LoadStoreFaults := by
  unfold Obligations.LoadStoreFaults
  exact fun rd rs1 rs2 imm s addr haddr =>
    ⟨fun h => ⟨load_fault .byte rd rs1 imm s addr haddr h, store_fault .byte rs1 rs2 imm s addr haddr h⟩,
      fun h => ⟨load_fault .half rd rs1 imm s addr haddr h, store_fault .half rs1 rs2 imm s addr haddr h⟩,
      fun h => ⟨load_fault .word rd rs1 imm s addr haddr h, store_fault .word rs1 rs2 imm s addr haddr h⟩⟩

/-! ### `ecall`, invalid words and failed fetches -/

theorem exitRequested_iff (s : State) :
    s.exitRequested = true ↔ s.readReg 10#5 = s.cfg.exitCode := by
  simp [State.exitRequested, regCode]

/-- An emitted request is all that `ecall` changes, the pc and RUN apart. -/
theorem onlyRequest_of_emit {s t : State} {pc : Word} {run : Run}
    (h : t = { s.emitRequest s.requestOf with pc := pc, run := run }) : OnlyRequest s t := by
  subst h
  exact ⟨fun _ => rfl, fun _ => rfl, ⟨rfl, rfl, rfl, rfl, rfl⟩, rfl, rfl, rfl,
    ⟨rfl, rfl, rfl, rfl, rfl, rfl, rfl, rfl, rfl⟩⟩

/-- Settles O25, by whether x[10] is `EXIT_CODE`. -/
theorem ecallRequests : Obligations.EcallRequests := by
  unfold Obligations.EcallRequests
  intro s
  simp only [exec, execEcall]
  by_cases hexit : s.readReg 10#5 = s.cfg.exitCode
  · rw [if_pos ((exitRequested_iff s).mpr hexit)]
    exact ⟨_, rfl, onlyRequest_of_emit rfl, fun _ => rfl, fun hne => absurd hexit hne⟩
  · rw [if_neg (mt (exitRequested_iff s).mp hexit)]
    exact ⟨_, rfl, onlyRequest_of_emit rfl, fun he => absurd he hexit, fun _ => ⟨rfl, rfl⟩⟩

theorem seqStep_of_running {s : State} (hlegal : s.cfg.legal = true) (hrun : s.run = .running) :
    seqStep s = s.execNext := by
  simp [seqStep, hlegal, hrun]

/-- Settles O26, by what the fetch gives. -/
theorem invalidWordAndFetchFault : Obligations.InvalidWordAndFetchFault := by
  unfold Obligations.InvalidWordAndFetchFault
  intro s hlegal hrun
  rw [seqStep_of_running hlegal hrun]
  refine ⟨fun raw hfetch hinvalid => ?_, fun hpast => ?_⟩
  · simp only [State.execNext, hfetch, hinvalid]
    rfl
  · have hfetch : s.fetchWord s.pc = none := memRead_none hpast
    simp only [State.execNext, hfetch]
    rfl

/-! ### The stage mapping (R14) -/

theorem stagedAlone_ecall (raw : Word) (s : State) :
    IfId.stagedAlone { pc := s.pc, raw := raw, dec := .admitted .ecall, fault := none } s
      = { s.emitRequest s.requestOf with
          pc := if s.exitRequested then s.pc else s.pc + 4
          run := if s.exitRequested then .exited else s.run } := by
  rfl

/-- The record of an admitted instruction without a fault, passing alone, does what `exec` does. -/
theorem exec_eq_stagedAlone (i : Instr) (raw : Word) (s : State) :
    exec i s
      = .next (IfId.stagedAlone { pc := s.pc, raw := raw, dec := .admitted i, fault := none } s) := by
  cases i with
  | add | sub | sll | slt | xor | srl | sra | or | and | mul | mulh | div | rem | addi | slti | xori
  | ori | andi | slli | srli | lui | auipc =>
    exact staged_alu _ _ s _ _ rfl rfl rfl _ rfl rfl rfl
  | srai rd rs1 shamt =>
    refine staged_alu _ _ s _ _ rfl rfl rfl _ rfl rfl ?_
    exact congrArg (s.readReg rs1).sshiftRight (shiftAmount_shamt shamt)
  | lb | lh | lw => exact staged_load _ _ _ _ s _ _ rfl rfl rfl rfl rfl rfl
  | sb | sh | sw => exact staged_store _ _ _ _ s _ _ rfl rfl rfl rfl rfl rfl
  | beq | bne | blt | bge => exact staged_branch _ _ _ _ _ s _ _ rfl rfl rfl rfl rfl rfl rfl rfl
  | jal | jalr => exact staged_jump _ _ s _ _ rfl rfl rfl rfl _ rfl rfl
  | ecall =>
    rw [stagedAlone_ecall]
    simp only [exec, execEcall]
    cases s.exitRequested <;> rfl

/-- Settles O27, by the shape of the instruction's meaning. -/
theorem stagesGiveMeaning : Obligations.StagesGiveMeaning := by
  unfold Obligations.StagesGiveMeaning
  exact exec_eq_stagedAlone

/-! ### Completion and the register frame -/

/-- What O28 says of an instruction with destination `rd` whose meaning answers `res`. -/
def CompletesWriting (rd : RegIdx) (s : State) (res : Result) : Prop :=
  ∃ t, res = .next t ∧ (∀ r, r ≠ rd → t.readReg r = s.readReg r) ∧ t.readReg 0#5 = 0#32
    ∧ BackgroundKept s t ∧ (t.run = s.run ∨ t.run = .exited ∨ ∃ a, t.run = .faulted .data a)

section Completes
variable {rd : RegIdx} {s t : State}

theorem RegWritten.readReg_ne {v : Word} (h : RegWritten rd v s t) (r : RegIdx) (hr : r ≠ rd) :
    t.readReg r = s.readReg r := by
  rw [h r]
  by_cases hzero : r = 0#5
  · subst hzero; rfl
  · rw [if_neg hzero, if_neg hr]

theorem OnlyRegister.completes {v : Word} (h : OnlyRegister rd v s t) :
    CompletesWriting rd s (.next t) :=
  ⟨t, rfl, h.regs.readReg_ne, rfl, h.background, .inl h.run⟩

theorem OnlyLink.completes {v : Word} (h : OnlyLink rd v s t) : CompletesWriting rd s (.next t) :=
  ⟨t, rfl, h.regs.readReg_ne, rfl, h.background, .inl h.run⟩

theorem OnlyBranch.completes {taken : Bool} (h : OnlyBranch taken s t) :
    CompletesWriting rd s (.next t) :=
  ⟨t, rfl, fun r _ => h.regs r, rfl, h.background, .inl h.run⟩

theorem OnlyLoad.completes {v addr : Word} (h : OnlyLoad rd v addr s t) :
    CompletesWriting rd s (.next t) :=
  ⟨t, rfl, h.regs.readReg_ne, rfl, h.background, .inl h.run⟩

theorem OnlyStore.completes {n : Nat} {addr : Word} (h : OnlyStore n addr s t) :
    CompletesWriting rd s (.next t) :=
  ⟨t, rfl, fun r _ => h.regs r, rfl, h.background, .inl h.run⟩

theorem raiseFault_completes (rd : RegIdx) (s : State) (addr : Word) :
    CompletesWriting rd s (.next (s.raiseFault .data addr)) :=
  ⟨_, rfl, fun _ _ => rfl, rfl, ⟨rfl, rfl, rfl, rfl, rfl, rfl, rfl, rfl, rfl⟩, .inr (.inr ⟨addr, rfl⟩)⟩

theorem branchOn_completes (rd : RegIdx) (taken : Bool) (offset : BitVec 13) (s : State) :
    CompletesWriting rd s (branchOn taken offset s) := by
  cases taken
  · exact (onlyBranch_advance s).completes
  · exact (onlyBranch_redirect _ s).completes

theorem load_completes (n : Width) (rd rs1 : RegIdx) (imm : BitVec 12) (s : State) :
    CompletesWriting rd s (load n rd rs1 imm s) := by
  simp only [load]
  cases s.memRead (effectiveAddress (s.readReg rs1) imm) n.bytes with
  | none => exact raiseFault_completes rd s _
  | some raw => exact (onlyLoad_accessCache rd _ _ s).completes

theorem store_completes (rd : RegIdx) (n : Width) (rs1 rs2 : RegIdx) (imm : BitVec 12) (s : State) :
    CompletesWriting rd s (store n rs1 rs2 imm s) := by
  simp only [store, State.memWrite]
  cases s.inRange (effectiveAddress (s.readReg rs1) imm) n.bytes
  · exact raiseFault_completes rd s _
  · exact (onlyStore_accessCache _ _ _ s).completes

theorem execEcall_completes (rd : RegIdx) (s : State) : CompletesWriting rd s (execEcall s) := by
  obtain ⟨t, hnext, honly, hexit, hgo⟩ := ecallRequests s
  refine ⟨t, hnext, fun r _ => honly.regs r, rfl, honly.background, ?_⟩
  by_cases h : s.readReg 10#5 = s.cfg.exitCode
  · exact .inr (.inl (hexit h))
  · exact .inl (hgo h).1

theorem exec_completes (i : Instr) (s : State) : CompletesWriting i.destReg s (exec i s) := by
  cases i with
  | add | sub | sll | slt | xor | srl | sra | or | and | mul | mulh | div | rem | addi | slti | xori
  | ori | andi | slli | srli | srai | lui | auipc => exact (onlyRegister_writeReg _ _ s).completes
  | lb | lh | lw => exact load_completes _ _ _ _ s
  | sb | sh | sw => exact store_completes _ _ _ _ _ s
  | beq | bne | blt | bge => exact branchOn_completes _ _ _ s
  | jal | jalr => exact (onlyLink_redirect _ _ _ s).completes
  | ecall => exact execEcall_completes _ s

end Completes

/-- Settles O28, by the shape of the instruction's meaning. -/
theorem everyInstructionCompletes : Obligations.EveryInstructionCompletes := by
  unfold Obligations.EveryInstructionCompletes
  exact exec_completes

end Sys2Proof.Machine
end

section
/-!
The memory (spec/20_memory.md R81 to R91): little-endian reads and writes, when they fail, and reads after writes.
-/
namespace Sys2Proof.Machine

/-! ### Reads (R81, R83) -/

theorem memRead_eq_none_iff (s : State) (addr : Word) (n : Nat) :
    s.memRead addr n = none ↔ s.cfg.memSize < addr.toNat + n := by
  simp [State.memRead, State.inRange]

theorem memRead_eq_some {s : State} {addr v : Word} {n : Nat} (h : s.memRead addr n = some v) :
    v = s.mem.readLE addr.toNat n := by
  unfold State.memRead at h
  split at h <;> cases h
  rfl

namespace Memory

/-- A read peels off its lowest byte, as long as the bytes above it fit the word. -/
theorem toNat_readLE_succ_of_lt {m : Memory} {a n : Nat} (h : (readLE m (a + 1) n).toNat < 2 ^ 24) :
    (readLE m a (n + 1)).toNat = (readByte m a).toNat + 2 ^ 8 * (readLE m (a + 1) n).toNat := by
  have hbyte : (readByte m a).toNat < 2 ^ 8 := (readByte m a).isLt
  have hfits : (readLE m (a + 1) n).toNat <<< 8 < 2 ^ 32 := by rw [Nat.shiftLeft_eq]; omega
  rw [readLE, BitVec.toNat_or, BitVec.toNat_shiftLeft, BitVec.toNat_setWidth,
    Nat.mod_eq_of_lt hfits, Nat.mod_eq_of_lt (by omega), Nat.or_comm,
    ← Nat.shiftLeft_add_eq_or_of_lt hbyte, Nat.shiftLeft_eq]
  omega

theorem readLE_lt (m : Memory) (a : Nat) {n : Nat} (hn : n ≤ 4) :
    (readLE m a n).toNat < 2 ^ (8 * n) := by
  induction n generalizing a with
  | zero => exact Nat.one_pos
  | succ n ih =>
    have hrest := ih (a + 1) (by omega)
    have hpow : 2 ^ (8 * n) ≤ 2 ^ 24 := Nat.pow_le_pow_right (by decide) (by omega)
    rw [toNat_readLE_succ_of_lt (hrest.trans_le hpow), Nat.mul_succ, Nat.pow_add]
    have := (readByte m a).isLt
    omega

theorem toNat_readLE_succ (m : Memory) (a : Nat) {n : Nat} (hn : n ≤ 3) :
    (readLE m a (n + 1)).toNat = (readByte m a).toNat + 2 ^ 8 * (readLE m (a + 1) n).toNat :=
  toNat_readLE_succ_of_lt ((readLE_lt m (a + 1) (by omega)).trans_le
    (Nat.pow_le_pow_right (by decide) (by omega)))

end Memory

/-- Settles O29: a read peels off one byte after the other, lowest first. -/
theorem readsLittleEndian : Obligations.ReadsLittleEndian := by
  unfold Obligations.ReadsLittleEndian
  intro s addr
  have hpeel := fun (a n : Nat) (hn : n ≤ 3) => Memory.toNat_readLE_succ s.mem a hn
  have hnil : ∀ a, (s.mem.readLE a 0).toNat = 0 := fun _ => rfl
  refine ⟨fun n _ => memRead_eq_none_iff s addr n, fun v hv => ?_, fun v hv => ?_, fun v hv => ?_, rfl⟩ <;>
    rw [memRead_eq_some hv]
  · rw [hpeel _ 0 (by decide), hnil]
    omega
  · rw [hpeel _ 1 (by decide), hpeel _ 0 (by decide), hnil]
    omega
  · rw [hpeel addr.toNat 3 (by decide), hpeel (addr.toNat + 1) 2 (by decide),
      hpeel (addr.toNat + 2) 1 (by decide), hpeel (addr.toNat + 3) 0 (by decide), hnil]
    omega

/-! ### Writes (R82) -/

theorem memWrite_of_inRange {s : State} {addr : Word} {n : Nat} (h : addr.toNat + n ≤ s.cfg.memSize)
    (v : Word) :
    s.memWrite addr n v = some { s with mem := s.mem.writeLE addr.toNat n v } := by
  simp [State.memWrite, State.inRange, h]

theorem memWrite_of_past {s : State} {addr : Word} {n : Nat} (h : s.cfg.memSize < addr.toNat + n)
    (v : Word) : s.memWrite addr n v = none := by
  simp [State.memWrite, State.inRange, Nat.not_le.mpr h]

theorem memWrite_eq_some {s t : State} {addr v : Word} {n : Nat} (h : s.memWrite addr n v = some t) :
    addr.toNat + n ≤ s.cfg.memSize ∧ t = { s with mem := s.mem.writeLE addr.toNat n v } := by
  obtain hpast | hin := Nat.lt_or_ge s.cfg.memSize (addr.toNat + n)
  · rw [memWrite_of_past hpast] at h; cases h
  · rw [memWrite_of_inRange hin] at h
    exact ⟨hin, (Option.some.inj h).symm⟩

theorem setWidth_ushiftRight_eq_extractLsb' (v : Word) (start : Nat) :
    (v >>> start).setWidth 8 = v.extractLsb' start 8 := by
  ext k hk
  simp

/-- Settles O30: a store inside memory is `writeLE`, whose bytes are known. -/
theorem writesLittleEndian : Obligations.WritesLittleEndian := by
  unfold Obligations.WritesLittleEndian
  intro s addr v n _ hwf
  refine ⟨fun hpast => memWrite_of_past hpast v, fun hin => ⟨_, memWrite_of_inRange hin v, rfl,
    Memory.wf_writeLE _ _ _ _ hwf, fun x hx => Memory.readByte_writeLE_outside _ _ _ _ _ hx,
    fun k hk => ?_⟩⟩
  rw [← setWidth_ushiftRight_eq_extractLsb']
  exact Memory.readByte_writeLE_inside _ _ _ _ _ hwf hk

/-! ### A read after a write (R91) -/

/-- The low bytes of a word, one more at a time. -/
theorem zextN_succ_byte (n : Nat) (v : Word) :
    (v.setWidth 8).setWidth 32 ||| zextN (8 * n) (v >>> 8) <<< 8 = zextN (8 * (n + 1)) v := by
  apply BitVec.eq_of_getLsbD_eq
  intro k hk
  rw [BitVec.getLsbD_or, BitVec.getLsbD_shiftLeft, getLsbD_zextN hk, getLsbD_zextN (by omega)]
  by_cases hlow : k < 8
  · simp [hk, hlow, show k < 8 * (n + 1) by omega]
  · simp [hk, hlow, show k - 8 < 8 * n ↔ k < 8 * (n + 1) by omega, show 8 + (k - 8) = k by omega]

theorem Memory.readLE_writeLE_self (m : Memory) (a n : Nat) (v : Word) (hwf : m.wf = true) :
    (m.writeLE a n v).readLE a n = zextN (8 * n) v := by
  induction n generalizing m a v with
  | zero => ext k hk; simp [readLE, zextN]
  | succ n ih =>
    rw [writeLE, readLE, ih _ _ _ (wf_writeByte m a _ hwf),
      readByte_writeLE_outside _ _ _ _ _ (.inl (Nat.lt_succ_self a)),
      readByte_writeByte_self m a _ hwf, zextN_succ_byte]

/-- Settles O31: the range is inside memory, since the write answers a state; the read peels off the
bytes the write put there, and a disjoint read sees none of them. -/
theorem readAfterWrite : Obligations.ReadAfterWrite := by
  unfold Obligations.ReadAfterWrite
  intro s t addr v n _ hwf hwrite
  obtain ⟨hin, rfl⟩ := memWrite_eq_some hwrite
  refine ⟨?_, fun a k hapart => ?_⟩
  · rw [memRead_some (by exact hin), Memory.readLE_writeLE_self _ _ _ _ hwf]
  · unfold State.memRead
    rw [Memory.readLE_writeLE_disjoint _ _ _ _ _ _ hapart]
    rfl

end Sys2Proof.Machine
end

section
/-!
The cache engine (spec/20_memory.md R101 to R115): the parts of an address, what one access does to a set (hit, free
line, eviction), what it counts, and that no data value depends on it.
-/
namespace Sys2Proof.Machine

/-! ### The parts of an address (R101, R102) -/

section Address
variable (c : Config) (a : Word)

theorem tagOf_eq : tagOf c a = a.toNat / 2 ^ c.blockOffsetBits / 2 ^ c.setIndexBits := by
  rw [tagOf, Nat.shiftRight_eq_div_pow, Nat.add_comm, Nat.pow_add, Nat.div_div_eq_div_mul]

theorem setIndex_eq : setIndex c a = a.toNat / 2 ^ c.blockOffsetBits % 2 ^ c.setIndexBits := by
  rw [setIndex, Nat.and_two_pow_sub_one_eq_mod, Nat.shiftRight_eq_div_pow]

/-- Tag over set index is the block number of the address. -/
theorem tagOf_setIndex_eq : tagOf c a * 2 ^ c.setIndexBits + setIndex c a
    = a.toNat / 2 ^ c.blockOffsetBits := by
  rw [tagOf_eq, setIndex_eq, Nat.div_add_mod']

/-- The block address is the block number times the block size. -/
theorem toNat_blockAddress :
    (blockAddress c a).toNat = a.toNat / 2 ^ c.blockOffsetBits * 2 ^ c.blockOffsetBits := by
  have hlow : setIndex c a <<< c.blockOffsetBits < 2 ^ (c.setIndexBits + c.blockOffsetBits) := by
    rw [Nat.shiftLeft_eq, Nat.pow_add]
    exact Nat.mul_lt_mul_of_pos_right (setIndex_lt c a) (Nat.two_pow_pos _)
  have hlt : a.toNat / 2 ^ c.blockOffsetBits * 2 ^ c.blockOffsetBits < 2 ^ 32 :=
    (Nat.div_mul_le_self _ _).trans_lt a.isLt
  rw [blockAddress_eq, blockOf, BitVec.toNat_ofNat, ← Nat.shiftLeft_add_eq_or_of_lt hlow,
    Nat.shiftLeft_eq, Nat.shiftLeft_eq, Nat.pow_add, ← Nat.mul_assoc, ← Nat.add_mul,
    tagOf_setIndex_eq, Nat.mod_eq_of_lt hlt]

theorem blockNumber_blockAddress : (blockAddress c a).toNat / 2 ^ c.blockOffsetBits
    = a.toNat / 2 ^ c.blockOffsetBits := by
  rw [toNat_blockAddress, Nat.mul_div_cancel _ (Nat.two_pow_pos _)]

end Address

/-- Settles O32: everything but the offset is read off the block number, which the block address keeps. -/
theorem addressDecomposition : Obligations.AddressDecomposition := by
  unfold Obligations.AddressDecomposition
  intro c a _
  have hsplit := Nat.div_add_mod' a.toNat (2 ^ c.blockOffsetBits)
  refine ⟨?_, setIndex_lt c a, ?_, ?_, ?_, ?_⟩
  · rw [Nat.pow_add, ← Nat.mul_assoc, ← Nat.add_mul, tagOf_setIndex_eq, hsplit]
  · rw [toNat_blockAddress, hsplit]
  · apply BitVec.eq_of_toNat_eq
    rw [toNat_blockAddress, blockNumber_blockAddress, toNat_blockAddress]
  · rw [setIndex_eq, setIndex_eq, blockNumber_blockAddress]
  · rw [tagOf_eq, tagOf_eq, blockNumber_blockAddress]

/-! ### One access to a set (R103 to R109) -/

section Access
variable {p : Policy} {tag : Nat} {block : Word} {set : CacheSet} {i : Nat}

theorem access_of_hit (h : findHit set.lines tag = some i) : set.access p tag block
    = ({ lines := set.lines.modify i (Line.touch p (set.clock + 1)), clock := set.clock + 1 }, .hit) := by
  simp [CacheSet.access, h]

theorem access_of_free (hmiss : findHit set.lines tag = none) (h : findFree set.lines = some i) :
    set.access p tag block
      = ({ lines := set.lines.set i (Line.installed tag block (set.clock + 1)),
           clock := set.clock + 1 }, .miss block) := by
  simp [CacheSet.access, hmiss, h]

theorem access_of_victim {v : Line} (hmiss : findHit set.lines tag = none)
    (hfull : findFree set.lines = none) (h : findVictim p set.lines = some (i, v)) :
    set.access p tag block
      = ({ lines := set.lines.set i (Line.installed tag block (set.clock + 1)),
           clock := set.clock + 1 }, .missEvict v.block block) := by
  simp [CacheSet.access, hmiss, hfull, h]

end Access

section Probe
variable {lines : List Line} {tag : Nat} {i : Nat} {l : Line}

theorem findHit_eq_none (h : ∀ m ∈ lines, m.valid = true → m.tag ≠ tag) : findHit lines tag = none := by
  simpa [findHit, List.findIdx?_eq_none_iff] using h

/-- The valid line with the tag is the one found, since no other valid line has its tag. -/
theorem findHit_eq_some (hl : lines[i]? = some l) (hvalid : l.valid = true) (htag : l.tag = tag)
    (hdistinct : lines.Pairwise fun x y => x.valid = true → y.valid = true → x.tag ≠ y.tag) :
    findHit lines tag = some i := by
  obtain ⟨hi, rfl⟩ := List.getElem?_eq_some_iff.mp hl
  rw [findHit, List.findIdx?_eq_some_iff_getElem]
  refine ⟨hi, by simp [hvalid, htag], fun j hji => ?_⟩
  have hne := List.pairwise_iff_getElem.mp hdistinct j i (by omega) hi hji
  simpa [← htag, hvalid] using fun hj => hne hj hvalid

theorem findFree_eq_some (hl : lines[i]? = some l) (hfree : l.valid = false)
    (hlowest : ∀ j m, j < i → lines[j]? = some m → m.valid = true) : findFree lines = some i := by
  obtain ⟨hi, rfl⟩ := List.getElem?_eq_some_iff.mp hl
  rw [findFree, List.findIdx?_eq_some_iff_getElem]
  refine ⟨hi, by simp [hfree], fun j hji => ?_⟩
  simp [hlowest j _ hji (List.getElem?_eq_getElem (by omega))]

theorem findFree_eq_none (h : ∀ m ∈ lines, m.valid = true) : findFree lines = none := by
  simpa [findFree, List.findIdx?_eq_none_iff] using h

end Probe

/-- Settles O33: the probe finds the line, and the access touches it in place. -/
theorem cacheHit : Obligations.CacheHit := by
  unfold Obligations.CacheHit
  intro p tag block set i l hl hvalid htag hdistinct
  have hfound := findHit_eq_some hl hvalid htag hdistinct
  refine ⟨_, access_of_hit hfound, rfl, List.length_modify .., ?_, ?_, fun j hj => ?_⟩
  · rintro rfl
    simp [hl, Line.touch]
  · rintro rfl
    simp [hl, Line.touch]
  · exact List.getElem?_modify_ne _ _ hj.symm

/-- Settles O34: the probe misses and the free line of lowest index is overwritten. -/
theorem cacheMissFree : Obligations.CacheMissFree := by
  unfold Obligations.CacheMissFree
  intro p tag block set i l hmiss hl hfree hlowest
  obtain ⟨hi, -⟩ := List.getElem?_eq_some_iff.mp hl
  exact ⟨_, access_of_free (findHit_eq_none hmiss) (findFree_eq_some hl hfree hlowest), rfl,
    List.length_set, List.getElem?_set_self hi, fun j hj => List.getElem?_set_ne hj.symm⟩

/-! ### The victim (R107, R108) -/

theorem evictedBefore_self (p : Policy) (l : Line) : evictedBefore p l l = false := by
  cases p <;> simp [evictedBefore]

theorem evictedBefore_asymm {p : Policy} {x y : Line} (h : evictedBefore p x y = true) :
    evictedBefore p y x = false := by
  cases p <;> simp [evictedBefore] at h ⊢ <;> omega

/-- `evictedBefore` is a strict weak order: being not before is transitive. -/
theorem evictedBefore_false_trans {p : Policy} {x y z : Line} (hxy : evictedBefore p x y = false)
    (hyz : evictedBefore p y z = false) : evictedBefore p x z = false := by
  cases p <;> simp [evictedBefore] at hxy hyz ⊢ <;> omega

/-- The victim is a line of the set, none is evicted before it, and it is evicted before every line of
lower way index. -/
theorem findVictim_spec (p : Policy) {lines : List Line} (hne : lines ≠ []) :
    ∃ i v, findVictim p lines = some (i, v) ∧ lines[i]? = some v
      ∧ ∀ j m, lines[j]? = some m →
        evictedBefore p m v = false ∧ (j < i → evictedBefore p v m = true) := by
  induction lines with
  | nil => exact absurd rfl hne
  | cons l rest ih =>
    by_cases hrest : rest = []
    · subst hrest
      refine ⟨0, l, rfl, rfl, fun j m hm => ?_⟩
      cases j <;> cases hm
      exact ⟨evictedBefore_self p l, fun h => absurd h (Nat.not_lt_zero _)⟩
    · obtain ⟨i, v, hfind, hv, hbest⟩ := ih hrest
      cases hbefore : evictedBefore p v l with
      | true =>
        refine ⟨i + 1, v, by simp [findVictim, hfind, hbefore], hv, fun j m hm => ?_⟩
        cases j with
        | zero => cases hm; exact ⟨evictedBefore_asymm hbefore, fun _ => hbefore⟩
        | succ j =>
          obtain ⟨hmin, hlow⟩ := hbest j m hm
          exact ⟨hmin, fun h => hlow (by omega)⟩
      | false =>
        refine ⟨0, l, by simp [findVictim, hfind, hbefore], rfl, fun j m hm =>
          ⟨?_, fun h => absurd h (Nat.not_lt_zero j)⟩⟩
        cases j with
        | zero => cases hm; exact evictedBefore_self p l
        | succ j => exact evictedBefore_false_trans (hbest j m hm).1 hbefore

/-- Settles O35: the set is full and the probe misses, so the victim is overwritten; what it is follows
from the order of eviction. -/
theorem cacheMissEvict : Obligations.CacheMissEvict := by
  unfold Obligations.CacheMissEvict
  intro p tag block set hne hlines
  obtain ⟨i, v, hvictim, hv, hbest⟩ := findVictim_spec p hne
  obtain ⟨hi, -⟩ := List.getElem?_eq_some_iff.mp hv
  refine ⟨_, i, v, hv, access_of_victim (findHit_eq_none fun m hm _ => (hlines m hm).2)
    (findFree_eq_none fun m hm => (hlines m hm).1) hvictim, rfl, List.length_set,
    List.getElem?_set_self hi, fun j hj => List.getElem?_set_ne hj.symm, ?_, ?_⟩
  · rintro rfl j m hm
    have hm := hbest j m hm
    simp only [evictedBefore, decide_eq_false_iff_not, decide_eq_true_eq] at hm
    omega
  · rintro rfl j m hm
    have hm := hbest j m hm
    simp only [evictedBefore, Bool.or_eq_false_iff, Bool.or_eq_true, Bool.and_eq_false_iff,
      Bool.and_eq_true, decide_eq_false_iff_not, decide_eq_true_eq, beq_iff_eq, beq_eq_false_iff_ne]
      at hm
    omega

/-! ### What an access counts (R112, R113) -/

theorem accessCache_of_disabled {s : State} (h : s.cfg.cacheEnabled = false) (a : Word) :
    s.accessCache a = s := by
  simp [State.accessCache, h]

theorem countAccess_exact (st : Stats) (r : CacheResult) :
    (st.countAccess r).hits = st.hits + (if r = .hit then 1 else 0)
      ∧ (st.countAccess r).misses = st.misses + (if r = .hit then 0 else 1)
      ∧ (st.countAccess r).evictions
        = st.evictions + (if ∃ old new, r = .missEvict old new then 1 else 0) := by
  cases r <;> simp [Stats.countAccess]

/-- Settles O36: an enabled access replaces the selected set and counts its result once. -/
theorem cacheAccessCounts : Obligations.CacheAccessCounts := by
  unfold Obligations.CacheAccessCounts
  intro s a hindex
  refine ⟨fun hoff => accessCache_of_disabled hoff a, fun hon => ?_⟩
  have hselected : selectedSet s.cache (setIndex s.cfg a) = s.cache[setIndex s.cfg a] := by
    simp [selectedSet, hindex]
  obtain ⟨set', r, haccess⟩ : ∃ set' r, (s.cache[setIndex s.cfg a]).access s.cfg.policy (tagOf s.cfg a)
      (blockAddress s.cfg a) = (set', r) := ⟨_, _, rfl⟩
  have heq : s.accessCache a = { s with
      cache := s.cache.set (setIndex s.cfg a) set'
      stats := s.stats.countAccess r
      cacheResults := s.cacheResults ++ [r] } := by
    simp [State.accessCache, hon, cacheAccess, hselected, haccess]
  rw [heq]
  exact ⟨_, set', r, List.getElem?_eq_getElem hindex, haccess, List.getElem?_set_self hindex,
    fun j hj => List.getElem?_set_ne hj.symm, rfl, countAccess_exact s.stats r⟩

/-! ### No data value depends on the cache (R114) -/

section WithoutCache
variable (s : State)

theorem withoutCache_applyRfWrite (w : Option (RegIdx × Word)) :
    (s.applyRfWrite w).withoutCache = s.withoutCache.applyRfWrite w := by
  cases w with
  | none => rfl
  | some w => simp only [State.applyRfWrite, State.writeReg]; split <;> rfl

theorem withoutCache_applyStore (w : Option StoreRequest) :
    (s.applyStore w).withoutCache = s.withoutCache.applyStore w := by
  cases w <;> rfl

theorem withoutCache_applyAccess (a : Option Word) :
    (s.applyAccess a).withoutCache = s.withoutCache := by
  cases a with
  | none => rfl
  | some a =>
    simp only [State.applyAccess, State.accessCache]
    split
    · simp only [State.withoutCache, Stats.countAccess]; split <;> rfl
    · rfl

theorem withoutCache_applyRequest (q : Option HostRequest) :
    (s.applyRequest q).withoutCache = s.withoutCache.applyRequest q := by
  cases q <;> rfl

theorem withoutCache_applyDiagnostic (d : Option Diagnostic) :
    (s.applyDiagnostic d).withoutCache = s.withoutCache.applyDiagnostic d := by
  cases d <;> rfl

/-- The Memory stage requests no access without the cache, and is otherwise as before. -/
theorem memoryOf_withoutCache (r : ExMem) :
    s.withoutCache.memoryOf r = { s.memoryOf r with access := none } := by
  have hread : s.withoutCache.memRead r.aluResult r.ctrl.width.bytes
    = s.memRead r.aluResult r.ctrl.width.bytes := rfl
  have haccess : s.withoutCache.accessFor r.aluResult = none := rfl
  unfold State.memoryOf
  rw [hread, haccess]
  repeat' split
  all_goals rfl

theorem accessRequest_withoutCache : s.withoutCache.accessRequest = none := by
  have hexmem : s.withoutCache.exmem = s.exmem := rfl
  simp only [State.accessRequest, hexmem, memoryOf_withoutCache]
  cases s.exmem <;> rfl

theorem storeRequest_withoutCache : s.withoutCache.storeRequest = s.storeRequest := by
  have hexmem : s.withoutCache.exmem = s.exmem := rfl
  simp only [State.storeRequest, hexmem, memoryOf_withoutCache]

theorem memOut_withoutCache : s.withoutCache.memOut = s.memOut := by
  have hexmem : s.withoutCache.exmem = s.exmem := rfl
  simp only [State.memOut, hexmem, memoryOf_withoutCache]

/-- What a commit makes of the state that the register write, the store, the access and the outputs of the
cycle of `s` leave (R624). -/
def State.commitOnto (s t : State) : State :=
  { t with
    pc := s.nextPc
    ifid := s.nextIfid
    idex := s.nextIdex
    exmem := s.executeStage
    memwb := s.memOut
    stats := s.countCycle t.stats
    run := if s.wbExit then .exited else s.run }

theorem commit_eq_commitOnto : s.commit = s.commitOnto
    (((((s.applyRfWrite s.rfWrite).applyStore s.storeRequest).applyAccess s.accessRequest).applyRequest
      s.wbRequest).applyDiagnostic s.wbDiagnostic) := rfl

theorem commitOnto_withoutCache (t : State) :
    s.withoutCache.commitOnto t.withoutCache = (s.commitOnto t).withoutCache := by
  simp only [State.commitOnto, memOut_withoutCache]
  rfl

theorem commit_withoutCache : s.withoutCache.commit = s.commit.withoutCache := by
  rw [commit_eq_commitOnto, commit_eq_commitOnto, ← commitOnto_withoutCache,
    withoutCache_applyDiagnostic, withoutCache_applyRequest, withoutCache_applyAccess,
    withoutCache_applyStore, withoutCache_applyRfWrite, accessRequest_withoutCache,
    storeRequest_withoutCache]
  rfl

end WithoutCache

/-- Settles O37: a faulting cycle only sets RUN, and a commit uses the cache for the access alone. -/
theorem cacheNeverAffectsData : Obligations.CacheNeverAffectsData := by
  unfold Obligations.CacheNeverAffectsData
  intro s t h
  obtain ⟨hlegal, hrun, rfl⟩ := cycle_next h
  rw [cycle_of_running (s := s.withoutCache) hlegal hrun]
  cases hfault : s.wbFault with
  | some tag =>
    rw [afterCycle_of_fault hfault, afterCycle_of_fault (s := s.withoutCache) hfault]
    rfl
  | none =>
    rw [afterCycle_of_no_fault hfault, afterCycle_of_no_fault (s := s.withoutCache) hfault,
      commit_withoutCache]

end Sys2Proof.Machine
end

section
/-!
The stages and the controller (spec/70_reset_and_hazards.md sections 2 and 3): operands, the stall, the Memory stage, the
redirect and its flush, the faulting cycle, and the counters of a committed cycle.
-/
namespace Sys2Proof.Machine

/-! ### Operands (R603 to R605) -/

section Operand
variable {s : State} {q : RegIdx}

theorem rfView_of_write (hq : q ≠ 0#5) {v : Word} (hfirst : s.cfg.rfWriteFirst = true)
    (hwrite : s.rfWrite = some (q, v)) : s.rfView q = v := by
  simp [State.rfView, hq, hfirst, hwrite]

theorem rfView_of_no_write
    (h : s.cfg.rfWriteFirst = false ∨ ∀ x, s.rfWrite ≠ some (q, x)) : s.rfView q = s.readReg q := by
  unfold State.rfView
  split
  next hzero => rw [hzero]; rfl
  next =>
    split
    next r v hfirst hwrite =>
      obtain hoff | hother := h
      · rw [hoff] at hfirst; cases hfirst
      · exact if_neg fun (hr : r = q) => hother v (hr ▸ hwrite)
    next => rfl

theorem produces_condition_iff {write : Bool} {rd : RegIdx} :
    (write && rd != 0#5 && rd == q) = true ↔ write = true ∧ rd = q ∧ q ≠ 0#5 := by
  simp only [Bool.and_eq_true, bne_iff_ne, beq_iff_eq, and_assoc]
  exact and_congr_right' ⟨fun ⟨hne, heq⟩ => ⟨heq, heq ▸ hne⟩, fun ⟨heq, hne⟩ => ⟨heq ▸ hne, heq⟩⟩

theorem ExMem.produces_iff (e : ExMem) :
    e.produces q = true ↔ e.ctrl.regWrite = true ∧ e.rd = q ∧ q ≠ 0#5 := produces_condition_iff

theorem MemWb.produces_iff (m : MemWb) :
    m.produces q = true ↔ m.ctrl.regWrite = true ∧ m.rd = q ∧ q ≠ 0#5 := produces_condition_iff

theorem exMemProduces_eq_false
    (h : ∀ e, s.exmem = .occupied e → ¬(e.ctrl.regWrite = true ∧ e.rd = q ∧ q ≠ 0#5)) :
    s.exMemProduces q = false := by
  unfold State.exMemProduces
  cases he : s.exmem with
  | bubble => rfl
  | occupied e => exact Bool.eq_false_iff.mpr fun hp => h e he (e.produces_iff.mp hp)

theorem memWbProduces_eq_false
    (h : ∀ m, s.memwb = .occupied m → ¬(m.ctrl.regWrite = true ∧ m.rd = q ∧ q ≠ 0#5)) :
    s.memWbProduces q = false := by
  unfold State.memWbProduces
  cases hm : s.memwb with
  | bubble => rfl
  | occupied m => exact Bool.eq_false_iff.mpr fun hp => h m hm (m.produces_iff.mp hp)

theorem ExMem.produced_eq (e : ExMem) :
    e.produced = if e.ctrl.wbSel = .link then e.link else e.aluResult := by
  unfold ExMem.produced
  cases e.ctrl.wbSel <;> rfl

theorem fwd_of_exMem {e : ExMem} (he : s.exmem = .occupied e) (hp : e.produces q = true) (v : Word) :
    s.fwd true q v = e.produced := by
  simp [State.fwd, State.fwdSource, State.exMemProduces, he, hp]

theorem fwd_of_memWb {m : MemWb} (hno : s.exMemProduces q = false) (hm : s.memwb = .occupied m)
    (hp : m.produces q = true) (v : Word) : s.fwd true q v = m.wbValue := by
  simp [State.fwd, State.fwdSource, hno, State.memWbProduces, hm, hp]

theorem fwd_of_none (hex : s.exMemProduces q = false) (hmw : s.memWbProduces q = false) (v : Word) :
    s.fwd true q v = v := by
  simp [State.fwd, State.fwdSource, hex, hmw]

end Operand

/-- Settles O39, by which of EX/MEM and MEM/WB is a producer. -/
theorem operandSelection : Obligations.OperandSelection := by
  unfold Obligations.OperandSelection
  intro s q v
  refine ⟨rfl, fun hq => rfView_of_write hq, rfView_of_no_write, rfl, fun e he hw hrd hq => ?_,
    fun hex => ⟨fun m hm hw hrd hq => ?_, fun hmw => ?_⟩⟩
  · rw [fwd_of_exMem he (e.produces_iff.mpr ⟨hw, hrd, hq⟩), e.produced_eq]
  · exact fwd_of_memWb (exMemProduces_eq_false hex) hm (m.produces_iff.mpr ⟨hw, hrd, hq⟩) v
  · exact fwd_of_none (exMemProduces_eq_false hex) (memWbProduces_eq_false hmw) v

/-! ### The stall (R607) -/

theorem stall_iff (s : State) : s.stall = true ↔ ∃ q f, s.idex = .occupied q ∧ s.ifid = .occupied f
    ∧ q.ctrl.memRead = true ∧ (f.dec.source1 = some q.rd ∨ f.dec.source2 = some q.rd) := by
  unfold State.stall
  cases s.idex with
  | bubble => simp
  | occupied q => cases s.ifid <;> simp [Decoded.reads]

/-- A branch or jump is no load. -/
theorem ctrl_redirects (i : Instr) (h : i.ctrl.branch = true ∨ i.ctrl.jump = true) :
    i.ctrl.memRead = false := by
  revert h
  cases i <;> simp [Instr.ctrl, Ctrl.zero, Ctrl.regReg, Ctrl.regImm, Ctrl.load, Ctrl.store,
    Ctrl.ofBranch, Ctrl.upper, Ctrl.ofJump]

theorem outcome_eq_some {q : IdEx} {a b target : Word} (h : q.outcome a b = some target) :
    (∃ i, q.dec = .admitted i) ∧ (q.ctrl.branch = true ∨ q.ctrl.jump = true) := by
  unfold IdEx.outcome at h
  split at h
  next i hdec =>
    refine ⟨⟨i, hdec⟩, ?_⟩
    split at h
    next hbranch => exact .inl hbranch
    next =>
      split at h
      next hjump => exact .inr hjump
      next => cases h
  next => cases h
  next => cases h

/-- The record in Execute whose branch or jump is taken. -/
theorem takenTarget_eq_some {s : State} {target : Word} (h : s.takenTarget = some target) :
    ∃ q, s.idex = .occupied q ∧ q.outcome (s.fwd1 q) (s.fwd2 q) = some target := by
  unfold State.takenTarget at h
  split at h
  next => cases h
  next q hq => exact ⟨q, hq, h⟩

theorem stall_of_takenTarget {s : State} (hok : s.LatchesOk) {target : Word}
    (h : s.takenTarget = some target) : s.stall = false := by
  obtain ⟨q, hq, hout⟩ := takenTarget_eq_some h
  obtain ⟨⟨i, hdec⟩, hredirects⟩ := outcome_eq_some hout
  have hctrl : q.ctrl = i.ctrl := by rw [(hok.idex_ok q hq).ctrl_eq, hdec]; rfl
  have hnoload : q.ctrl.memRead = false := hctrl ▸ ctrl_redirects i (hctrl ▸ hredirects)
  refine Bool.eq_false_iff.mpr fun hstall => ?_
  obtain ⟨q', f, hq', -, hload, -⟩ := (stall_iff s).mp hstall
  cases hq.symm.trans hq'
  rw [hnoload] at hload
  cases hload

/-- Settles O40: the instruction in ID/EX cannot be a load and a taken branch or jump. -/
theorem stallCondition : Obligations.StallCondition := by
  unfold Obligations.StallCondition
  exact fun s => ⟨stall_iff s, fun hok _ => stall_of_takenTarget hok⟩

/-! ### The Memory stage (R612) -/

section Memory
variable {s : State} {r : ExMem}

theorem memoryOf_of_pass
    (h : ¬(r.fault = none ∧ (r.ctrl.memRead = true ∨ r.ctrl.memWrite = true))) :
    s.memoryOf r = ⟨r.passOn, none, none⟩ := by
  unfold State.memoryOf
  cases hfault : r.fault with
  | some tag => rfl
  | none =>
    have hno : ¬(r.ctrl.memRead = true ∨ r.ctrl.memWrite = true) := fun ha => h ⟨hfault, ha⟩
    simp [hno]

theorem memoryOf_of_past (hfault : r.fault = none)
    (haccesses : r.ctrl.memRead = true ∨ r.ctrl.memWrite = true)
    (hpast : ¬r.aluResult.toNat + r.ctrl.width.bytes ≤ s.cfg.memSize) :
    s.memoryOf r = ⟨r.faulted, none, none⟩ := by
  simp [State.memoryOf, hfault, haccesses, memRead_none (Nat.not_le.mp hpast)]

theorem memoryOf_of_load (hfault : r.fault = none) (hload : r.ctrl.memRead = true) {raw : Word}
    (hread : s.memRead r.aluResult r.ctrl.width.bytes = some raw) :
    s.memoryOf r = ⟨r.loaded raw, none, s.accessFor r.aluResult⟩ := by
  simp [State.memoryOf, hfault, hload, hread]

theorem memoryOf_of_store (hfault : r.fault = none) (hnoload : r.ctrl.memRead = false)
    (hstore : r.ctrl.memWrite = true)
    (hfits : r.aluResult.toNat + r.ctrl.width.bytes ≤ s.cfg.memSize) :
    s.memoryOf r = ⟨r.passOn, some r.storeRequest, s.accessFor r.aluResult⟩ := by
  simp [State.memoryOf, hfault, hnoload, hstore, memRead_some hfits]

theorem memoryOf_kept (s : State) (r : ExMem) : (s.memoryOf r).out.pc = r.pc
    ∧ (s.memoryOf r).out.raw = r.raw ∧ (s.memoryOf r).out.dec = r.dec ∧ (s.memoryOf r).out.rd = r.rd
    ∧ (s.memoryOf r).out.aluResult = r.aluResult ∧ (s.memoryOf r).out.link = r.link := by
  obtain ⟨h, -⟩ | ⟨h, -⟩ | ⟨raw, h, -⟩ | ⟨raw, h, -⟩ := memoryOf_cases s r <;> rw [h] <;>
    exact ⟨rfl, rfl, rfl, rfl, rfl, rfl⟩

end Memory

/-- Settles O41: a record passes, fails its range check, loads or stores, and each fixes the output. -/
theorem memoryStage : Obligations.MemoryStage := by
  unfold Obligations.MemoryStage
  intro s r accesses fits m
  refine ⟨memoryOf_kept s r, fun hpass => ?_, fun ⟨hfault, haccesses⟩ hpast => ?_,
    fun ⟨hfault, haccesses⟩ hfits => ?_⟩
  · rw [show m = _ from memoryOf_of_pass hpass]
    exact ⟨rfl, rfl, rfl, rfl, rfl⟩
  · rw [show m = _ from memoryOf_of_past hfault haccesses hpast]
    exact ⟨rfl, rfl, rfl, rfl, rfl⟩
  · cases hload : r.ctrl.memRead with
    | true =>
      have hread := memRead_some hfits
      rw [show m = _ from memoryOf_of_load hfault hload hread]
      exact ⟨hfault, rfl, rfl, fun _ => ⟨rfl, _, hread, rfl⟩, fun h => nomatch h⟩
    | false =>
      have hstore : r.ctrl.memWrite = true := haccesses.resolve_left (by simp [hload])
      rw [show m = _ from memoryOf_of_store hfault hload hstore hfits]
      exact ⟨hfault, rfl, rfl, ⟨fun h => (nomatch h), fun _ => ⟨rfl, rfl⟩⟩⟩

/-! ### The redirect and its flush (R620, R621) -/

section Redirect
variable {s : State} {target : Word}

theorem decision_of_redirect (hfault : s.wbFault = none) (htaken : s.takenTarget = some target) :
    s.decision = .redirect target := by
  simp [State.decision, hfault, htaken]

theorem commit_of_redirect (hdecision : s.decision = .redirect target) :
    s.commit.pc = target ∧ s.commit.ifid = .bubble ∧ s.commit.idex = .bubble
      ∧ s.commit.stats.stalls = s.stats.stalls := by
  obtain ⟨-, hstalls, -⟩ := commit_timing s
  rw [hstalls]
  simp [State.commit, State.nextPc, State.nextIfid, State.nextIdex, hdecision]

theorem commit_branchesTaken_of_redirect (htaken : s.takenTarget = some target) :
    s.commit.stats.branchesTaken = s.stats.branchesTaken + 1 := by
  obtain ⟨-, -, hbranches, -⟩ := commit_timing s
  rw [hbranches, htaken]
  rfl

theorem cycle_of_no_fault (hlegal : s.cfg.legal = true) (hrun : s.run = .running)
    (hfault : s.wbFault = none) : cycle s = .next s.commit := by
  rw [cycle_of_running hlegal hrun, afterCycle_of_no_fault hfault]

end Redirect

/-- Settles O42: a redirect is the controller's choice whatever the stall, and it fixes the front. -/
theorem redirectFlushes : Obligations.RedirectFlushes := by
  unfold Obligations.RedirectFlushes
  intro s target hlegal hrun hfault htaken
  obtain ⟨hpc, hifid, hidex, hstalls⟩ := commit_of_redirect (decision_of_redirect hfault htaken)
  obtain ⟨q, hq, -⟩ := takenTarget_eq_some htaken
  have hoccupied : s.commit.exmem.isOccupied = true := by
    simp [State.commit, State.executeStage, hq, Latch.isOccupied]
  exact ⟨s.commit, cycle_of_no_fault hlegal hrun hfault, hpc, hifid, hidex, rfl, hoccupied, rfl,
    commit_branchesTaken_of_redirect htaken, hstalls⟩

/-- The state with another front of the pipeline: PC and IF/ID. -/
def State.withFront (s : State) (pc : Word) (f : Latch IfId) : State := { s with pc := pc, ifid := f }

section Flush
variable (s : State) (pc : Word) (f : Latch IfId)

theorem withFront_applyRfWrite (w : Option (RegIdx × Word)) :
    (s.withFront pc f).applyRfWrite w = (s.applyRfWrite w).withFront pc f := by
  cases w with
  | none => rfl
  | some w => simp only [State.applyRfWrite, State.writeReg]; split <;> rfl

theorem withFront_applyStore (w : Option StoreRequest) :
    (s.withFront pc f).applyStore w = (s.applyStore w).withFront pc f := by
  cases w <;> rfl

theorem withFront_applyAccess (a : Option Word) :
    (s.withFront pc f).applyAccess a = (s.applyAccess a).withFront pc f := by
  cases a with
  | none => rfl
  | some a =>
    have hcfg : (s.withFront pc f).cfg = s.cfg := rfl
    simp only [State.applyAccess, State.accessCache, hcfg]
    split <;> rfl

theorem withFront_applyRequest (q : Option HostRequest) :
    (s.withFront pc f).applyRequest q = (s.applyRequest q).withFront pc f := by
  cases q <;> rfl

theorem withFront_applyDiagnostic (d : Option Diagnostic) :
    (s.withFront pc f).applyDiagnostic d = (s.applyDiagnostic d).withFront pc f := by
  cases d <;> rfl

variable {s} {target : Word}

/-- Under a redirect the old front reaches no field of the next state. -/
theorem commitOnto_withFront (hfault : s.wbFault = none) (htaken : s.takenTarget = some target)
    (t : State) : (s.withFront pc f).commitOnto (t.withFront pc f) = s.commitOnto t := by
  have hfront : (s.withFront pc f).decision = .redirect target :=
    decision_of_redirect (s := s.withFront pc f) hfault htaken
  simp only [State.commitOnto, State.nextPc, State.nextIfid, State.nextIdex, State.countCycle, hfront,
    decision_of_redirect hfault htaken]
  rfl

theorem commit_withFront (hfault : s.wbFault = none) (htaken : s.takenTarget = some target) :
    (s.withFront pc f).commit = s.commit := by
  rw [commit_eq_commitOnto, withFront_applyRfWrite, withFront_applyStore, withFront_applyAccess,
    withFront_applyRequest, withFront_applyDiagnostic, commitOnto_withFront pc f hfault htaken]
  rfl

end Flush

theorem cycle_congr {s t : State} (hcfg : t.cfg = s.cfg) (hrun : t.run = s.run)
    (hafter : t.afterCycle = s.afterCycle) : cycle t = cycle s := by
  simp only [cycle, hcfg, hrun, hafter]

/-- Settles O43: the commit of a redirect does not read the front, and the guards of a cycle do not either. -/
theorem flushedHasNoEffect : Obligations.FlushedHasNoEffect := by
  unfold Obligations.FlushedHasNoEffect
  intro s target pc f hfault htaken
  refine cycle_congr rfl rfl ?_
  rw [afterCycle_of_no_fault hfault, ← commit_withFront pc f hfault htaken]
  exact afterCycle_of_no_fault (s := s.withFront pc f) hfault

/-! ### The faulting cycle (R506) -/

/-- Settles O45: the view of a faulted record in MEM/WB is the state with RUN set. -/
theorem faultingCycleCommitsNothing : Obligations.FaultingCycleCommitsNothing := by
  unfold Obligations.FaultingCycleCommitsNothing
  intro s tag hlegal hrun hfault
  refine ⟨by rw [cycle_of_running hlegal hrun, afterCycle_of_fault hfault]; rfl, ?_⟩
  cases hm : s.memwb with
  | bubble => rw [wbFault_of_bubble hm] at hfault; cases hfault
  | occupied m =>
    rw [archView_fault hm ((wbFault_of_occupied hm).symm.trans hfault)]
    exact ⟨rfl, rfl, rfl, rfl, rfl, rfl, rfl, rfl, rfl, rfl, rfl, fun h => nomatch h⟩

/-! ### The counters of a committed cycle (R606, R626) -/

section Counters
variable {s : State} {used : Bool} {q : RegIdx}

theorem fwdSource_eq_exMem_iff :
    s.fwdSource used q = .exMem ↔ used = true ∧ s.exMemProduces q = true := by
  unfold State.fwdSource
  cases used <;> cases s.exMemProduces q <;> cases s.memWbProduces q <;> simp

theorem fwdSource_eq_memWb_iff : s.fwdSource used q = .memWb
    ↔ used = true ∧ s.exMemProduces q = false ∧ s.memWbProduces q = true := by
  unfold State.fwdSource
  cases used <;> cases s.exMemProduces q <;> cases s.memWbProduces q <;> simp

/-- An operand with a producer in either latch is counted for exactly one of them. -/
theorem forwards_of_operand :
    (if s.fwdSource used q = .exMem then 1 else 0) + (if s.fwdSource used q = .memWb then 1 else 0)
      = if used = true ∧ (s.exMemProduces q = true ∨ s.memWbProduces q = true) then 1 else 0 := by
  simp only [fwdSource_eq_exMem_iff, fwdSource_eq_memWb_iff]
  cases used <;> cases s.exMemProduces q <;> cases s.memWbProduces q <;> simp

/-- The cache fields of a commit are those of the requested access (R624). -/
theorem commit_cacheKept (s : State) : CacheKept (s.applyAccess s.accessRequest) s.commit := by
  obtain ⟨hcache, hhits, hmisses, hevictions, hresults⟩ := commit_access s
  obtain ⟨ocache, ostats, oresults⟩ := archView_other s
  obtain ⟨acache, ahits, amisses, aevictions, aresults⟩ := applyAccess_arch (u := s.archView) (v := s)
    (archView_cfg s) ocache (by rw [ostats]) (by rw [ostats]) (by rw [ostats]) oresults s.accessRequest
  exact ⟨hcache.trans acache, hhits.trans ahits, hmisses.trans amisses, hevictions.trans aevictions,
    hresults.trans aresults⟩

theorem commit_cacheKept_of_none (h : s.accessRequest = none) : CacheKept s s.commit := by
  simpa [h, State.applyAccess] using commit_cacheKept s

theorem commit_cacheKept_of_some {a : Word} (h : s.accessRequest = some a) :
    CacheKept (s.accessCache a) s.commit := by
  simpa [h, State.applyAccess] using commit_cacheKept s

theorem commit_stalls (hfault : s.wbFault = none) : s.commit.stats.stalls
    = s.stats.stalls + (if s.stall = true ∧ s.takenTarget = none then 1 else 0) := by
  obtain ⟨-, hstalls, -⟩ := commit_timing s
  rw [hstalls]
  obtain ⟨_, hdecision, htaken⟩ | ⟨hdecision, htaken, hstall⟩ | ⟨hdecision, htaken, hstall⟩ :=
    decision_cases hfault
  · simp [hdecision, htaken]
  · simp [hdecision, htaken, hstall]
  · simp [hdecision, hstall]

theorem commit_branchesTaken (s : State) : s.commit.stats.branchesTaken
    = s.stats.branchesTaken + (if s.takenTarget = none then 0 else 1) := by
  cases htaken : s.takenTarget with
  | none => exact commit_branchesTaken_of_no_redirect htaken
  | some target => exact commit_branchesTaken_of_redirect htaken

end Counters

/-- Settles O46: the timing of a commit, with each forward counted by its operand's source. -/
theorem countersAdvance : Obligations.CountersAdvance := by
  unfold Obligations.CountersAdvance
  intro s hlegal hrun hfault
  obtain ⟨hcycles, -, -, hexmem, hmemwb⟩ := commit_timing s
  refine ⟨s.commit, cycle_of_no_fault hlegal hrun hfault, hcycles, ?_, ?_, commit_stalls hfault,
    commit_branchesTaken s, commit_cacheKept_of_none, fun a => commit_cacheKept_of_some⟩
  · rw [hexmem, hmemwb]
    unfold State.fwdCount
    cases s.idex with
    | bubble => rfl
    | occupied r =>
      have h1 := forwards_of_operand (s := s) (used := r.use1) (q := r.rs1)
      have h2 := forwards_of_operand (s := s) (used := r.use2) (q := r.rs2)
      simp only
      omega
  · rw [hexmem]
    unfold State.fwdCount
    cases s.idex with
    | bubble => rfl
    | occupied r => simp only [fwdSource_eq_exMem_iff]

end Sys2Proof.Machine
end

section
/-!
What every step keeps (spec/10_state.md, spec/60_exceptions.md section 4): the invariant, even addresses, counters and
outputs that only grow; when the machine advances; and the state after reset.
-/
namespace Sys2Proof.Machine

/-! ### What a cycle keeps, a step keeps -/

/-- A predicate that a faulting cycle and a commit keep is kept by every cycle of a legal running machine. -/
theorem cycle_keeps {P : State → Prop} {s t : State}
    (hfault : ∀ tag, s.wbFault = some tag → P (s.raiseFault tag.kind tag.addr))
    (hcommit : s.cfg.legal = true → s.run = .running → s.wbFault = none → P s.commit)
    (h : cycle s = .next t) : P t := by
  obtain ⟨hlegal, hrun, rfl⟩ := cycle_next h
  cases hf : s.wbFault with
  | some tag => rw [afterCycle_of_fault hf]; exact hfault tag hf
  | none => rw [afterCycle_of_no_fault hf]; exact hcommit hlegal hrun hf

/-- A step keeps what every cycle keeps. -/
theorem step_keeps {P : State → Prop} (hP : ∀ s t, P s → cycle s = .next t → P t) {s t : State}
    (hs : P s) (h : step s = .next t) : P t :=
  runToRetirement_keeps hP pipelineFill s t hs h

/-! ### The invariant -/

theorem inv_raiseFault {s : State} (h : s.Inv) (kind : FaultKind) (addr : Word) :
    (s.raiseFault kind addr).Inv := by
  obtain ⟨hlegal, hmemory, hregs, hcache, hlatches, hcounters⟩ := h
  refine ⟨hlegal, hmemory, hregs, State.CacheOk.congr (s := s) rfl rfl rfl rfl hcache,
    ?_, ?_⟩
  · obtain ⟨hifid, hidex, hexmem, hmemwb, hyounger, hload⟩ := hlatches
    exact ⟨hifid, hidex, hexmem, hmemwb, hyounger, hload⟩
  · obtain ⟨hstalls, hforwards, haccesses, hevictions, hresults⟩ := hcounters
    exact ⟨hstalls, hforwards, haccesses, hevictions, hresults⟩

theorem inv_commit {s : State} (hfault : s.wbFault = none) (h : s.Inv) : s.commit.Inv where
  legal := by rw [commit_cfg]; exact h.legal
  memory := commit_memoryOk h.memory
  regs := commit_regsOk h.regs
  cache := commit_cacheOk h.legal h.cache
  latches := commit_latchesOk hfault h.latches
  counters := commit_countersOk hfault h.counters

theorem inv_cycle {s t : State} (hs : s.Inv) (h : cycle s = .next t) : t.Inv :=
  cycle_keeps (fun tag _ => inv_raiseFault hs tag.kind tag.addr) (fun _ _ hf => inv_commit hf hs) h

/-- Settles O52: a commit keeps each part of the invariant, and a faulting cycle changes none. -/
theorem stepKeepsInvariant : Obligations.StepKeepsInvariant := by
  unfold Obligations.StepKeepsInvariant
  exact fun _ _ => step_keeps fun _ _ => inv_cycle

/-! ### Even addresses (R85) -/

theorem getLsbD_add_zero {a b : Word} (ha : a.getLsbD 0 = false) (hb : b.getLsbD 0 = false) :
    (a + b).getLsbD 0 = false := by
  rw [BitVec.getLsbD_add (by decide), ha, hb, BitVec.carry_zero]
  rfl

theorem getLsbD_add_four {a : Word} (ha : a.getLsbD 0 = false) : (a + 4).getLsbD 0 = false :=
  getLsbD_add_zero ha (by decide)

/-- The offset of a branch and of `jal` is even (R153, R155). -/
theorem immediate_even {i : Instr} (hwf : i.wellFormed = true)
    (hredirects : i.ctrl.branch = true ∨ (i.ctrl.jump = true ∧ i.ctrl.aluA = .pc)) :
    i.immediate.getLsbD 0 = false := by
  cases i with
  | beq _ _ offset | bne _ _ offset | blt _ _ offset | bge _ _ offset =>
    have heven : offset.getLsbD 0 = false := by simpa [Instr.wellFormed] using hwf
    rw [Instr.immediate, sext13, getLsbD_signExtend_succ (by decide), if_pos (by decide), heven]
  | jal _ offset =>
    have heven : offset.getLsbD 0 = false := by simpa [Instr.wellFormed] using hwf
    rw [Instr.immediate, sext21, getLsbD_signExtend_succ (by decide), if_pos (by decide), heven]
  | _ => simp [Instr.ctrl, Ctrl.zero, Ctrl.regReg, Ctrl.regImm, Ctrl.load, Ctrl.store, Ctrl.upper,
      Ctrl.ofJump] at hredirects

/-- An admitted instruction in a fetched record is the decoding of its word. -/
theorem FetchedOk.decode_eq {pc raw : Word} {i : Instr} {fault : Option FaultTag}
    (h : FetchedOk pc raw (.admitted i) fault) : decode raw = some i := by
  obtain ⟨-, hdec⟩ | ⟨-, -, hdec⟩ := h
  · unfold Decoded.ofWord at hdec
    split at hdec <;> cases hdec
    assumption
  · cases hdec

theorem outcome_even {q : IdEx} (hok : q.Ok) (hpc : q.pc.getLsbD 0 = false) {a b target : Word}
    (h : q.outcome a b = some target) : target.getLsbD 0 = false := by
  obtain ⟨⟨i, hdec⟩, -⟩ := outcome_eq_some h
  have hctrl : q.ctrl = i.ctrl := by rw [hok.ctrl_eq, hdec]; rfl
  have himm : q.imm = i.immediate := by rw [hok.imm_eq, hdec]; rfl
  have hwf : i.wellFormed = true := (encode_of_decode (hdec ▸ hok.fetched).decode_eq).1
  have himmediate := immediate_even hwf
  unfold IdEx.outcome IdEx.aluResult at h
  simp only [hdec, hctrl, himm] at h
  cases i with
  | beq | bne | blt | bge =>
    simp only [Instr.ctrl, Ctrl.ofBranch, if_true] at h
    obtain ⟨-, htarget⟩ := Option.ite_none_right_eq_some.mp h
    cases htarget
    exact getLsbD_add_zero hpc (himmediate (.inl rfl))
  | jal =>
    cases h
    exact getLsbD_add_zero hpc (himmediate (.inr ⟨rfl, rfl⟩))
  | jalr =>
    cases h
    exact getLsbD_jalrTarget_zero _
  | _ => cases h

theorem takenTarget_even {s : State} (hok : s.LatchesOk) (hs : s.PcsEven) {target : Word}
    (h : s.takenTarget = some target) : target.getLsbD 0 = false := by
  obtain ⟨q, hq, hout⟩ := takenTarget_eq_some h
  exact outcome_even (hok.idex_ok q hq) (hs.idex_even q hq) hout

theorem fetchStage_pc (s : State) : s.fetchStage.pc = s.pc := by
  unfold State.fetchStage
  split <;> rfl

theorem decodeStage_eq_occupied {s : State} {q : IdEx} (h : s.decodeStage = .occupied q) :
    ∃ f, s.ifid = .occupied f ∧ q = f.decodeWith s.rfView := by
  unfold State.decodeStage at h
  split at h <;> cases h
  exact ⟨_, ‹_›, rfl⟩

theorem executeStage_eq_occupied {s : State} {e : ExMem} (h : s.executeStage = .occupied e) :
    ∃ q, s.idex = .occupied q ∧ e = q.executeWith (s.fwd1 q) (s.fwd2 q) := by
  unfold State.executeStage at h
  split at h <;> cases h
  exact ⟨_, ‹_›, rfl⟩

theorem memOut_eq_occupied {s : State} {m : MemWb} (h : s.memOut = .occupied m) :
    ∃ e, s.exmem = .occupied e ∧ m = (s.memoryOf e).out := by
  unfold State.memOut at h
  split at h <;> cases h
  exact ⟨_, ‹_›, rfl⟩

/-- A bubble holds no record, so whatever is asked of one holds. -/
theorem forall_of_bubble {α : Type} {P : α → Prop} :
    ∀ r, (Latch.bubble : Latch α) = .occupied r → P r :=
  fun _ h => by cases h

/-- The front of the pipeline after a commit, by the controller's choice. -/
theorem commit_front_even {s : State} (hfault : s.wbFault = none) (hok : s.LatchesOk) (hs : s.PcsEven) :
    s.commit.pc.getLsbD 0 = false
      ∧ (∀ f, s.commit.ifid = .occupied f → f.pc.getLsbD 0 = false)
      ∧ ∀ q, s.commit.idex = .occupied q → q.pc.getLsbD 0 = false := by
  obtain ⟨target, hdecision, htaken⟩ | ⟨hdecision, -⟩ | ⟨hdecision, -⟩ := decision_cases hfault
  · obtain ⟨hpc, hifid, hidex, -⟩ := commit_of_redirect hdecision
    rw [hpc, hifid, hidex]
    exact ⟨takenTarget_even hok hs htaken, forall_of_bubble, forall_of_bubble⟩
  · obtain ⟨hpc, hifid, hidex, -⟩ := commit_of_stall hdecision
    rw [hpc, hifid, hidex]
    exact ⟨hs.pc_even, hs.ifid_even, forall_of_bubble⟩
  · obtain ⟨hpc, hifid, hidex, -⟩ := commit_of_advance hdecision
    rw [hpc, hifid, hidex]
    refine ⟨getLsbD_add_four hs.pc_even, fun f hf => ?_, fun q hq => ?_⟩
    · cases hf
      rw [fetchStage_pc]
      exact hs.pc_even
    · obtain ⟨f, hf, rfl⟩ := decodeStage_eq_occupied hq
      exact hs.ifid_even f hf

theorem pcsEven_commit {s : State} (hfault : s.wbFault = none) (hok : s.LatchesOk) (hs : s.PcsEven) :
    s.commit.PcsEven := by
  obtain ⟨hpc, hifid, hidex⟩ := commit_front_even hfault hok hs
  refine ⟨hpc, hifid, hidex, fun e he => ?_, fun m hm => ?_⟩
  · obtain ⟨q, hq, rfl⟩ := executeStage_eq_occupied he
    exact hs.idex_even q hq
  · obtain ⟨e, he, rfl⟩ := memOut_eq_occupied hm
    rw [memoryOf_pc]
    exact hs.exmem_even e he

theorem pcsEven_raiseFault {s : State} (h : s.PcsEven) (kind : FaultKind) (addr : Word) :
    (s.raiseFault kind addr).PcsEven := by
  obtain ⟨hpc, hifid, hidex, hexmem, hmemwb⟩ := h
  exact ⟨hpc, hifid, hidex, hexmem, hmemwb⟩

/-- Settles O53: with the invariant, which says what the latches hold, a redirect goes to an even target,
and every other address moves along the pipeline. -/
theorem stepKeepsPcsEven : Obligations.StepKeepsPcsEven := by
  unfold Obligations.StepKeepsPcsEven
  intro s t hinv heven h
  have hcycle : ∀ u v : State, u.Inv ∧ u.PcsEven → cycle u = .next v → v.Inv ∧ v.PcsEven :=
    fun u v ⟨hu, hpcs⟩ huv => ⟨inv_cycle hu huv,
      cycle_keeps (fun tag _ => pcsEven_raiseFault hpcs tag.kind tag.addr)
        (fun _ _ hf => pcsEven_commit hf hu.latches hpcs) huv⟩
  exact (step_keeps hcycle ⟨hinv, heven⟩ h).2

/-! ### Counters and outputs only grow (R520, R62) -/

/-- No counter of `st'` is below that of `st`. -/
structure Stats.Le (st st' : Stats) : Prop where
  cycles : st.cycles ≤ st'.cycles
  stalls : st.stalls ≤ st'.stalls
  branchesTaken : st.branchesTaken ≤ st'.branchesTaken
  fwdFromExMem : st.fwdFromExMem ≤ st'.fwdFromExMem
  fwdFromMemWb : st.fwdFromMemWb ≤ st'.fwdFromMemWb
  hits : st.hits ≤ st'.hits
  misses : st.misses ≤ st'.misses
  evictions : st.evictions ≤ st'.evictions

/-- `t` keeps the configuration of `s`, and everything `s` has counted and emitted. -/
structure Grows (s t : State) : Prop where
  cfg : t.cfg = s.cfg
  stats : s.stats.Le t.stats
  hostRequests : s.hostRequests <+: t.hostRequests
  diagnostics : s.diagnostics <+: t.diagnostics
  cacheResults : s.cacheResults <+: t.cacheResults

theorem Stats.Le.refl (st : Stats) : st.Le st :=
  ⟨le_rfl, le_rfl, le_rfl, le_rfl, le_rfl, le_rfl, le_rfl, le_rfl⟩

theorem Stats.Le.trans {a b c : Stats} (hab : a.Le b) (hbc : b.Le c) : a.Le c :=
  ⟨hab.cycles.trans hbc.cycles, hab.stalls.trans hbc.stalls,
    hab.branchesTaken.trans hbc.branchesTaken, hab.fwdFromExMem.trans hbc.fwdFromExMem,
    hab.fwdFromMemWb.trans hbc.fwdFromMemWb, hab.hits.trans hbc.hits, hab.misses.trans hbc.misses,
    hab.evictions.trans hbc.evictions⟩

theorem Grows.refl (s : State) : Grows s s :=
  ⟨rfl, .refl _, List.prefix_rfl, List.prefix_rfl, List.prefix_rfl⟩

theorem Grows.trans {s t u : State} (hst : Grows s t) (htu : Grows t u) : Grows s u :=
  ⟨htu.cfg.trans hst.cfg, hst.stats.trans htu.stats, hst.hostRequests.trans htu.hostRequests,
    hst.diagnostics.trans htu.diagnostics, hst.cacheResults.trans htu.cacheResults⟩

theorem countAccess_le (st : Stats) (r : CacheResult) : st.hits ≤ (st.countAccess r).hits
    ∧ st.misses ≤ (st.countAccess r).misses ∧ st.evictions ≤ (st.countAccess r).evictions := by
  cases r <;> simp [Stats.countAccess]

theorem applyAccess_grows (s : State) (a : Option Word) : s.stats.hits ≤ (s.applyAccess a).stats.hits
    ∧ s.stats.misses ≤ (s.applyAccess a).stats.misses
    ∧ s.stats.evictions ≤ (s.applyAccess a).stats.evictions
    ∧ s.cacheResults <+: (s.applyAccess a).cacheResults := by
  cases a with
  | none => exact ⟨le_rfl, le_rfl, le_rfl, List.prefix_rfl⟩
  | some a =>
    simp only [State.applyAccess, State.accessCache]
    split
    · obtain ⟨hhits, hmisses, hevictions⟩ := countAccess_le s.stats (cacheAccess s.cfg s.cache a).2
      exact ⟨hhits, hmisses, hevictions, List.prefix_append _ _⟩
    · exact ⟨le_rfl, le_rfl, le_rfl, List.prefix_rfl⟩

theorem archView_outputs_grow (s : State) : s.hostRequests <+: s.archView.hostRequests
    ∧ s.diagnostics <+: s.archView.diagnostics := by
  simp only [State.archView]
  constructor
  · cases s.wbRequest <;> simp [State.applyRequest]
  · cases s.wbDiagnostic <;> simp [State.applyDiagnostic]

theorem commit_grows (s : State) : Grows s s.commit := by
  obtain ⟨hcycles, hstalls, hbranches, hexmem, hmemwb⟩ := commit_timing s
  obtain ⟨-, hhits, hmisses, hevictions, hresults⟩ := commit_cacheKept s
  obtain ⟨ghits, gmisses, gevictions, gresults⟩ := applyAccess_grows s s.accessRequest
  obtain ⟨grequests, gdiagnostics⟩ := archView_outputs_grow s
  exact ⟨commit_cfg s, ⟨by omega, by omega, by omega, by omega, by omega, by omega, by omega, by omega⟩,
    commit_hostRequests s ▸ grequests, commit_diagnostics s ▸ gdiagnostics, hresults ▸ gresults⟩

theorem cycle_grows {s t : State} (h : cycle s = .next t) : Grows s t :=
  cycle_keeps (P := Grows s)
    (fun _ _ => ⟨rfl, .refl _, List.prefix_rfl, List.prefix_rfl, List.prefix_rfl⟩)
    (fun _ _ _ => commit_grows s) h

/-- Settles O47: every cycle grows, and growing is transitive. -/
theorem stepNeverTakesBack : Obligations.StepNeverTakesBack := by
  unfold Obligations.StepNeverTakesBack
  intro s t h
  obtain ⟨hcfg, hstats, hrequests, hdiagnostics, hresults⟩ :=
    step_keeps (P := Grows s) (fun _ _ hs huv => hs.trans (cycle_grows huv)) (.refl s) h
  obtain ⟨hcycles, hstalls, hbranches, hexmem, hmemwb, hhits, hmisses, hevictions⟩ := hstats
  exact ⟨hcfg, hcycles, hstalls, hbranches, hexmem, hmemwb, hhits, hmisses, hevictions, hrequests,
    hdiagnostics, hresults⟩

/-! ### When the machine advances (R9, R56, R510) -/

theorem legal_iff (c : Config) : c.legal = true ↔ 1 ≤ c.memSize ∧ c.memSize ≤ 2 ^ 32
    ∧ 1 ≤ c.linesPerSet ∧ c.setIndexBits + c.blockOffsetBits ≤ 32 := by
  simp [Config.legal, and_assoc]

/-- A machine whose first cycle stops takes no step: the step stops as the cycle does. -/
theorem step_of_cycle_stops {s : State} (h : ∀ t, cycle s ≠ .next t) : step s = cycle s := by
  unfold step pipelineFill runToRetirement
  split
  · rfl
  · cases hc : cycle s with
    | next t => exact absurd hc (h t)
    | fault f => rfl
    | refused r => rfl

/-- With a bubble in MEM/WB the run goes on. -/
theorem commit_run_of_bubble {s : State} (hbubble : s.memwb = .bubble) (hrun : s.run = .running) :
    s.commit.run = .running :=
  (writeback_bubble hbubble hrun).2.2

theorem memwb_eq_bubble {s : State} (h : ¬s.memwb.isOccupied = true) : s.memwb = .bubble := by
  cases hm : s.memwb with
  | bubble => rfl
  | occupied m => rw [hm] at h; exact absurd rfl h

theorem runToRetirement_next (n : Nat) {s : State} (hlegal : s.cfg.legal = true)
    (hrun : s.run = .running) : ∃ t, runToRetirement n s = .next t := by
  induction n generalizing s with
  | zero => exact ⟨_, cycle_of_running hlegal hrun⟩
  | succ n ih =>
    unfold runToRetirement
    split
    next => exact ⟨_, cycle_of_running hlegal hrun⟩
    next hno =>
      have hbubble := memwb_eq_bubble hno
      rw [cycle_of_no_fault hlegal hrun (wbFault_of_bubble hbubble)]
      exact ih (by rw [commit_cfg]; exact hlegal) (commit_run_of_bubble hbubble hrun)

theorem execNext_next (s : State) : ∃ t, s.execNext = .next t := by
  unfold State.execNext
  split
  · exact ⟨_, rfl⟩
  · split
    · obtain ⟨t, hnext, -⟩ := exec_completes _ s
      exact ⟨t, hnext⟩
    · exact ⟨_, rfl⟩

theorem cycle_of_ended {s : State} (hlegal : s.cfg.legal = true) (hrun : s.run ≠ .running) :
    cycle s = .fault .runEnded := by
  rw [cycle, if_pos hlegal]
  split
  next hrunning => exact absurd hrunning hrun
  all_goals rfl

theorem seqStep_of_ended {s : State} (hlegal : s.cfg.legal = true) (hrun : s.run ≠ .running) :
    seqStep s = .fault .runEnded := by
  rw [seqStep, if_pos hlegal]
  split
  next hrunning => exact absurd hrunning hrun
  all_goals rfl

/-- Settles O48, by the guards of a cycle. -/
theorem onlyRunningAdvances : Obligations.OnlyRunningAdvances := by
  unfold Obligations.OnlyRunningAdvances
  intro s
  refine ⟨legal_iff s.cfg, fun hillegal => ?_, fun hlegal hrun => ?_, fun hlegal hrun => ?_⟩
  · have hcycle : cycle s = .refused .illegalConfiguration := by simp [cycle, hillegal]
    refine ⟨hcycle, ?_, by simp [seqStep, hillegal]⟩
    rw [step_of_cycle_stops (by simp [hcycle]), hcycle]
  · have hcycle := cycle_of_ended hlegal hrun
    refine ⟨hcycle, ?_, seqStep_of_ended hlegal hrun⟩
    rw [step_of_cycle_stops (by simp [hcycle]), hcycle]
  · refine ⟨⟨_, cycle_of_running hlegal hrun⟩, runToRetirement_next _ hlegal hrun, ?_⟩
    rw [seqStep_of_running hlegal hrun]
    exact execNext_next s

end Sys2Proof.Machine
end

section
/-!
The state after reset (spec/10_state.md section 10): its fields under every configuration and launch input, the memory that
the loader's chunks leave, and the invariant.
-/
namespace Sys2Proof.Machine

/-! ### The launch memory (log entry 22) -/

/-- A memory with chunks loaded into it one after the other. -/
def loadChunks (limit : Nat) (m : Memory) (chunks : List (Nat × List Byte)) : Memory :=
  chunks.foldl (fun m chunk => Memory.loadBytes limit m chunk.1 chunk.2) m

theorem launch_memory_eq (c : Config) (l : Launch) : l.memory c = loadChunks c.memSize [] l.chunks := rfl

section Chunks
variable {limit : Nat} {m : Memory} {chunks : List (Nat × List Byte)} {a : Nat}

theorem wf_loadChunks (h : m.wf = true) : (loadChunks limit m chunks).wf = true := by
  induction chunks generalizing m with
  | nil => exact h
  | cons chunk rest ih => exact ih (Memory.wf_loadBytes limit m _ _ h)

theorem below_loadChunks (h : Memory.Below limit m) : Memory.Below limit (loadChunks limit m chunks) := by
  induction chunks generalizing m with
  | nil => exact h
  | cons chunk rest ih => exact ih (Memory.below_loadBytes h)

theorem chunkCovers_eq_false {chunk : Nat × List Byte} (h : chunkCovers chunk a = false) :
    a < chunk.1 ∨ chunk.1 + chunk.2.length ≤ a := by
  simp only [chunkCovers, Bool.and_eq_false_iff, decide_eq_false_iff_not] at h
  omega

/-- A byte that no chunk covers, or past the limit, is left alone. -/
theorem readByte_loadChunks_outside
    (h : (∀ q ∈ chunks, chunkCovers q a = false) ∨ limit ≤ a) :
    (loadChunks limit m chunks).readByte a = m.readByte a := by
  induction chunks generalizing m with
  | nil => rfl
  | cons chunk rest ih =>
    have hrest : (∀ q ∈ rest, chunkCovers q a = false) ∨ limit ≤ a :=
      h.imp_left fun hnone q hq => hnone q (List.mem_cons_of_mem _ hq)
    have hchunk : a < chunk.1 ∨ chunk.1 + chunk.2.length ≤ a ∨ limit ≤ a := by
      obtain hnone | hpast := h
      · have := chunkCovers_eq_false (hnone chunk List.mem_cons_self)
        omega
      · exact .inr (.inr hpast)
    exact (ih hrest).trans (Memory.readByte_loadBytes_outside limit m _ a _ hchunk)

/-- A byte inside memory is that of the last chunk covering it. -/
theorem readByte_loadChunks_last {before after : List (Nat × List Byte)} {chunk : Nat × List Byte}
    {k : Nat} (hm : m.wf = true) (hk : k < chunk.2.length) (hlimit : chunk.1 + k < limit)
    (hlast : ∀ q ∈ after, chunkCovers q (chunk.1 + k) = false) :
    (loadChunks limit m (before ++ chunk :: after)).readByte (chunk.1 + k) = chunk.2[k] := by
  have hsplit : loadChunks limit m (before ++ chunk :: after)
      = loadChunks limit (Memory.loadBytes limit (loadChunks limit m before) chunk.1 chunk.2) after := by
    simp [loadChunks]
  rw [hsplit, readByte_loadChunks_outside (.inl hlast),
    Memory.readByte_loadBytes_inside _ _ _ _ _ (wf_loadChunks hm) hk hlimit]

end Chunks

/-! ### The fields (R70, R630) -/

theorem resetWith_initial :
    State.resetWith Config.initial (Launch.initial Config.initial) = State.reset := by
  decide

theorem readReg_resetWith (c : Config) (l : Launch) {r : RegIdx} (hr : r ≠ 0#5) :
    (State.resetWith c l).readReg r = l.regs[r.toNat]'r.isLt := by
  have hne : ¬0 = r.toNat := fun h => hr (BitVec.eq_of_toNat_eq h.symm)
  simp [State.readReg, State.resetWith, hr, hne]

theorem mem_resetCache {c : Config} {set : CacheSet} (h : set ∈ resetCache c) :
    set = { lines := List.replicate c.linesPerSet Line.empty, clock := 0 } :=
  (List.mem_replicate.mp h).2

/-- Settles O49: the fields by definition, the memory by the chunk that covers a byte last. -/
theorem resetState : Obligations.ResetState := by
  unfold Obligations.ResetState
  refine ⟨resetWith_initial, fun c l => ?_, by decide, by decide, by decide, by decide⟩
  refine ⟨rfl, rfl, rfl, rfl, rfl, rfl, rfl, rfl, fun r hr => readReg_resetWith c l hr, rfl,
    List.length_replicate, fun set hset => ?_, rfl, rfl, rfl,
    fun before after chunk k hk hchunks hlimit hlast => ?_, fun a ha => ?_, fun a ha => ?_⟩
  · rw [mem_resetCache hset]
    exact ⟨rfl, List.length_replicate, fun line hline => (List.mem_replicate.mp hline).2⟩
  · show (l.memory c).readByte _ = _
    rw [launch_memory_eq, hchunks]
    exact readByte_loadChunks_last rfl hk hlimit hlast
  · exact readByte_loadChunks_outside (.inl ha)
  · exact readByte_loadChunks_outside (.inr ha)

/-! ### The invariant -/

/-- A set of empty lines is in order, having no valid line. -/
theorem emptySet_ok (c : Config) (index : Nat) :
    CacheSet.Ok c index { lines := List.replicate c.linesPerSet Line.empty, clock := 0 } := by
  have hinvalid : ∀ l ∈ List.replicate c.linesPerSet Line.empty, ¬l.valid = true := by
    intro l hl
    rw [(List.mem_replicate.mp hl).2]
    decide
  exact ⟨List.length_replicate, fun l hl hvalid => absurd hvalid (hinvalid l hl),
    List.pairwise_of_forall_mem_list fun l hl _ _ hvalid => absurd hvalid (hinvalid l hl),
    List.pairwise_of_forall_mem_list fun l hl _ _ hvalid => absurd hvalid (hinvalid l hl)⟩

theorem resetWith_inv {c : Config} (l : Launch) (hlegal : c.legal = true) :
    (State.resetWith c l).Inv where
  legal := hlegal
  memory := ⟨wf_loadChunks rfl, below_loadChunks (m := []) nofun⟩
  regs := by simp [State.RegsOk, State.resetWith]
  cache :=
    { sets := List.length_replicate
      set_ok := fun i set hset => by
        rw [mem_resetCache (List.mem_of_getElem? hset)]
        exact emptySet_ok c i
      clocks := by simp [State.resetWith, resetCache, Stats.zero] }
  latches := latchesOk_of_drained rfl rfl rfl rfl
  counters := ⟨le_rfl, le_rfl, le_rfl, le_rfl, rfl⟩

theorem resetWith_coherent (c : Config) (l : Launch) : (State.resetWith c l).Coherent :=
  coherent_of_drained rfl rfl rfl

theorem resetWith_pcsEven {c : Config} (l : Launch) (heven : c.resetPc.getLsbD 0 = false) :
    (State.resetWith c l).PcsEven :=
  ⟨heven, forall_of_bubble, forall_of_bubble, forall_of_bubble, forall_of_bubble⟩

/-- Settles O51: nothing is in flight, counted or cached, and the loader drops what lies past memory. -/
theorem launchSatisfiesInvariant : Obligations.LaunchSatisfiesInvariant := by
  unfold Obligations.LaunchSatisfiesInvariant
  exact fun c l hlegal => ⟨resetWith_inv l hlegal, resetWith_coherent c l, resetWith_pcsEven l⟩

/-- Settles O50: `State.reset` is the reset under the initial configuration and the default launch. -/
theorem resetSatisfiesInvariant : Obligations.ResetSatisfiesInvariant := by
  unfold Obligations.ResetSatisfiesInvariant
  rw [← resetWith_initial]
  exact ⟨resetWith_inv _ (by decide), resetWith_pcsEven _ (by decide), resetWith_coherent _ _⟩

end Sys2Proof.Machine
end

section
/-!
Runs of the pipeline (spec/70_reset_and_hazards.md sections 4 and 5): each cycle of a coherent state refines the sequential
machine, an empty pipeline fills in four cycles, cycles count instructions, and what the exit cycle commits.
-/
namespace Sys2Proof.Machine

/-! ### The refinement (R640) -/

/-- A sequential step is the record Fetch makes at the pc, passing alone. -/
theorem execNext_eq_stagedAlone (u : State) : u.execNext = .next (u.fetchStage.stagedAlone u) := by
  unfold State.execNext State.fetchStage
  cases hfetch : u.fetchWord u.pc with
  | none => exact congrArg Host.Outcome.next (staged_faultRecord u ⟨.fetch, u.pc⟩).symm
  | some raw =>
    cases hdec : decode raw with
    | some i => simp only [Decoded.ofWord, hdec]; exact exec_eq_stagedAlone i raw u
    | none => simp only [Decoded.ofWord, hdec]; exact staged_invalid raw u

theorem viewAfterExMem_of_bubble {s : State} (h : s.exmem = .bubble) :
    s.viewAfterExMem = s.archView := by
  simp [State.viewAfterExMem, h]

/-- The record in EX/MEM of a coherent state takes the sequential step of the view. -/
theorem seqStep_archView {s : State} (hlegal : s.cfg.legal = true) (hview : s.archView.run = .running)
    (hcoherent : s.Coherent) {r : ExMem} (hr : s.exmem = .occupied r) :
    seqStep s.archView = .next s.viewAfterExMem := by
  rw [seqStep_of_running (by rw [archView_cfg]; exact hlegal) hview, execNext_eq_stagedAlone,
    viewAfterExMem_eq hview hcoherent hr,
    fetchAt_congr (u := s) (v := s.archView) (archView_mem s).symm (archView_cfg s).symm]
  rfl

/-- Settles O57: the commit keeps the state coherent, and its view is that of the record in EX/MEM passing
alone, which is the sequential step. -/
theorem pipelineRefinesSequential : Obligations.PipelineRefinesSequential := by
  unfold Obligations.PipelineRefinesSequential
  intro s hlegal hrun hcoherent hview hrf hstore
  obtain ⟨hfault, -, -⟩ := archView_running hview
  have harch := archEq_commit hview hcoherent
  refine ⟨s.commit, cycle_of_no_fault hlegal hrun hfault, coherent_commit hview hcoherent hrf hstore,
    fun hbubble => ?_, fun hoccupied => ?_⟩
  · rw [viewAfterExMem_of_bubble hbubble] at harch
    exact harch
  · cases hr : s.exmem with
    | bubble => exact absurd hr hoccupied
    | occupied r => exact ⟨_, seqStep_archView hlegal hview hcoherent hr, harch⟩

/-! ### An empty pipeline fills in four cycles (R631) -/

/-- Nothing is in flight. -/
structure State.Drained (s : State) : Prop where
  ifid : s.ifid = .bubble
  idex : s.idex = .bubble
  exmem : s.exmem = .bubble
  memwb : s.memwb = .bubble

section Fill
variable {s : State}

/-- With nothing in ID/EX there is neither a redirect nor a stall. -/
theorem decision_of_idex_bubble (hfault : s.wbFault = none) (hidex : s.idex = .bubble) :
    s.decision = .advance :=
  decision_of_no_stall hfault (by simp [State.takenTarget, hidex]) (by simp [State.stall, hidex])

theorem commit_exmem_of_bubble (h : s.idex = .bubble) : s.commit.exmem = .bubble := by
  simp [State.commit, State.executeStage, h]

theorem commit_exmem_of_occupied {q : IdEx} (h : s.idex = .occupied q) :
    s.commit.exmem = .occupied (q.executeWith (s.fwd1 q) (s.fwd2 q)) := by
  simp [State.commit, State.executeStage, h]

theorem commit_memwb_of_bubble (h : s.exmem = .bubble) : s.commit.memwb = .bubble := by
  simp [State.commit, State.memOut, h]

theorem commit_memwb_of_occupied {e : ExMem} (h : s.exmem = .occupied e) :
    s.commit.memwb = .occupied (s.memoryOf e).out := by
  simp [State.commit, State.memOut, h]

/-- The record fetched by a drained state, one latch further with each cycle. -/
structure Fills (s t1 t2 t3 t4 : State) : Prop where
  ifid : t1.ifid = .occupied s.fetchStage
  idex : ∃ view, t2.idex = .occupied (s.fetchStage.decodeWith view)
  exmem : ∃ e, t3.exmem = .occupied e ∧ e.fetched = s.fetchStage
  memwb : ∃ m, t4.memwb = .occupied m ∧ m.pc = s.fetchStage.pc ∧ m.raw = s.fetchStage.raw
  bubbles : t1.memwb = .bubble ∧ t2.memwb = .bubble ∧ t3.memwb = .bubble
  early : t1.exmem = .bubble ∧ t2.exmem = .bubble

theorem fills_of_drained (h : s.Drained) :
    Fills s s.commit s.commit.commit s.commit.commit.commit s.commit.commit.commit.commit := by
  obtain ⟨-, hifid1, hidex1, -⟩ := commit_of_advance
    (decision_of_idex_bubble (wbFault_of_bubble h.memwb) h.idex)
  have hidex1 : s.commit.idex = .bubble := by rw [hidex1, State.decodeStage, h.ifid]
  have hexmem1 := commit_exmem_of_bubble h.idex
  have hmemwb1 := commit_memwb_of_bubble h.exmem
  obtain ⟨-, -, hidex2, -⟩ := commit_of_advance
    (decision_of_idex_bubble (wbFault_of_bubble hmemwb1) hidex1)
  have hidex2 : s.commit.commit.idex = .occupied (s.fetchStage.decodeWith s.commit.rfView) := by
    rw [hidex2, State.decodeStage, hifid1]
  have hexmem2 := commit_exmem_of_bubble hidex1
  have hexmem3 := commit_exmem_of_occupied hidex2
  exact ⟨hifid1, ⟨_, hidex2⟩, ⟨_, hexmem3, rfl⟩,
    ⟨_, commit_memwb_of_occupied hexmem3, memoryOf_pc _ _, memoryOf_raw _ _⟩,
    ⟨hmemwb1, commit_memwb_of_bubble hexmem1, commit_memwb_of_bubble hexmem2⟩, hexmem1, hexmem2⟩

/-- A cycle with a bubble in MEM/WB is a commit. -/
theorem cycle_of_bubble (hlegal : s.cfg.legal = true) (hrun : s.run = .running)
    (hbubble : s.memwb = .bubble) : cycle s = .next s.commit :=
  cycle_of_no_fault hlegal hrun (wbFault_of_bubble hbubble)

theorem cycles_succ_of_bubble (n : Nat) (hlegal : s.cfg.legal = true) (hrun : s.run = .running)
    (hbubble : s.memwb = .bubble) : cycles (n + 1) s = cycles n s.commit := by
  rw [cycles, cycle_of_bubble hlegal hrun hbubble]

theorem runToRetirement_succ_of_bubble (n : Nat) (hlegal : s.cfg.legal = true)
    (hrun : s.run = .running) (hbubble : s.memwb = .bubble) :
    runToRetirement (n + 1) s = runToRetirement n s.commit := by
  rw [runToRetirement, cycle_of_bubble hlegal hrun hbubble, hbubble]
  rfl

/-- The five cycles of a step that begins drained: four commits, and the cycle in which its record retires. -/
theorem cycles_of_drained (hlegal : s.cfg.legal = true) (hrun : s.run = .running) (h : s.Drained) :
    cycles 1 s = .next s.commit ∧ cycles 2 s = .next s.commit.commit
      ∧ cycles 3 s = .next s.commit.commit.commit ∧ cycles 4 s = .next s.commit.commit.commit.commit
      ∧ step s = cycle s.commit.commit.commit.commit
      ∧ s.commit.commit.commit.commit.run = .running := by
  obtain ⟨hb1, hb2, hb3⟩ := (fills_of_drained h).bubbles
  have hrun1 := commit_run_of_bubble h.memwb hrun
  have hrun2 := commit_run_of_bubble hb1 hrun1
  have hrun3 := commit_run_of_bubble hb2 hrun2
  have hl1 : s.commit.cfg.legal = true := by rw [commit_cfg]; exact hlegal
  have hl2 : s.commit.commit.cfg.legal = true := by rw [commit_cfg]; exact hl1
  have hl3 : s.commit.commit.commit.cfg.legal = true := by rw [commit_cfg]; exact hl2
  have hnext0 := fun n => cycles_succ_of_bubble n hlegal hrun h.memwb
  have hnext1 := fun n => cycles_succ_of_bubble n hl1 hrun1 hb1
  have hnext2 := fun n => cycles_succ_of_bubble n hl2 hrun2 hb2
  have hnext3 := fun n => cycles_succ_of_bubble n hl3 hrun3 hb3
  refine ⟨hnext0 0, ?_, ?_, ?_, ?_, commit_run_of_bubble hb3 hrun3⟩
  · rw [hnext0 1, hnext1 0]; rfl
  · rw [hnext0 2, hnext1 1, hnext2 0]; rfl
  · rw [hnext0 3, hnext1 2, hnext2 1, hnext3 0]; rfl
  · rw [step, pipelineFill, runToRetirement_succ_of_bubble 3 hlegal hrun h.memwb,
      runToRetirement_succ_of_bubble 2 hl1 hrun1 hb1, runToRetirement_succ_of_bubble 1 hl2 hrun2 hb2,
      runToRetirement_succ_of_bubble 0 hl3 hrun3 hb3]
    rfl

/-- The four filling commits write no register and emit nothing. -/
theorem kept_of_drained (hrun : s.run = .running) (h : s.Drained) :
    RegsKept s s.commit.commit.commit.commit ∧ OutputsKept s s.commit.commit.commit.commit := by
  obtain ⟨hb1, hb2, hb3⟩ := (fills_of_drained h).bubbles
  obtain ⟨hregs0, ⟨hreq0, hdiag0⟩, hrun1⟩ := writeback_bubble h.memwb hrun
  obtain ⟨hregs1, ⟨hreq1, hdiag1⟩, hrun2⟩ := writeback_bubble hb1 hrun1
  obtain ⟨hregs2, ⟨hreq2, hdiag2⟩, hrun3⟩ := writeback_bubble hb2 hrun2
  obtain ⟨hregs3, ⟨hreq3, hdiag3⟩, -⟩ := writeback_bubble hb3 hrun3
  exact ⟨fun r => (hregs3 r).trans ((hregs2 r).trans ((hregs1 r).trans (hregs0 r))),
    hreq3.trans (hreq2.trans (hreq1.trans hreq0)),
    hdiag3.trans (hdiag2.trans (hdiag1.trans hdiag0))⟩

end Fill

theorem drained_resetWith (c : Config) (l : Launch) : (State.resetWith c l).Drained :=
  ⟨rfl, rfl, rfl, rfl⟩

theorem fetchStage_of_fetchWord {s : State} {raw : Word} (h : s.fetchWord s.pc = some raw) :
    s.fetchStage = { pc := s.pc, raw := raw, dec := Decoded.ofWord raw, fault := none } := by
  simp [State.fetchStage, h]

/-- Settles O54: the state after reset is drained, so the first record fills the pipeline alone. -/
theorem bootSequence : Obligations.BootSequence := by
  unfold Obligations.BootSequence
  intro c l raw hlegal hfetch
  have hdrained := drained_resetWith c l
  obtain ⟨hc1, hc2, hc3, hc4, hstep, -⟩ := cycles_of_drained hlegal rfl hdrained
  obtain ⟨hifid, ⟨view, hidex⟩, ⟨e, hexmem, hfetched⟩, ⟨m, hmemwb, hmpc, hmraw⟩, ⟨hb1, hb2, hb3⟩, -⟩ :=
    fills_of_drained hdrained
  obtain ⟨hregs, hrequests, hdiagnostics⟩ := kept_of_drained rfl hdrained
  have hrecord := fetchStage_of_fetchWord (s := State.resetWith c l) hfetch
  have hpc : (State.resetWith c l).fetchStage.pc = c.resetPc := congrArg IfId.pc hrecord
  have hraw : (State.resetWith c l).fetchStage.raw = raw := congrArg IfId.raw hrecord
  have hepc : e.pc = c.resetPc := (congrArg IfId.pc hfetched).trans hpc
  have heraw : e.raw = raw := (congrArg IfId.raw hfetched).trans hraw
  exact ⟨_, _, _, _, _, _, e, m, hc1, hc2, hc3, hc4, hifid, hpc, hraw, hidex, hpc, hraw, hexmem, hepc,
    heraw, hmemwb, hmpc.trans hpc, hmraw.trans hraw, hb1, hb2, hb3, hdiagnostics, hrequests, hregs, hstep⟩

/-! ### A step from an empty pipeline (log entry 5) -/

theorem ArchEq.trans {u v w : State} (huv : ArchEq u v) (hvw : ArchEq v w) : ArchEq u w where
  cfg := huv.cfg.trans hvw.cfg
  rf := huv.rf.trans hvw.rf
  mem := huv.mem.trans hvw.mem
  cache := huv.cache.trans hvw.cache
  hits := huv.hits.trans hvw.hits
  misses := huv.misses.trans hvw.misses
  evictions := huv.evictions.trans hvw.evictions
  run := huv.run.trans hvw.run
  hostRequests := huv.hostRequests.trans hvw.hostRequests
  diagnostics := huv.diagnostics.trans hvw.diagnostics
  cacheResults := huv.cacheResults.trans hvw.cacheResults
  pc hrun := (huv.pc hrun).trans (hvw.pc (huv.run ▸ hrun))

/-- A drained state stands for itself. -/
theorem archView_of_drained {s : State} (h : s.Drained) : ArchEq s.archView s := by
  rw [archView_bubble h.memwb]
  exact ⟨rfl, rfl, rfl, rfl, rfl, rfl, rfl, rfl, rfl, rfl, rfl,
    fun _ => by simp [State.oldestPc, h.exmem, h.idex, h.ifid]⟩

/-- A commit with bubbles in EX/MEM and MEM/WB meets no hazard and leaves the view. -/
theorem quiet_commit {s : State} (hexmem : s.exmem = .bubble) (hmemwb : s.memwb = .bubble)
    (hview : s.archView.run = .running) (hcoherent : s.Coherent) :
    s.commit.Coherent ∧ ArchEq s.commit.archView s.archView ∧ s.commit.archView.run = .running := by
  have hstore : s.storeHazardFree = true := by
    simp [State.storeHazardFree, State.storeRequest, hexmem]
  have hrf : s.rfHazardFree = true := by
    simp [State.rfHazardFree, State.rfWrite, State.retiring, hmemwb]
  have harch := archEq_commit hview hcoherent
  rw [viewAfterExMem_of_bubble hexmem] at harch
  exact ⟨coherent_commit hview hcoherent hrf hstore, harch, harch.run.trans hview⟩

/-- Four cycles from a drained state, the machine stands for the record at its pc having passed alone. -/
theorem archView_of_filled {s : State} (hrun : s.run = .running) (h : s.Drained) :
    ArchEq s.commit.commit.commit.commit.archView (s.fetchStage.stagedAlone s) := by
  obtain ⟨-, -, ⟨e, hexmem3, -⟩, -, ⟨hb1, hb2, -⟩, hexmem1, hexmem2⟩ := fills_of_drained h
  have hself := archView_of_drained h
  obtain ⟨hcoh1, harch1, hview1⟩ := quiet_commit h.exmem h.memwb (hself.run.trans hrun)
    (coherent_of_drained h.ifid h.idex h.exmem)
  obtain ⟨hcoh2, harch2, hview2⟩ := quiet_commit hexmem1 hb1 hview1 hcoh1
  obtain ⟨hcoh3, harch3, hview3⟩ := quiet_commit hexmem2 hb2 hview2 hcoh2
  have hview := ((harch3.trans harch2).trans harch1).trans hself
  have hfetch : s.commit.commit.commit.fetchAt s.commit.commit.commit.archView.pc = s.fetchStage := by
    rw [hview.pc hview3, fetchAt_congr (v := s) ((archView_mem _).symm.trans hview.mem)
      ((archView_cfg _).symm.trans hview.cfg)]
    rfl
  have harch4 := archEq_commit hview3 hcoh3
  rw [viewAfterExMem_eq hview3 hcoh3 hexmem3, hfetch] at harch4
  exact harch4.trans (stagedAlone_arch hview hview3 _)

/-- A cycle leaves RF, RUN and the outputs as its view has them, whether or not it is a faulting one. -/
theorem afterCycle_archView (s : State) : s.afterCycle.rf = s.archView.rf
    ∧ s.afterCycle.run = s.archView.run ∧ s.afterCycle.hostRequests = s.archView.hostRequests
    ∧ s.afterCycle.diagnostics = s.archView.diagnostics := by
  cases hfault : s.wbFault with
  | none =>
    rw [afterCycle_of_no_fault hfault]
    exact ⟨commit_rf s, commit_run_of_no_fault hfault, commit_hostRequests s, commit_diagnostics s⟩
  | some tag =>
    rw [afterCycle_of_fault hfault]
    cases hm : s.memwb with
    | bubble => rw [wbFault_of_bubble hm] at hfault; cases hfault
    | occupied m =>
      rw [archView_fault hm ((wbFault_of_occupied hm).symm.trans hfault)]
      exact ⟨rfl, rfl, rfl, rfl⟩

theorem zextN_word (v : Word) : zextN 32 v = v := by
  simp [zextN]

/-- The word placed by `withFetchWord` is the word fetched (log entry 23). -/
theorem fetchWord_withFetchWord {s : State} (w : Nat) (hsize : 4 ≤ s.cfg.memSize)
    (hwf : s.mem.wf = true) :
    (s.withFetchWord 32 w).fetchWord (s.withFetchWord 32 w).pc = some (BitVec.ofNat 32 w) := by
  have hin : (s.withFetchWord 32 w).pc.toNat + 4 ≤ (s.withFetchWord 32 w).cfg.memSize := by
    show (if s.inRange s.pc 4 then s.pc else 0#32).toNat + 4 ≤ s.cfg.memSize
    split
    next hpc => exact of_decide_eq_true hpc
    next => exact hsize
  have hword : BitVec.ofNat 32 (w % 2 ^ 32) = BitVec.ofNat 32 w :=
    BitVec.eq_of_toNat_eq (by simp)
  have hread := Memory.readLE_writeLE_self s.mem (s.withFetchWord 32 w).pc.toNat 4
    (BitVec.ofNat 32 (w % 2 ^ 32)) hwf
  rw [hword, show 8 * 4 = 32 from rfl, zextN_word] at hread
  rw [State.fetchWord, memRead_some hin, ← hread, ← hword]
  rfl

/-- Settles O55: the pipeline fills with the word's record, whose passing alone is `exec`, and the fifth
cycle leaves what the view has. -/
theorem stepRunsDecodedInstruction : Obligations.StepRunsDecodedInstruction := by
  unfold Obligations.StepRunsDecodedInstruction
  refine ⟨fun s raw i hlegal hrun hifid hidex hexmem hmemwb hfetch hdec => ?_,
    fun s w _ hsize hwf => ⟨rfl, rfl, rfl, rfl, rfl, rfl, rfl, fetchWord_withFetchWord w hsize hwf⟩⟩
  have hdrained : s.Drained := ⟨hifid, hidex, hexmem, hmemwb⟩
  obtain ⟨-, -, -, hcycles, hstep, hrun4⟩ := cycles_of_drained hlegal hrun hdrained
  have harch := archView_of_filled hrun hdrained
  have hexec : exec i s = .next (s.fetchStage.stagedAlone s) := by
    rw [exec_eq_stagedAlone i raw s, fetchStage_of_fetchWord hfetch, Decoded.ofWord, hdec]
  have hlegal4 : s.commit.commit.commit.commit.cfg.legal = true := by simpa using hlegal
  have hcycle := cycle_of_running hlegal4 hrun4
  obtain ⟨hrf, hrunview, hrequests, hdiagnostics⟩ := afterCycle_archView s.commit.commit.commit.commit
  exact ⟨_, _, _, hcycles, hcycle, hstep.trans hcycle, hexec, harch, hrf.trans harch.rf,
    hrunview.trans harch.run, hrequests.trans harch.hostRequests, hdiagnostics.trans harch.diagnostics⟩

/-! ### Cycles count instructions (R642, log entry 25) -/

/-- A run that goes on from `s` without ending in a fault does not begin faulted. -/
theorem noFault_of_cycles {n : Nat} {s t : State} (h : cycles n s = .next t) (ht : t.noFault = true) :
    s.noFault = true := by
  cases n with
  | zero => cases h; exact ht
  | succ n =>
    rw [cycles] at h
    split at h
    next u hu => simp [State.noFault, (cycle_next hu).2.1]
    next => cases h
    next => cases h

theorem retiring_isSome {s : State} (hfault : s.wbFault = none) :
    s.retiring.isSome = s.memwb.isOccupied := by
  unfold State.retiring
  cases hm : s.memwb with
  | bubble => rfl
  | occupied m =>
    rw [wbFault_of_occupied hm] at hfault
    simp [hfault, Latch.isOccupied]

/-- One committed cycle: what is in flight moves on, and the front gains one instruction, less one per
stall and two per redirect. -/
theorem commit_counts {s : State} (hok : s.LatchesOk) (hfault : s.wbFault = none) :
    1 + s.inFlight + s.stats.stalls + 2 * s.stats.branchesTaken
      = s.retiring.isSome.toNat + s.commit.inFlight + s.commit.stats.stalls
        + 2 * s.commit.stats.branchesTaken := by
  have hexmem : s.commit.exmem.isOccupied = s.idex.isOccupied := by
    cases h : s.idex <;> simp [State.commit, State.executeStage, h, Latch.isOccupied]
  have hmemwb : s.commit.memwb.isOccupied = s.exmem.isOccupied := by
    cases h : s.exmem <;> simp [State.commit, State.memOut, h, Latch.isOccupied]
  simp only [State.inFlight, retiring_isSome hfault, hexmem, hmemwb]
  obtain ⟨target, hdecision, htaken⟩ | ⟨hdecision, htaken, -⟩ | ⟨hdecision, htaken, -⟩ :=
    decision_cases hfault
  · obtain ⟨-, hifid, hidex, hstalls⟩ := commit_of_redirect hdecision
    obtain ⟨q, hq, -⟩ := takenTarget_eq_some htaken
    have hyounger : s.ifid.isOccupied = true := hok.younger (by rw [hq]; rfl)
    rw [hifid, hidex, hstalls, commit_branchesTaken_of_redirect htaken, hyounger]
    simp only [Latch.isOccupied, Bool.toNat_true, Bool.toNat_false]
    omega
  · obtain ⟨-, hifid, hidex, hstalls⟩ := commit_of_stall hdecision
    rw [hifid, hidex, hstalls, commit_branchesTaken_of_no_redirect htaken]
    simp only [Latch.isOccupied, Bool.toNat_false]
    omega
  · obtain ⟨-, hifid, hidex, hstalls⟩ := commit_of_advance hdecision
    have hdecode : s.decodeStage.isOccupied = s.ifid.isOccupied := by
      cases h : s.ifid <;> simp [State.decodeStage, h, Latch.isOccupied]
    rw [hifid, hidex, hstalls, commit_branchesTaken_of_no_redirect htaken, hdecode]
    simp only [Latch.isOccupied, Bool.toNat_true]
    omega

/-- Settles O56, by induction on the number of cycles; each is a commit, since the run does not end in a
fault. -/
theorem cyclesCountInstructions : Obligations.CyclesCountInstructions := by
  unfold Obligations.CyclesCountInstructions
  intro n
  induction n with
  | zero =>
    intro s t _ h _
    cases h
    simp [retiredIn]
  | succ n ih =>
    intro s t hinv h ht
    rw [cycles] at h
    cases hcycle : cycle s with
    | fault f => rw [hcycle] at h; cases h
    | refused r => rw [hcycle] at h; cases h
    | next u =>
      rw [hcycle] at h
      have hrest := ih u t (inv_cycle hinv hcycle) h ht
      obtain ⟨hlegal, hrun, hafter⟩ := cycle_next hcycle
      have hfault : s.wbFault = none := by
        cases hf : s.wbFault with
        | none => rfl
        | some tag =>
          have hu := noFault_of_cycles h ht
          rw [hafter, afterCycle_of_fault hf] at hu
          cases hu
      rw [afterCycle_of_no_fault hfault] at hafter
      have hcommit := commit_counts hinv.latches hfault
      rw [← hafter] at hcommit
      rw [retiredIn, hcycle]
      simp only
      omega

/-! ### The exit cycle (R452, R453) -/

section Exit
variable {s : State}

/-- Whose exit it is: a trap without a fault, with x[10] = `EXIT_CODE`. -/
theorem wbExit_eq_true (h : s.wbExit = true) : ∃ r, s.memwb = .occupied r ∧ r.fault = none
    ∧ r.ctrl.trap = true ∧ s.readReg 10#5 = s.cfg.exitCode := by
  unfold State.wbExit State.retiring at h
  cases hm : s.memwb with
  | bubble => simp [hm] at h
  | occupied r =>
    cases hfault : r.fault with
    | some tag => simp [hm, hfault] at h
    | none =>
      simp only [hm, hfault, Option.isNone_none, if_true, Bool.and_eq_true] at h
      exact ⟨r, rfl, hfault, h.1, (exitRequested_iff s).mp h.2⟩

theorem commit_mem_of_none (h : s.storeRequest = none) : s.commit.mem = s.mem := by
  rw [commit_mem, h]
  exact archView_mem s

theorem commit_mem_of_some {w : StoreRequest} (h : s.storeRequest = some w) :
    s.commit.mem = s.mem.writeLE w.addr.toNat w.bytes w.value := by
  rw [commit_mem, h]
  simp [State.applyStore]

/-- Without hazard H3 the exit cycle counts nothing but the cycle, and leaves memory and cache alone. -/
theorem exit_without_hazard (hexit : s.wbExit = true) (hrun : s.commit.run = .exited)
    (hfree : s.exitHazardFree = true) : ArchEq s.commit s.archView
      ∧ s.commit.stats = { s.stats with cycles := s.stats.cycles + 1 } := by
  simp only [State.exitHazardFree, hexit, Bool.not_true, Bool.false_or, Bool.and_eq_true,
    Option.isNone_iff_eq_none, Bool.not_eq_true', beq_iff_eq] at hfree
  obtain ⟨⟨⟨⟨⟨hstore, haccess⟩, htaken⟩, hstall⟩, hexmem⟩, hmemwb⟩ := hfree
  obtain ⟨r, hr, hfault, -⟩ := wbExit_eq_true hexit
  have hnofault : s.wbFault = none := (wbFault_of_occupied hr).trans hfault
  obtain ⟨hcache, hhits, hmisses, hevictions, hresults⟩ := commit_cacheKept_of_none haccess
  obtain ⟨ocache, ostats, oresults⟩ := archView_other s
  obtain ⟨hcycles, -, -, hfwdexmem, hfwdmemwb⟩ := commit_timing s
  have hstalls := commit_stalls hnofault
  have hbranches := commit_branchesTaken_of_no_redirect htaken
  constructor
  · refine ⟨by simp, commit_rf s, (commit_mem_of_none hstore).trans (archView_mem s).symm,
      hcache.trans ocache.symm, ?_, ?_, ?_, commit_run_of_no_fault hnofault, commit_hostRequests s,
      commit_diagnostics s, hresults.trans oresults.symm, fun h => ?_⟩
    · rw [ostats, hhits]
    · rw [ostats, hmisses]
    · rw [ostats, hevictions]
    · rw [hrun] at h; cases h
  · have hfields : ∀ st : Stats, st = ⟨st.cycles, st.stalls, st.branchesTaken, st.fwdFromExMem,
      st.fwdFromMemWb, st.hits, st.misses, st.evictions⟩ := fun _ => rfl
    rw [hfields s.commit.stats, hcycles, hstalls, hbranches, hfwdexmem, hfwdmemwb, hhits, hmisses,
      hevictions, hexmem, hmemwb, if_neg (by simp [hstall])]
    rfl

end Exit

/-- Settles O58: the exit cycle is a commit, whose parts are known; without H3 nothing younger acts. -/
theorem exitCycleCompletes : Obligations.ExitCycleCompletes := by
  unfold Obligations.ExitCycleCompletes
  intro s hlegal hrun hexit
  obtain ⟨r, hr, hfault, htrap, hcode⟩ := wbExit_eq_true hexit
  have hnofault : s.wbFault = none := (wbFault_of_occupied hr).trans hfault
  obtain ⟨hcycles, -, -, hexmem, hmemwb⟩ := commit_timing s
  have hexited : s.commit.run = .exited := by
    rw [commit_run_of_retiring hr hfault, if_pos ⟨htrap, hcode⟩]
  have hrequests : s.commit.hostRequests
      = s.hostRequests ++ [{ code := s.cfg.exitCode, arg := s.readReg 11#5 }] := by
    rw [commit_hostRequests_of_retiring hr hfault, if_pos htrap, ← hcode]
    rfl
  refine ⟨s.commit, cycle_of_no_fault hlegal hrun hnofault, hexited, commit_rf s, hrequests, hcycles,
    fun w => commit_mem_of_some, commit_mem_of_none, fun target htaken => ⟨?_, ?_⟩,
    commit_branchesTaken_of_no_redirect, fun htaken hstall => ?_, fun a => commit_cacheKept_of_some,
    commit_cacheKept_of_none, hexmem, hmemwb, rfl, exit_without_hazard hexit hexited⟩
  · exact (commit_of_redirect (decision_of_redirect hnofault htaken)).1
  · exact commit_branchesTaken_of_redirect htaken
  · rw [commit_stalls hnofault, if_pos ⟨hstall, htaken⟩]

end Sys2Proof.Machine
end
